-- ==== Sys2Proof/Word.lean ====
section
/-! DEFINITION. The two word types of the block: a byte (every transport access, every operand byte) and a 16-bit address
(the device cursor, the ROM pointers). -/

namespace Sys2Proof

/-- One byte: a row-byte, a command byte, an operand byte (R59, R90). Bit 0 is the least significant (R10). -/
abbrev Byte := BitVec 8

/-- A 16-bit address of the device memory or of the constant-data ROM; its sums wrap mod 65536 (R9, R11, R70). -/
abbrev Word := BitVec 16

end Sys2Proof
end

