-- ==== Sys2Proof/Config.lean ====
section
/-! DEFINITION. The parameters of R9. Those the spec fixes for this hardware are constants; those it leaves OPEN, and STRICT,
are the fields of `Params`, an argument of the model: a state carries one `Params`, no step changes it (R29), and a statement
about every state is a statement about every value of the open parameters. -/

namespace Sys2Proof

namespace Config

/-- `W`, the logical width in pixels (R8). -/
def W : Nat := 240

/-- `H`, the logical height in pixels (R8). -/
def H : Nat := 128

/-- `BPR = W/8`, the row-bytes of one row (R8, R9). -/
def BPR : Nat := 30

/-- `SURF_BASE`, the device address of pixel (0,0) (R9, R69). -/
def SURF_BASE : Nat := 0

/-- `SURF_BYTES = BPR * H`, the bytes of the display surface (R8). -/
def SURF_BYTES : Nat := 3840

/-- What a byte of device memory, or of the ROM, that no cell lists reads as. DESIGN CHOICE, unsafe (assumption 2 for the device,
assumption 3 for the ROM): the spec leaves the power-up contents of MEM open (R67, U5). A list can hold every contents. -/
def unlisted : Byte := 0

end Config

/-- The parameters that R9 leaves open, and STRICT, whose value the spec chooses but whose other value R240 describes too. -/
structure Params where
  /-- `CMD_CUR_LO`: selects the low byte of the device cursor (R9, R100). -/
  cmdCurLo : Byte
  /-- `CMD_CUR_HI`: selects the high byte of the device cursor. -/
  cmdCurHi : Byte
  /-- `CMD_WRITE`: begins a streamed write. -/
  cmdWrite : Byte
  /-- `CMD_READ`: begins a streamed read. -/
  cmdRead : Byte
  /-- `CMD_BIT_CLR`: single-bit clear. -/
  cmdBitClr : Byte
  /-- `CMD_BIT_SET`: single-bit set. -/
  cmdBitSet : Byte
  /-- `MODE_SETUP`: the (command byte, data byte) pairs INIT sends (R9, R127). -/
  modeSetup : List (Byte × Byte)
  /-- `STRICT`: whether the bounds and pattern checks are made (R9, R231, R232, R240). -/
  strict : Bool
  /-- `WAIT_BUSY`: whether every transaction is preceded by `WaitBusy` (R9, R56). -/
  waitBusy : Bool
  /-- `BUSY_POLL_LIMIT`: `none`, or the number of consecutive busy answers that raises TimeoutError (R9, R56, R235). -/
  busyPollLimit : Option Nat
  /-- `LINE_DX0_INVERT`: whether a vertical LINE draws in the opposite colour (R9, R164). -/
  lineDx0Invert : Bool
  /-- `FAST_PATH_8x16`: whether the byte-aligned text path is compiled in (R9, R201). -/
  fastPath8x16 : Bool
  deriving DecidableEq, Repr

/-- The six device commands, in the order of R9. -/
def Params.deviceCommands (p : Params) : List Byte :=
  [p.cmdCurLo, p.cmdCurHi, p.cmdWrite, p.cmdRead, p.cmdBitClr, p.cmdBitSet]

/-- "The six `CMD_*` values must be pairwise distinct; the rules assume it" (R9). -/
abbrev Params.distinct (p : Params) : Prop := p.deviceCommands.Nodup

/-- What R9 asks of a parameter choice: distinct device commands, and a poll limit, where there is one, of at least 1. -/
abbrev Params.wf (p : Params) : Prop := p.distinct ∧ p.busyPollLimit ≠ some 0

/-- The values of the last column of R9, used by the test vectors: the example value of each open parameter and the value
decision D22 gives STRICT. DESIGN CHOICE as the value State.reset carries (assumption 1): the spec leaves the open ones open. -/
def Params.reference : Params where
  cmdCurLo := 0x0A
  cmdCurHi := 0x0B
  cmdWrite := 0x0C
  cmdRead := 0x0D
  cmdBitClr := 0x0E
  cmdBitSet := 0x0F
  modeSetup := []
  strict := true
  waitBusy := false
  busyPollLimit := none
  lineDx0Invert := false
  fastPath8x16 := false

end Sys2Proof
end

