-- ==== Sys2Proof/Syntax.lean ====
section
/-! DEFINITION. The 17 commands of the block, one constructor per row of the opcode table (R93). Operands are the latches of R21,
in stream order; the colour bit of the opcode byte comes first where a command has one. -/

namespace Sys2Proof

/-- A pixel colour: bit 0 of the opcode byte, 1 black and 0 white (R10, R21, R92). -/
inductive Colour where
  | white
  | black
  deriving DecidableEq, Repr

/-- A command (R93). There is no register operand and no addressing mode: every operand is an immediate (R92). -/
inductive Instr where
  /-- INIT (R127). -/
  | init
  /-- SETCUR `a` (R128). -/
  | setcur (a : Word)
  /-- WRBEGIN (R129). -/
  | wrbegin
  /-- WRBYTE `b` (R130). -/
  | wrbyte (b : Byte)
  /-- RDBEGIN (R131). -/
  | rdbegin
  /-- RDBYTE (R132). -/
  | rdbyte
  /-- BITCLR `n` (R133). -/
  | bitclr (n : Byte)
  /-- BITSET `n` (R134). -/
  | bitset (n : Byte)
  /-- PIXCLR `x, y` (R135). -/
  | pixclr (x y : Byte)
  /-- PIXSET `x, y` (R136). -/
  | pixset (x y : Byte)
  /-- HLINE `x, y, len, pat` (R153). -/
  | hline (x y len pat : Byte)
  /-- VLINE `x, y, len` in colour `c` (R156). -/
  | vline (c : Colour) (x y len : Byte)
  /-- LINE `x0, y0, x1, y1` in colour `c` (R158). -/
  | line (c : Colour) (x0 y0 x1 y1 : Byte)
  /-- RECT `x, y, w, h` in colour `c` (R181). -/
  | rect (c : Colour) (x y w h : Byte)
  /-- FILLRECT `x, y, w, h` in colour `c` (R183). -/
  | fillrect (c : Colour) (x y w h : Byte)
  /-- PATFILL `x, y, w, h, pp` (R185). -/
  | patfill (x y w h : Byte) (pp : Word)
  /-- TEXT `x, y, fp, sp, nch` (R205). -/
  | text (x y : Byte) (fp sp : Word) (nch : Byte)
  deriving DecidableEq, Repr

end Sys2Proof
end

