-- ==== Sys2Proof/WellFormed.lean ====
section
/-! DEFINITION. Which commands are well formed: the one operand check of the encoding is the bit index of format N (R95 (b)). Every
value of every other operand is decoded (R95 (c)); a coordinate off the surface is a BoundsError, not an ill-formed command. -/

namespace Sys2Proof

/-- The bit index of BITCLR and BITSET is 0 to 7: its five high bits are reserved and must be zero (R95 (b)). -/
abbrev bitIndexLegal (n : Byte) : Prop := n.toNat < 8

/-- A command whose operands have no reserved bit set. -/
def Instr.wellFormed : Instr → Bool
  | .bitclr n => decide (bitIndexLegal n)
  | .bitset n => decide (bitIndexLegal n)
  | .init => true
  | .setcur _ => true
  | .wrbegin => true
  | .wrbyte _ => true
  | .rdbegin => true
  | .rdbyte => true
  | .pixclr _ _ => true
  | .pixset _ _ => true
  | .hline _ _ _ _ => true
  | .vline _ _ _ _ => true
  | .line _ _ _ _ _ => true
  | .rect _ _ _ _ _ => true
  | .fillrect _ _ _ _ _ => true
  | .patfill _ _ _ _ _ => true
  | .text _ _ _ _ _ => true

end Sys2Proof
end

