-- ==== Sys2Proof/Decode.lean ====
section
/-! DEFINITION. The command decoder (R90 to R97), total on any bytes and rejecting by name, and after it the encoder written from the
same tables; then the table word of the opcode table as bytes, and the pseudo-commands of R99. -/

namespace Sys2Proof

/-! ## Byte order and fields -/

/-- `lo8(v)` (R11). -/
def lo8 (v : Word) : Byte := v.extractLsb' 0 8

/-- `hi8(v)` (R11). -/
def hi8 (v : Word) : Byte := v.extractLsb' 8 8

/-- The 16-bit operand of two stream bytes, low byte first (R57, R92): `{hi, lo}`. -/
def le16 (lo hi : Byte) : Word := hi ++ lo

/-- The colour in bit 0 of the opcode byte: 1 black, 0 white (R92). -/
def colourOfBit (b : Bool) : Colour := if b then .black else .white

/-- The colour bit of a colour (R92). -/
def Colour.bit : Colour → Bool
  | .white => false
  | .black => true

/-! ## The decoder -/

/-- Why the decoder gives no command. -/
inductive DecodeError where
  /-- No byte is left: there is nothing to decode. -/
  | endOfStream
  /-- Byte 0 is not one of the 21 opcode values (R95 (a)). -/
  | unknownOpcode (op : Byte)
  /-- The stream ends inside the command (R94). -/
  | truncated (op : Byte)
  deriving DecidableEq, Repr

/-- What the decoder answers: a command and the bytes after it, or why there is none. -/
abbrev Decoded := Except DecodeError (Instr × List Byte)

/-- The length of a command from its opcode byte; `none` for a byte outside the opcode map (R94). -/
def opLength (op : Byte) : Option Nat :=
  match op.toNat with
  | 0x01 | 0x11 | 0x13 | 0x14 => some 1
  | 0x12 | 0x16 | 0x17 => some 2
  | 0x10 | 0x20 | 0x21 => some 3
  | 0x32 | 0x33 => some 4
  | 0x30 | 0x34 | 0x35 | 0x36 | 0x37 | 0x38 | 0x39 => some 5
  | 0x3A => some 7
  | 0x40 => some 8
  | _ => none

/-- Formats B and N of R91: one operand byte. -/
def decode1 (op : Byte) (k : Byte → Instr) : List Byte → Decoded
  | b :: rest => .ok (k b, rest)
  | _ => .error (.truncated op)

/-- Formats A and P of R91: two operand bytes. -/
def decode2 (op : Byte) (k : Byte → Byte → Instr) : List Byte → Decoded
  | a :: b :: rest => .ok (k a b, rest)
  | _ => .error (.truncated op)

/-- Format V of R91: three operand bytes. -/
def decode3 (op : Byte) (k : Byte → Byte → Byte → Instr) : List Byte → Decoded
  | a :: b :: c :: rest => .ok (k a b c, rest)
  | _ => .error (.truncated op)

/-- Formats H and Q of R91: four operand bytes. -/
def decode4 (op : Byte) (k : Byte → Byte → Byte → Byte → Instr) : List Byte → Decoded
  | a :: b :: c :: d :: rest => .ok (k a b c d, rest)
  | _ => .error (.truncated op)

/-- Format F of R91: four bytes and a 16-bit pointer. -/
def decodeF (op : Byte) : List Byte → Decoded
  | x :: y :: w :: h :: lo :: hi :: rest => .ok (.patfill x y w h (le16 lo hi), rest)
  | _ => .error (.truncated op)

/-- Format T of R91: two coordinates, two 16-bit pointers, a count. -/
def decodeT (op : Byte) : List Byte → Decoded
  | x :: y :: flo :: fhi :: slo :: shi :: n :: rest => .ok (.text x y (le16 flo fhi) (le16 slo shi) n, rest)
  | _ => .error (.truncated op)

/-- The opcode map of R93: the bytes after an opcode byte, read as that command's format says. -/
def decodeOp (op : Byte) (rest : List Byte) : Decoded :=
  match op.toNat with
  | 0x01 => .ok (.init, rest)
  | 0x10 => decode2 op (fun lo hi => .setcur (le16 lo hi)) rest
  | 0x11 => .ok (.wrbegin, rest)
  | 0x12 => decode1 op .wrbyte rest
  | 0x13 => .ok (.rdbegin, rest)
  | 0x14 => .ok (.rdbyte, rest)
  | 0x16 => decode1 op .bitclr rest
  | 0x17 => decode1 op .bitset rest
  | 0x20 => decode2 op .pixclr rest
  | 0x21 => decode2 op .pixset rest
  | 0x30 => decode4 op .hline rest
  | 0x32 | 0x33 => decode3 op (.vline (colourOfBit (op.getLsbD 0))) rest
  | 0x34 | 0x35 => decode4 op (.line (colourOfBit (op.getLsbD 0))) rest
  | 0x36 | 0x37 => decode4 op (.rect (colourOfBit (op.getLsbD 0))) rest
  | 0x38 | 0x39 => decode4 op (.fillrect (colourOfBit (op.getLsbD 0))) rest
  | 0x3A => decodeF op rest
  | 0x40 => decodeT op rest
  | _ => .error (.unknownOpcode op)

/-- Decoding the front of a command stream (R96). A reserved bit index (R95 (b)) is decoded here and raises IllegalCommand when the
command is executed, after the initialisation check and with the whole command consumed, in the order of R96 and R234. -/
def decode : List Byte → Decoded
  | [] => .error .endOfStream
  | op :: rest => decodeOp op rest

/-! ## The encoder -/

/-- The opcode byte of a command that carries its colour in bit 0 (R91: `oooooooc`). -/
def colouredOp (base : Byte) (c : Colour) : Byte := base ||| (BitVec.ofBool c.bit).setWidth 8

/-- The bytes of a command, in stream order (R91, R93). -/
def encode : Instr → List Byte
  | .init => [0x01]
  | .setcur a => [0x10, lo8 a, hi8 a]
  | .wrbegin => [0x11]
  | .wrbyte b => [0x12, b]
  | .rdbegin => [0x13]
  | .rdbyte => [0x14]
  | .bitclr n => [0x16, n]
  | .bitset n => [0x17, n]
  | .pixclr x y => [0x20, x, y]
  | .pixset x y => [0x21, x, y]
  | .hline x y len pat => [0x30, x, y, len, pat]
  | .vline c x y len => [colouredOp 0x32 c, x, y, len]
  | .line c x0 y0 x1 y1 => [colouredOp 0x34 c, x0, y0, x1, y1]
  | .rect c x y w h => [colouredOp 0x36 c, x, y, w, h]
  | .fillrect c x y w h => [colouredOp 0x38 c, x, y, w, h]
  | .patfill x y w h pp => [0x3A, x, y, w, h, lo8 pp, hi8 pp]
  | .text x y fp sp nch => [0x40, x, y, lo8 fp, hi8 fp, lo8 sp, hi8 sp, nch]

/-! ## The opcode table's words -/

/-- The longest command (R90). -/
def maxCommandBytes : Nat := 8

/-- The bytes of a command whose bits are `w`, bit 0 the least significant bit of the first byte, with every bit from `nbits` on
zero, written out to the longest command. -/
def tableWordBytes (nbits w : Nat) : List Byte :=
  (List.range maxCommandBytes).map (fun k => BitVec.ofNat 8 ((w % 2 ^ nbits) >>> (8 * k)))

/-- The command the decoder reads from the bits `w` of a row of the opcode table. -/
def decodeTableWord (nbits w : Nat) : Option Instr :=
  match decode (tableWordBytes nbits w) with
  | .ok (i, _) => some i
  | .error _ => none

/-! ## Assembler names -/

/-- The pseudo-commands of R99; the sequencer never sees one. -/
inductive Pseudo where
  | write1 (b : Byte)
  | read1
  | bitop (n : Byte) (c : Colour)
  | pixel (x y : Byte) (c : Colour)
  | hlinec (x y len : Byte) (c : Colour)
  | fill (x y w h : Byte) (c : Colour)
  | cls
  deriving DecidableEq, Repr

/-- The commands a pseudo-command stands for, in stream order (R99). -/
def Pseudo.expand : Pseudo → List Instr
  | .write1 b => [.wrbegin, .wrbyte b]
  | .read1 => [.rdbegin, .rdbyte]
  | .bitop n .black => [.bitset n]
  | .bitop n .white => [.bitclr n]
  | .pixel x y .black => [.pixset x y]
  | .pixel x y .white => [.pixclr x y]
  | .hlinec x y len .black => [.hline x y len 0xFF]
  | .hlinec x y len .white => [.hline x y len 0x00]
  | .fill x y w h c => [.fillrect c x y w h]
  | .cls => [.fillrect .white 0 0 240 128]

/-- A colour as R98 writes it. -/
def Colour.text : Colour → String
  | .white => "white"
  | .black => "black"

/-- A command line of R98: the mnemonic, a space, the operands in stream order separated by commas, the colour last. -/
def asmLine (mnemonic : String) (operands : List Nat) (c : Option Colour) : String :=
  let fields := operands.map toString ++ (c.map Colour.text).toList
  if fields = [] then mnemonic else mnemonic ++ " " ++ String.intercalate ", " fields

/-- A command in the textual form of R98, numbers in decimal. -/
def Instr.toAsm : Instr → String
  | .init => asmLine "INIT" [] none
  | .setcur a => asmLine "SETCUR" [a.toNat] none
  | .wrbegin => asmLine "WRBEGIN" [] none
  | .wrbyte b => asmLine "WRBYTE" [b.toNat] none
  | .rdbegin => asmLine "RDBEGIN" [] none
  | .rdbyte => asmLine "RDBYTE" [] none
  | .bitclr n => asmLine "BITCLR" [n.toNat] none
  | .bitset n => asmLine "BITSET" [n.toNat] none
  | .pixclr x y => asmLine "PIXCLR" [x.toNat, y.toNat] none
  | .pixset x y => asmLine "PIXSET" [x.toNat, y.toNat] none
  | .hline x y len pat => asmLine "HLINE" [x.toNat, y.toNat, len.toNat, pat.toNat] none
  | .vline c x y len => asmLine "VLINE" [x.toNat, y.toNat, len.toNat] (some c)
  | .line c x0 y0 x1 y1 => asmLine "LINE" [x0.toNat, y0.toNat, x1.toNat, y1.toNat] (some c)
  | .rect c x y w h => asmLine "RECT" [x.toNat, y.toNat, w.toNat, h.toNat] (some c)
  | .fillrect c x y w h => asmLine "FILLRECT" [x.toNat, y.toNat, w.toNat, h.toNat] (some c)
  | .patfill x y w h pp => asmLine "PATFILL" [x.toNat, y.toNat, w.toNat, h.toNat, pp.toNat] none
  | .text x y fp sp nch => asmLine "TEXT" [x.toNat, y.toNat, fp.toNat, sp.toNat, nch.toNat] none

end Sys2Proof
end

