-- ==== Sys2Proof/Machine/State.lean ====
section
/-! DEFINITION. The state of the machine as plain data: the sequencer's registers (R20 to R32), the reference device behind the
transport (R60), and the inputs of the run (parameters, ROM, command stream, busy answers), which no step changes; then how a step
can stop, and the state after reset (R37). -/

namespace Sys2Proof.Machine

/-- A byte space of 65536 addresses as its listed cells: addresses strictly rising, no cell equal to `Config.unlisted`. -/
abbrev Memory := List Host.Cell

/-- The two logical registers of the transport (R17, R50). -/
inductive Reg where
  /-- The Command register, `C`. -/
  | command
  /-- The Data register, `D`. -/
  | data
  deriving DecidableEq, Repr

/-- A transport event (R15): `W(C,b)`, `W(D,b)`, `R(D)=b`, `R(C)=b`, `INIT`, `BUSY=t`. -/
inductive Event where
  | write (r : Reg) (b : Byte)
  | read (r : Reg) (b : Byte)
  | init
  | busy (t : Bool)
  deriving DecidableEq, Repr

/-- The reference device (R60): the spec's model of the display controller. -/
structure Device where
  /-- `MEM`. -/
  mem : Memory
  /-- `DC`, the device cursor. -/
  dc : Word
  /-- `IR`, the last byte written to the Command register, `none` before the first such write. -/
  ir : Option Byte
  /-- `LATCH`, the read latch. -/
  latch : Byte
  deriving DecidableEq, Repr

/-- Whether a command is in progress (R30, R37). A command that ends is in progress only inside its own step, so the one value
beside idle is the wait that never ends (R249). -/
inductive Activity where
  /-- No command is in progress. -/
  | idle
  /-- Inside `WaitBusy` on a device that answers busy for ever, with no poll limit (R249). -/
  | busyWait
  deriving DecidableEq, Repr

/-- The machine. Operand latches and working registers hold no value between commands (R21 to R23) and are not here. -/
structure State where
  /-- The parameters of R9; no step changes them (R29). -/
  par : Params
  /-- The constant-data space (R70); no command writes it (R71). -/
  rom : Memory
  /-- `PROG`, the command stream the host supplies (R27). -/
  prog : List Byte
  /-- The answers of the next `TBusy` polls (R56). -/
  busyAnswers : List Bool
  /-- What every `TBusy` poll after the listed ones answers. -/
  busyRest : Bool
  /-- `CP`, the bytes of the stream consumed (R27). -/
  cp : Nat
  /-- `NDR`, the dummy-read flag (R24). -/
  ndr : Bool
  /-- `CUR`, the cursor shadow (R25). -/
  cur : Word
  /-- `ERR`, the error register (R26). -/
  err : BitVec 3
  /-- `INITED` (R28). -/
  inited : Bool
  /-- `RESP`, the response stream (R32). -/
  resp : List Byte
  /-- Whether the sequencer is idle (R30). -/
  activity : Activity
  /-- The transport trace since reset (R15, R264): the model's own record of what the block shows. -/
  trace : List Event
  /-- The device behind the transport. -/
  dev : Device
  deriving DecidableEq, Repr

/-- Why a run ends as failed: a transport access the reference device gives no meaning (R66, U4). Raised by the device operations of
Machine/Ops.lean when a host misorders the raw primitives (R267). Safe: the machine stops where the hardware might go on. -/
inductive Fault where
  /-- `W(D, v)` while the read command, no command, or a byte the device does not know is selected. Raised by a WRBYTE out of
  order. Safe. -/
  | dataWriteNoMeaning
  /-- `R(D)` while the read command is not selected. Raised by an RDBYTE out of order. Safe. -/
  | dataReadNoMeaning
  /-- `R(C)`. The sequencer never issues it (R53); the device operation that would perform it raises this. Safe. -/
  | commandReadNoMeaning
  deriving DecidableEq, Repr

/-- Why the model does not accept what it is given. -/
inductive Refusal where
  /-- The instruction has no meaning in the model. No arm of exec answers it. Safe. -/
  | notModelled (mnemonic : String)
  /-- The command stream ends inside a command: "a model must refuse such a stream rather than give it a meaning" (R94, U7). Raised
  by the step's fetch. Safe. -/
  | truncatedCommand
  deriving DecidableEq, Repr

/-- A device with nothing written to it yet: `IR` is none (R60). `MEM`, `DC` and `LATCH` are unspecified at power-up (R67): DESIGN
CHOICE, unsafe (assumption 2). -/
def Device.powerUp : Device where
  mem := []
  dc := 0
  ir := none
  latch := 0

/-- The state after reset with the given inputs of the run and the given device, which the sequencer's reset does not touch (R37,
R260, R261). -/
def State.resetWith (par : Params) (rom : Memory) (prog : List Byte) (busyAnswers : List Bool) (busyRest : Bool)
    (dev : Device) : State where
  par := par
  rom := rom
  prog := prog
  busyAnswers := busyAnswers
  busyRest := busyRest
  cp := 0
  ndr := true
  cur := 0
  err := 0
  inited := false
  resp := []
  activity := .idle
  trace := []
  dev := dev

/-- The machine right after reset (R37), with the parameter values of the last column of R9, an empty ROM and an empty command
stream (assumptions 1 to 5). -/
def State.reset : State := State.resetWith Params.reference [] [] [] false Device.powerUp

end Sys2Proof.Machine
end

