-- ==== Sys2Proof/Machine/Flags.lean ====
section
/-! DEFINITION. The block's flags: the error codes of ERR (R26) and how the first error wins, the dummy-read flag NDR (R24), and the
status outputs that show the registers (R30). There are no condition codes (R24). -/

namespace Sys2Proof.Machine

/-- The error taxonomy (R231 to R235). -/
inductive Err where
  /-- BoundsError (R231). -/
  | bounds
  /-- InvalidPatternError (R232). -/
  | invalidPattern
  /-- TimeoutError (R235). -/
  | timeout
  /-- IllegalCommand (R233). -/
  | illegalCommand
  deriving DecidableEq, Repr

/-- The code of an error (R26, R236). -/
def Err.code : Err → BitVec 3
  | .bounds => 1
  | .invalidPattern => 2
  | .timeout => 3
  | .illegalCommand => 4

/-- ERR after an error: written only when it is 0, so the first error stays (R26, R236). -/
def errAfter (old : BitVec 3) (e : Err) : BitVec 3 := if old = 0 then e.code else old

/-- The address-changing operations set NDR (R24, R121). -/
def State.setDummyReadNeeded (s : State) : State := { s with ndr := true }

/-- The one discard read clears NDR (R24, R123). -/
def State.clearDummyReadNeeded (s : State) : State := { s with ndr := false }

/-- The status outputs (R30). -/
structure Status where
  errCode : BitVec 3
  idle : Bool
  ndr : Bool
  inited : Bool
  cur : Word
  deriving DecidableEq, Repr

/-- What the block drives on its status outputs; reading them changes nothing (R30). -/
def State.status (s : State) : Status where
  errCode := s.err
  idle := decide (s.activity = .idle)
  ndr := s.ndr
  inited := s.inited
  cur := s.cur

end Sys2Proof.Machine
end

