-- ==== Sys2Proof/Machine/Operands.lean ====
section
/-! DEFINITION. What the commands compute from their operands before they touch the transport: the address function and the byte
masks (R11, R16), the pattern byte of a colour (R150), and the pre-checks on coordinates, extents and patterns (R231, R232). -/

namespace Sys2Proof.Machine

/-- `Addr(x, y)`: the device address of the row-byte that holds pixel `(x, y)`, mod 65536 (R16). It does not fail off the surface. -/
def addr (x y : Nat) : Word := BitVec.ofNat 16 (Config.SURF_BASE + Config.BPR * y + x / 8)

/-- `mask(off, n)`: the byte with bits `off` to `off + n - 1` set (R11). -/
def mask (off n : Nat) : Byte := BitVec.ofNat 8 (((1 <<< n) - 1) <<< off)

/-- `Solid(c)`: 0xFF for black, 0x00 for white (R150). -/
def solid : Colour → Byte
  | .black => 0xFF
  | .white => 0x00

/-- The other colour: `1 - c` (R158). -/
def oppositeColour : Colour → Colour
  | .white => .black
  | .black => .white

/-! ## What must hold of the operands (R231, R232); sums and products are exact -/

/-- PIXCLR, PIXSET: `x < W` and `y < H`. -/
def pixelFits (x y : Nat) : Bool := decide (x < Config.W) && decide (y < Config.H)

/-- HLINE: `x + len <= W` and `y < H`. -/
def hlineFits (x y len : Nat) : Bool := decide (x + len ≤ Config.W) && decide (y < Config.H)

/-- VLINE: `x < W` and `y + len <= H`. -/
def vlineFits (x y len : Nat) : Bool := decide (x < Config.W) && decide (y + len ≤ Config.H)

/-- LINE: both end points on the surface. -/
def lineFits (x0 y0 x1 y1 : Nat) : Bool := pixelFits x0 y0 && pixelFits x1 y1

/-- RECT, FILLRECT, PATFILL: `x + w <= W` and `y + h <= H`. -/
def rectFits (x y w h : Nat) : Bool := decide (x + w ≤ Config.W) && decide (y + h ≤ Config.H)

/-- TEXT: `x + nch * GW <= W` and `y + GH <= H`. -/
def textFits (x y nch gw gh : Nat) : Bool := rectFits x y (nch * gw) gh

/-- A conforming pattern row mask: `(m + 1) & m = 0`, the sum exact (R73, R232). -/
def patternConforms (m : Nat) : Bool := (m + 1) &&& m == 0

end Sys2Proof.Machine
end

