-- ==== Sys2Proof/Machine/Ops.lean ====
section
/-! DEFINITION. The named operations every command is built from: memory, the reference device, the transport with its busy-wait, the
helper procedures of R121 to R126, raising an error and the reset input, and the frame of a command (R96, R236). -/

namespace Sys2Proof.Machine

/-! ## Memory -/

/-- The byte at a listed address, or what an unlisted address reads as. -/
def Memory.readAt : Memory → Nat → Byte
  | [], _ => Config.unlisted
  | c :: m, a => if c.1 = a then c.2 else Memory.readAt m a

/-- `MemRead(a, 1)` (R14). -/
def Memory.read (m : Memory) (a : Word) : Byte := Memory.readAt m a.toNat

/-- A cell put before the first cell with a larger address. -/
def Memory.insertCell (c : Host.Cell) : Memory → Memory
  | [] => [c]
  | d :: m => if c.1 < d.1 then c :: d :: m else d :: Memory.insertCell c m

/-- Writing a byte at an address: the canonical form is kept. -/
def Memory.writeAt (m : Memory) (a : Nat) (v : Byte) : Memory :=
  let others := m.filter (fun c => c.1 != a)
  if v = Config.unlisted then others else Memory.insertCell (a, v) others

/-- `MemWrite(a, 1, v)` (R14). -/
def Memory.write (m : Memory) (a : Word) (v : Byte) : Memory := Memory.writeAt m a.toNat v

/-- The canonical form: addresses strictly rising and below 65536, no cell equal to what an unlisted address reads as. -/
def Memory.wf (m : Memory) : Bool :=
  decide (m.Pairwise (fun c d => c.1 < d.1)) && m.all (fun c => decide (c.1 < 65536) && decide (c.2 ≠ Config.unlisted))

/-- `RomRead(a)`: no side effect, no transport event (R14, R70). -/
def romRead (rom : Memory) (a : Word) : Byte := Memory.read rom a

/-! ## The reference device (R60 to R67) -/

/-- The bit a bit command names: `v mod 8` (R64). -/
def bitOf (v : Byte) : Byte := (1 : Byte) <<< (v.toNat % 8)

/-- A byte stored at the device cursor, which then advances mod 65536 (R63, R64). -/
def Device.store (d : Device) (v : Byte) : Device := { d with mem := d.mem.write d.dc v, dc := d.dc + 1 }

/-- `W(D, v)` while device command `k` is selected (R62, R63, R64, R66). A command byte of MODE_SETUP that is none of the five
above it changes nothing here (assumption 7); any other selection has no meaning. -/
def Device.writeData (p : Params) (d : Device) (k : Byte) (v : Byte) : Option Device :=
  if k = p.cmdCurLo then some { d with dc := le16 v (hi8 d.dc) }
  else if k = p.cmdCurHi then some { d with dc := le16 (lo8 d.dc) v }
  else if k = p.cmdWrite then some (d.store v)
  else if k = p.cmdBitSet then some (d.store (d.mem.read d.dc ||| bitOf v))
  else if k = p.cmdBitClr then some (d.store (d.mem.read d.dc &&& ~~~ bitOf v))
  else if k ∈ p.modeSetup.map Prod.fst then some d
  else none

/-- A write transaction at the device (R61, R62 to R64, R66); `none` where the reference device gives it no meaning. -/
def Device.write (p : Params) (d : Device) (r : Reg) (v : Byte) : Option Device :=
  match r with
  | .command => some { d with ir := some v }
  | .data =>
    match d.ir with
    | none => none
    | some k => d.writeData p k v

/-- A read transaction at the device (R65): the latch is returned, then reloaded at the cursor, which advances; `none` for `R(C)` and
for `R(D)` while the read command is not selected (R66). -/
def Device.read (p : Params) (d : Device) (r : Reg) : Option (Byte × Device) :=
  match r with
  | .command => none
  | .data =>
    if d.ir = some p.cmdRead then some (d.latch, { d with latch := d.mem.read d.dc, dc := d.dc + 1 })
    else none

/-! ## Sequences of transport events -/

/-- Why a command does not run to its end. -/
inductive Halt where
  /-- An error raised while the command executes (R235). -/
  | raise (e : Err)
  /-- The wait that never ends (R249). -/
  | hang
  /-- A transport access without meaning (R66). -/
  | fault (f : Fault)
  deriving DecidableEq, Repr

/-- What a piece of a command comes to: done with a value, or stopped; in the state reached. -/
inductive Run (α : Type) where
  | done (a : α) (s : State)
  | stopped (h : Halt) (s : State)
  deriving DecidableEq, Repr

/-- A piece of a command. -/
abbrev Seq (α : Type) := State → Run α

/-- A piece, and then one that uses its value; a stop ends both. -/
def andThen {α β : Type} (m : Seq α) (f : α → Seq β) : Seq β := fun s =>
  match m s with
  | .done a t => f a t
  | .stopped h t => .stopped h t

/-- Nothing but a value. -/
def yield {α : Type} (a : α) : Seq α := fun s => .done a s

/-- Nothing. -/
def skip : Seq Unit := yield ()

/-- Pieces one after another. -/
def inOrder : List (Seq Unit) → Seq Unit
  | [] => skip
  | m :: ms => andThen m (fun _ => inOrder ms)

/-- A transport event has happened (R15). -/
def State.emit (s : State) (e : Event) : State := { s with trace := s.trace ++ [e] }

/-- How a busy-wait ends. -/
inductive PollEnd where
  | ready
  | timedOut
  | hung
  deriving DecidableEq, Repr

/-- A busy-wait: the answers polled, in order, the listed answers left, and how it ends. -/
structure Poll where
  polled : List Bool
  left : List Bool
  how : PollEnd
  deriving DecidableEq, Repr

/-- The loop of `WaitBusy` (R56) after `polls` busy answers: `answers` are the listed answers to come, `rest` every answer after
them. Where `rest` is busy and no limit stops the loop it never ends; the polls of that endless tail are left to the step. -/
def pollBusy (limit : Option Nat) (rest : Bool) (polls : Nat) : List Bool → Poll
  | [] =>
    if rest then
      match limit with
      | none => ⟨[], [], .hung⟩
      | some n => if polls < n then ⟨List.replicate (n - polls) true, [], .timedOut⟩ else ⟨[], [], .hung⟩
    else ⟨[false], [], .ready⟩
  | false :: as => ⟨[false], as, .ready⟩
  | true :: as =>
    if limit = some (polls + 1) then ⟨[true], as, .timedOut⟩
    else
      let p := pollBusy limit rest (polls + 1) as
      ⟨true :: p.polled, p.left, p.how⟩

/-- `WaitBusy()`: nothing when WAIT_BUSY is false (R56). -/
def waitBusy : Seq Unit := fun s =>
  if s.par.waitBusy then
    let p := pollBusy s.par.busyPollLimit s.busyRest 0 s.busyAnswers
    let s' := { s with busyAnswers := p.left, trace := s.trace ++ p.polled.map Event.busy }
    match p.how with
    | .ready => .done () s'
    | .timedOut => .stopped (.raise .timeout) s'
    | .hung => .stopped .hang s'
  else .done () s

/-- The write transaction itself: its event, and its effect on the device (R13, R51). -/
def writeTransaction (r : Reg) (b : Byte) : Seq Unit := fun s =>
  match s.dev.write s.par r b with
  | some d => .done () { s.emit (.write r b) with dev := d }
  | none => .stopped (.fault .dataWriteNoMeaning) (s.emit (.write r b))

/-- The fault of a read transaction that has no meaning (R66). -/
def readFault : Reg → Fault
  | .data => .dataReadNoMeaning
  | .command => .commandReadNoMeaning

/-- The read transaction itself (R13, R51). -/
def readTransaction (r : Reg) : Seq Byte := fun s =>
  match s.dev.read s.par r with
  | some (v, d) => .done v { s.emit (.read r v) with dev := d }
  | none => .stopped (.fault (readFault r)) s

/-- `TInit()` changes nothing in the reference device (R67). -/
def initTransaction : Seq Unit := fun s => .done () (s.emit .init)

/-- `TW(reg, b)` (R13): every write passes through the busy-wait first (R56). -/
def tw (r : Reg) (b : Byte) : Seq Unit := andThen waitBusy (fun _ => writeTransaction r b)

/-- `TR(reg)` (R13, R56). -/
def tr (r : Reg) : Seq Byte := andThen waitBusy (fun _ => readTransaction r)

/-- `TInit()` (R13, R52, R56). -/
def tInit : Seq Unit := andThen waitBusy (fun _ => initTransaction)

/-- A change of the sequencer's own registers; no transport event. -/
def update (f : State → State) : Seq Unit := fun s => .done () (f s)

/-- `TW(C, k)` for a device command `k` of the parameters. -/
def select (k : Params → Byte) : Seq Unit := fun s => tw .command (k s.par) s

/-! ## The helper procedures of R121 to R126 -/

/-- `SetCursorAddress(v)` (R121): low byte, high byte, then CUR and NDR. -/
def setCursorAddress (v : Word) : Seq Unit :=
  inOrder [
    select Params.cmdCurLo,
    tw .data (lo8 v),
    select Params.cmdCurHi,
    tw .data (hi8 v),
    update (fun s => { s with cur := v }),
    update State.setDummyReadNeeded]

/-- `BeginWrite()` (R122). -/
def beginWrite : Seq Unit := select Params.cmdWrite

/-- `WriteData(b)` (R122). -/
def writeData (b : Byte) : Seq Unit := tw .data b

/-- The dummy read: a selection of the read command and one read whose byte is discarded; then NDR is cleared (R123). -/
def dummyRead : Seq Unit :=
  inOrder [
    select Params.cmdRead,
    andThen (tr .data) (fun _ => skip),
    update State.clearDummyReadNeeded]

/-- The dummy read is made when NDR is 1 (R123). -/
def dummyReadIfNeeded : Seq Unit := fun s => if s.ndr then dummyRead s else skip s

/-- `BeginRead()` (R123): the dummy read if NDR is 1, then the real begin-read command. -/
def beginRead : Seq Unit := inOrder [dummyReadIfNeeded, select Params.cmdRead]

/-- `ReadData()` (R123). -/
def readData : Seq Byte := tr .data

/-- The device command of a bit operation (R124). -/
def bitOpCommand : Colour → Params → Byte
  | .black => Params.cmdBitSet
  | .white => Params.cmdBitClr

/-- `BitOp(k, c)` (R124). -/
def bitOp (k : Byte) (c : Colour) : Seq Unit := inOrder [select (bitOpCommand c), tw .data k]

/-- `Pixel(px, py, c)` (R125). -/
def pixel (px py : Nat) (c : Colour) : Seq Unit :=
  inOrder [setCursorAddress (addr px py), bitOp (BitVec.ofNat 8 (px % 8)) c]

/-- The merge of a read-mask-merge-write: `(v & msk) | (current & ~msk)` (R126). -/
def merge (msk v current : Byte) : Byte := (v &&& msk) ||| (current &&& ~~~ msk)

/-- The reading half of a read-mask-merge-write, which yields the current byte at `p` (R126); also the head of a text row (R205). -/
def readByteAt (p : Word) : Seq Byte := andThen (inOrder [setCursorAddress p, beginRead]) (fun _ => readData)

/-- `RMW(p, msk, v)` (R126). The second set-cursor puts the device cursor back to `p` after the reads. -/
def rmw (p : Word) (msk v : Byte) : Seq Unit :=
  andThen (readByteAt p) (fun current => inOrder [setCursorAddress p, beginWrite, writeData (merge msk v current)])

/-- `repeat n times: WriteData(p)` (R151). -/
def writeRepeated : Nat → Byte → Seq Unit
  | 0, _ => skip
  | n + 1, p => inOrder [writeData p, writeRepeated n p]

/-- The loop `for K from k to k + n - 1, in increasing order` of R155, R183, R185, R205. -/
def forRows (body : Nat → Seq Unit) (k : Nat) : Nat → Seq Unit
  | 0 => skip
  | n + 1 => inOrder [body k, forRows body (k + 1) n]

/-! ## Errors and reset -/

/-- `raise E` (R236): ERR takes the code if no error stands, the command is left behind (`CP <- CP + L`), the sequencer is idle in the
fault state, and every other register keeps its value. Nothing is saved and control goes nowhere: there is no handler, and no return
but reset (R239). -/
def State.raise (e : Err) (len : Nat) (s : State) : State :=
  { s with err := errAfter s.err e, cp := s.cp + len, activity := .idle }

/-- The reset input (R260, R261): the registers take the values of R37, a command in progress is abandoned without a further event,
and the device, the ROM, the parameters and the stream are not touched. The trace is the new run's. -/
def State.applyReset (s : State) : State :=
  State.resetWith s.par s.rom s.prog s.busyAnswers s.busyRest s.dev

/-! ## The frame of a command (R96, R236) -/

/-- The first error whose condition does not hold, in the order given (R234). -/
def firstError : List (Bool × Err) → Option Err
  | [] => none
  | (holds, e) :: checks => if holds then firstError checks else some e

/-- The checks that are made only when STRICT is true (R231, R232, R240). -/
def strictChecks (s : State) (checks : List (Bool × Err)) : List (Bool × Err) := if s.par.strict then checks else []

/-- The check made whatever STRICT is, on the reserved bits of a bit index (R95 (b), R233 (d)). -/
def bitIndexChecks (n : Byte) : List (Bool × Err) := [(decide (bitIndexLegal n), .illegalCommand)]

/-- What becomes of a command of `len` bytes whose events have been run: done (`CP <- CP + L`, R27), raised (R236), hung (R249), or a
fault of the run (R66). -/
def endCommand (len : Nat) : Run Unit → Host.Outcome State Fault Refusal
  | .done _ s => .next { s with cp := s.cp + len, activity := .idle }
  | .stopped (.raise e) s => .next (s.raise e len)
  | .stopped .hang s => .next { s with activity := .busyWait }
  | .stopped (.fault f) _ => .fault f

/-- Executing a decoded command of `len` bytes (R96): the initialisation state (`isInit` tells INIT from the others, R28, R233), then
its checks in order, all before the first event; then its events. -/
def runCommand (len : Nat) (isInit : Bool) (checks : List (Bool × Err)) (events : Seq Unit) (s : State) :
    Host.Outcome State Fault Refusal :=
  if isInit = s.inited then .next (s.raise .illegalCommand len)
  else
    match firstError checks with
    | some e => .next (s.raise e len)
    | none => endCommand len (events s)

end Sys2Proof.Machine
end

