-- ==== Sys2Proof/Machine/Lines.lean ====
section
/-! DEFINITION. The line commands HLINE, VLINE and LINE (R150 to R166). -/

namespace Sys2Proof.Machine

/-! ## Horizontal line (R151) -/

/-- The whole bytes of a horizontal line at byte address `a`: streamed, in the head's open write stream when there was a head, else
after positioning the cursor; nothing when there is no whole byte (R151). -/
def hLineBody (a : Word) (full : Nat) (p : Byte) (streaming : Bool) : Seq Unit :=
  if full = 0 then skip
  else if streaming then writeRepeated full p
  else inOrder [setCursorAddress a, beginWrite, writeRepeated full p]

/-- The partial last byte of a horizontal line (R151). -/
def hLineTail (a : Word) (rem : Nat) (p : Byte) : Seq Unit :=
  if rem = 0 then skip else rmw a (mask 0 rem) p

/-- A horizontal line of `len` pixels from the first bit of byte address `a` on: body, then tail (R151). -/
def hLineFrom (a : Word) (len : Nat) (p : Byte) (streaming : Bool) : Seq Unit :=
  inOrder [hLineBody a (len / 8) p streaming, hLineTail (a + BitVec.ofNat 16 (len / 8)) (len % 8) p]

/-- `HLine(x, y, len, p)` (R151). The pattern byte is not shifted: its bit `k` lands on pixels whose `x mod 8 = k`. -/
def hLine (x y len : Nat) (p : Byte) : Seq Unit :=
  if len = 0 then skip
  else if x % 8 = 0 then hLineFrom (addr x y) len p false
  else
    inOrder [
      rmw (addr x y) (mask (x % 8) (min len (8 - x % 8))) p,
      hLineFrom (addr x y + 1) (len - min len (8 - x % 8)) p true]

/-! ## Vertical line (R155) -/

/-- `VLine(x, y, len, c)`: top to bottom, one `Pixel` a row (R155). -/
def vLine (x y len : Nat) (c : Colour) : Seq Unit := forRows (fun k => pixel x (y + k) c) 0 len

/-! ## Generic line (R158 to R164) -/

/-- One y step in the direction `SY`: +1, or -1 when the line rises (R162). A rising line never steps from row 0 (R163 (c)). -/
def stepY (rising : Bool) (py : Nat) : Nat := if rising then py - 1 else py + 1

/-- The points of the Bresenham stepper from `(px, py)` on with error term `err`, in the order they are plotted (R162): the point is
plotted, the end test stands between the plot and the step, and both tests use the error sampled before either. `fuel` bounds the
number of points. -/
def stepperPoints (x1 y1 dx dy : Nat) (rising : Bool) : (fuel : Nat) → (px py : Nat) → (err : Int) → List (Nat × Nat)
  | 0, _, _, _ => []
  | fuel + 1, px, py, err =>
    if px = x1 ∧ py = y1 then [(px, py)]
    else
      let e2 := 2 * err
      let xStep : Bool := decide (-e2 ≤ (dy : Int))
      let yStep : Bool := decide (e2 ≤ (dx : Int))
      let err1 := if xStep then err - (dy : Int) else err
      let err2 := if yStep then err1 + (dx : Int) else err1
      (px, py) :: stepperPoints x1 y1 dx dy rising fuel (if xStep then px + 1 else px) (if yStep then stepY rising py else py) err2

/-- The points of `Stepper(x0, y0, x1, y1, DX, DY, c)` (R162). Each iteration advances `PX` or `PY` (R163 (d)), so `DX + DY + 1`
points are always enough. -/
def linePoints (x0 y0 x1 y1 : Nat) : List (Nat × Nat) :=
  let dx := x1 - x0
  let dy := (y1 - y0) + (y0 - y1)
  stepperPoints x1 y1 dx dy (decide (y1 < y0)) (dx + dy + 1) x0 y0 ((dx : Int) - (dy : Int))

/-- `Pixel` at each point, in order (R162). -/
def drawPoints (c : Colour) : List (Nat × Nat) → Seq Unit
  | [] => skip
  | (px, py) :: rest => inOrder [pixel px py c, drawPoints c rest]

/-- The colour a vertical LINE draws in: `LINE_DX0_INVERT` (R158, R164). -/
def verticalColour (invert : Bool) (c : Colour) : Colour := if invert then oppositeColour c else c

/-- The vertical delegation of LINE (R158, R161): both end points covered, whichever is on top, in the colour R164 says. -/
def verticalLine (x y0 y1 : Nat) (c : Colour) : Seq Unit := fun s =>
  vLine x (min y0 y1) ((y1 - y0) + (y0 - y1) + 1) (verticalColour s.par.lineDx0Invert c) s

/-- LINE from `(x0, y0)` to `(x1, y1)` with `x0 <= x1` (R158, R161): horizontal, vertical, or the stepper, both end points drawn. -/
def canonicalLine (x0 y0 x1 y1 : Nat) (c : Colour) : Seq Unit :=
  if y0 = y1 then hLine x0 y0 (x1 - x0 + 1) (solid c)
  else if x0 = x1 then verticalLine x0 y0 y1 c
  else drawPoints c (linePoints x0 y0 x1 y1)

/-- The events of LINE: the end points are exchanged when `x0 > x1` (R158, R160). -/
def lineEvents (x0 y0 x1 y1 : Nat) (c : Colour) : Seq Unit :=
  if x1 < x0 then canonicalLine x1 y1 x0 y0 c else canonicalLine x0 y0 x1 y1 c

/-! ## Commands -/

/-- HLINE `x, y, len, pat` (R153). -/
def execHline (x y len pat : Byte) (s : State) : Host.Outcome State Fault Refusal :=
  runCommand 5 false (strictChecks s [(hlineFits x.toNat y.toNat len.toNat, .bounds)]) (hLine x.toNat y.toNat len.toNat pat) s

/-- VLINE `x, y, len` in colour `c` (R156). -/
def execVline (c : Colour) (x y len : Byte) (s : State) : Host.Outcome State Fault Refusal :=
  runCommand 4 false (strictChecks s [(vlineFits x.toNat y.toNat len.toNat, .bounds)]) (vLine x.toNat y.toNat len.toNat c) s

/-- LINE `x0, y0, x1, y1` in colour `c` (R158). -/
def execLine (c : Colour) (x0 y0 x1 y1 : Byte) (s : State) : Host.Outcome State Fault Refusal :=
  runCommand 5 false (strictChecks s [(lineFits x0.toNat y0.toNat x1.toNat y1.toNat, .bounds)])
    (lineEvents x0.toNat y0.toNat x1.toNat y1.toNat c) s

end Sys2Proof.Machine
end

