-- ==== Sys2Proof/Machine/Primitives.lean ====
section
/-! DEFINITION. INIT, the cursor command, the raw stream commands, the single-bit commands and the single-pixel commands (R127 to
R136). -/

namespace Sys2Proof.Machine

/-- The mode-setup list, in list order: `TW(C, k)`, `TW(D, d)` for each pair (R127). -/
def sendModeSetup : List (Byte × Byte) → Seq Unit
  | [] => skip
  | (k, d) :: rest => inOrder [tw .command k, tw .data d, sendModeSetup rest]

/-- The mode-setup list of the parameters (R127). -/
def modeSetup : Seq Unit := fun s => sendModeSetup s.par.modeSetup s

/-- The events of INIT and its two register writes (R127). -/
def initEvents : Seq Unit :=
  inOrder [
    tInit,
    modeSetup,
    update State.setDummyReadNeeded,
    update (fun s => { s with inited := true })]

/-- `Resp(b)` (R14, R32). -/
def respond (b : Byte) : Seq Unit := update (fun s => { s with resp := s.resp ++ [b] })

/-- The events of RDBYTE (R132). -/
def readByteEvents : Seq Unit := andThen readData respond

/-- INIT (R127). -/
def execInit (s : State) : Host.Outcome State Fault Refusal := runCommand 1 true [] initEvents s

/-- SETCUR `a`: no bounds check, the operand is a device address (R128). -/
def execSetcur (a : Word) (s : State) : Host.Outcome State Fault Refusal := runCommand 3 false [] (setCursorAddress a) s

/-- WRBEGIN (R129). -/
def execWrbegin (s : State) : Host.Outcome State Fault Refusal := runCommand 1 false [] beginWrite s

/-- WRBYTE `b`: the byte goes to whatever device command is selected (R130, R267). -/
def execWrbyte (b : Byte) (s : State) : Host.Outcome State Fault Refusal := runCommand 2 false [] (writeData b) s

/-- RDBEGIN (R131). -/
def execRdbegin (s : State) : Host.Outcome State Fault Refusal := runCommand 1 false [] beginRead s

/-- RDBYTE (R132). -/
def execRdbyte (s : State) : Host.Outcome State Fault Refusal := runCommand 1 false [] readByteEvents s

/-- BITCLR `n`, at the device cursor (R133). -/
def execBitclr (n : Byte) (s : State) : Host.Outcome State Fault Refusal :=
  runCommand 2 false (bitIndexChecks n) (bitOp n .white) s

/-- BITSET `n`, at the device cursor (R134). -/
def execBitset (n : Byte) (s : State) : Host.Outcome State Fault Refusal :=
  runCommand 2 false (bitIndexChecks n) (bitOp n .black) s

/-- PIXCLR `x, y` (R135). -/
def execPixclr (x y : Byte) (s : State) : Host.Outcome State Fault Refusal :=
  runCommand 3 false (strictChecks s [(pixelFits x.toNat y.toNat, .bounds)]) (pixel x.toNat y.toNat .white) s

/-- PIXSET `x, y` (R136). -/
def execPixset (x y : Byte) (s : State) : Host.Outcome State Fault Refusal :=
  runCommand 3 false (strictChecks s [(pixelFits x.toNat y.toNat, .bounds)]) (pixel x.toNat y.toNat .black) s

end Sys2Proof.Machine
end

