-- ==== Sys2Proof/Machine/Rects.lean ====
section
/-! DEFINITION. The rectangle outline, the solid fill and the pattern fill (R180 to R186). -/

namespace Sys2Proof.Machine

/-- A piece of a command that is run only under a condition. -/
def onlyIf (b : Bool) (m : Seq Unit) : Seq Unit := if b then m else skip

/-- The events of RECT (R181): top, bottom, left, right; the verticals trimmed at both ends, drawn with `VLine` in the colour asked
for. -/
def rectEvents (x y w h : Nat) (c : Colour) : Seq Unit :=
  if w = 0 ∨ h = 0 then skip
  else
    inOrder [
      hLine x y w (solid c),
      onlyIf (decide (2 ≤ h)) (hLine x (y + h - 1) w (solid c)),
      onlyIf (decide (3 ≤ h)) (vLine x (y + 1) (h - 2) c),
      onlyIf (decide (3 ≤ h) && decide (2 ≤ w)) (vLine (x + w - 1) (y + 1) (h - 2) c)]

/-- The events of FILLRECT (R183): one `HLine` a row, by count, rows not reduced to 8 bits (R184). -/
def fillEvents (x y w h : Nat) (c : Colour) : Seq Unit := forRows (fun k => hLine x (y + k) w (solid c)) 0 h

/-- The row mask `PM` of the pattern blob at `pp` (R72, R185). -/
def patternMask (rom : Memory) (pp : Word) : Nat := (romRead rom pp).toNat

/-- The pattern byte of absolute row `i`: tile row `i & PM` (R72, R185). -/
def patternByte (rom : Memory) (pp : Word) (i : Nat) : Byte :=
  romRead rom (pp + 1 + BitVec.ofNat 16 (i &&& patternMask rom pp))

/-- The events of PATFILL (R185), the pattern row chosen by the absolute row. -/
def patFillEvents (rom : Memory) (x y w h : Nat) (pp : Word) : Seq Unit :=
  forRows (fun k => hLine x (y + k) w (patternByte rom pp (y + k))) 0 h

/-- RECT `x, y, w, h` in colour `c` (R181). -/
def execRect (c : Colour) (x y w h : Byte) (s : State) : Host.Outcome State Fault Refusal :=
  runCommand 5 false (strictChecks s [(rectFits x.toNat y.toNat w.toNat h.toNat, .bounds)])
    (rectEvents x.toNat y.toNat w.toNat h.toNat c) s

/-- FILLRECT `x, y, w, h` in colour `c` (R183). -/
def execFillrect (c : Colour) (x y w h : Byte) (s : State) : Host.Outcome State Fault Refusal :=
  runCommand 5 false (strictChecks s [(rectFits x.toNat y.toNat w.toNat h.toNat, .bounds)])
    (fillEvents x.toNat y.toNat w.toNat h.toNat c) s

/-- PATFILL `x, y, w, h, pp` (R185): the bounds check comes before the pattern check (R232, R234). -/
def execPatfill (x y w h : Byte) (pp : Word) (s : State) : Host.Outcome State Fault Refusal :=
  runCommand 7 false
    (strictChecks s
      [(rectFits x.toNat y.toNat w.toNat h.toNat, .bounds), (patternConforms (patternMask s.rom pp), .invalidPattern)])
    (patFillEvents s.rom x.toNat y.toNat w.toNat h.toNat pp) s

end Sys2Proof.Machine
end

