-- ==== Sys2Proof/Machine/Text.lean ====
section
/-! DEFINITION. The text blitter (R200 to R210): the font header, the bits of a glyph row as chunks, the accumulator, and one display
row at a time across the string. -/

namespace Sys2Proof.Machine

/-! ## The font and the string (R74 to R77) -/

/-- `GW = RomRead(fp)` (R74). -/
def glyphWidth (rom : Memory) (fp : Word) : Nat := (romRead rom fp).toNat

/-- `GH = RomRead(fp + 1)` (R74). -/
def glyphHeight (rom : Memory) (fp : Word) : Nat := (romRead rom (fp + 1)).toNat

/-- `BPG`, the bytes of one glyph: narrow one byte a row (R75), wide the whole bit stream (R76). -/
def bytesPerGlyph (gw gh : Nat) : Nat := if gw ≤ 8 then gh else (gw * gh + 7) / 8

/-- The glyph index of character `j` of the string at `sp`: `(ch - 0x20) mod 256` (R74, R77). -/
def glyphIndex (rom : Memory) (sp : Word) (j : Nat) : Nat := (romRead rom (sp + BitVec.ofNat 16 j) - 0x20).toNat

/-- Where glyph `g` starts: `fp + 2 + g * BPG`, mod 65536 (R74, R205). -/
def glyphBase (fp : Word) (gw gh g : Nat) : Word := fp + 2 + BitVec.ofNat 16 (g * bytesPerGlyph gw gh)

/-! ## The chunks of a glyph row (R202) -/

/-- `n` whole bytes from byte `bi` of the glyph on. -/
def wholeChunks (rom : Memory) (base : Word) (bi : Nat) : Nat → List (Byte × Nat)
  | 0 => []
  | n + 1 => (romRead rom (base + BitVec.ofNat 16 bi), 8) :: wholeChunks rom base (bi + 1) n

/-- A masked partial last chunk of `left` bits, none when `left = 0`. -/
def lastChunk (rom : Memory) (base : Word) (bi left : Nat) : List (Byte × Nat) :=
  if left = 0 then [] else [(romRead rom (base + BitVec.ofNat 16 bi), left)]

/-- The wide strategy: a first byte shifted by the intra-byte offset of the row, whole interior bytes, a partial last chunk. -/
def wideChunks (rom : Memory) (base : Word) (gw r : Nat) : List (Byte × Nat) :=
  let o := r * gw % 8
  let bi := r * gw / 8
  let left := gw - (8 - o)
  (romRead rom (base + BitVec.ofNat 16 bi) >>> o, 8 - o) :: wholeChunks rom base (bi + 1) (left / 8)
    ++ lastChunk rom base (bi + 1 + left / 8) (left % 8)

/-- `GlyphRowChunks(g, R)`: the bits of row `r` of glyph `g`, column 0 first, as chunks of 1 to 8 bits (R202). -/
def glyphRowChunks (rom : Memory) (fp : Word) (gw gh g r : Nat) : List (Byte × Nat) :=
  if gw ≤ 8 then [(romRead rom (glyphBase fp gw gh g + BitVec.ofNat 16 r), gw)]
  else wideChunks rom (glyphBase fp gw gh g) gw r

/-- The chunks of row `r` of `n` characters from character `j` on, left to right (R205). -/
def stringRowChunks (rom : Memory) (fp sp : Word) (gw gh r j : Nat) : Nat → List (Byte × Nat)
  | 0 => []
  | n + 1 => glyphRowChunks rom fp gw gh (glyphIndex rom sp j) r ++ stringRowChunks rom fp sp gw gh r (j + 1) n

/-! ## The accumulator (R203) -/

/-- The working registers of a row: the byte address `A`, the accumulator `ACC`, the pending bits `PEND` (R22). -/
structure Packer where
  a : Word
  acc : BitVec 16
  pend : Nat
  deriving DecidableEq, Repr

/-- `ACC | ((value & mask(0, nb)) << PEND)` (R203). -/
def foldedAcc (k : Packer) (value : Byte) (nb : Nat) : BitVec 16 :=
  k.acc ||| ((value &&& mask 0 nb).setWidth 16 <<< k.pend)

/-- `Fold(value, nb)` (R203). With at most 7 bits pending and at most 8 folded in, the loop body runs at most once. -/
def fold (k : Packer) (value : Byte) (nb : Nat) : Seq Packer :=
  if 8 ≤ k.pend + nb then
    andThen (writeData ((foldedAcc k value nb).extractLsb' 0 8))
      (fun _ => yield ⟨k.a + 1, foldedAcc k value nb >>> 8, k.pend + nb - 8⟩)
  else yield ⟨k.a, foldedAcc k value nb, k.pend + nb⟩

/-- `Fold` of each chunk, in order (R205). -/
def foldChunks : List (Byte × Nat) → Packer → Seq Packer
  | [], k => yield k
  | (value, nb) :: rest, k => andThen (fold k value nb) (foldChunks rest)

/-! ## One display row (R205) -/

/-- The head: an unaligned row pre-seeds the accumulator with the background bits left of the text start (R205). -/
def textHead (a : Word) (off : Nat) : Seq Packer :=
  if off = 0 then yield ⟨a, 0, 0⟩
  else andThen (readByteAt a) (fun current => yield ⟨a, (current &&& mask 0 off).setWidth 16, off⟩)

/-- The tail: the pending bits are merged with the background to their right (R205). -/
def textTail (k : Packer) : Seq Unit :=
  if k.pend = 0 then skip else rmw k.a (mask 0 k.pend) (k.acc.extractLsb' 0 8)

/-- One display row of the narrow and wide strategies: head, set cursor, begin write, the folded chunks, tail (R205). -/
def textRow (a : Word) (off : Nat) (chunks : List (Byte × Nat)) : Seq Unit :=
  andThen (textHead a off) (fun k =>
    inOrder [setCursorAddress a, beginWrite, andThen (foldChunks chunks k) textTail])

/-- The row bytes of `n` characters of an 8-wide font, streamed one data write each (R201). -/
def writeRowBytes (rom : Memory) (fp sp : Word) (gw gh r j : Nat) : Nat → Seq Unit
  | 0 => skip
  | n + 1 =>
    inOrder [
      writeData (romRead rom (glyphBase fp gw gh (glyphIndex rom sp j) + BitVec.ofNat 16 r)),
      writeRowBytes rom fp sp gw gh r (j + 1) n]

/-- One display row of the byte-aligned fast path: set cursor, begin write, one data write per character (R201). -/
def fastTextRow (rom : Memory) (fp sp : Word) (gw gh r nch : Nat) (a : Word) : Seq Unit :=
  inOrder [setCursorAddress a, beginWrite, writeRowBytes rom fp sp gw gh r 0 nch]

/-- The fast path applies to an 8 by 16 font at a byte-aligned `x`, when compiled in (R201). -/
def fastPathApplies (compiledIn : Bool) (gw gh x : Nat) : Bool :=
  compiledIn && decide (gw = 8) && decide (gh = 16) && decide (x % 8 = 0)

/-- The events of TEXT (R205): nothing for an empty string or an empty glyph, else one display row after another. -/
def textEvents (rom : Memory) (fast : Bool) (x y : Nat) (fp sp : Word) (nch : Nat) : Seq Unit :=
  let gw := glyphWidth rom fp
  let gh := glyphHeight rom fp
  if nch = 0 ∨ gw = 0 ∨ gh = 0 then skip
  else if fastPathApplies fast gw gh x then forRows (fun r => fastTextRow rom fp sp gw gh r nch (addr x (y + r))) 0 gh
  else forRows (fun r => textRow (addr x (y + r)) (x % 8) (stringRowChunks rom fp sp gw gh r 0 nch)) 0 gh

/-- TEXT `x, y, fp, sp, nch` (R205). -/
def execText (x y : Byte) (fp sp : Word) (nch : Byte) (s : State) : Host.Outcome State Fault Refusal :=
  runCommand 8 false
    (strictChecks s
      [(textFits x.toNat y.toNat nch.toNat (glyphWidth s.rom fp) (glyphHeight s.rom fp), .bounds)])
    (textEvents s.rom s.par.fastPath8x16 x.toNat y.toNat fp sp nch.toNat) s

end Sys2Proof.Machine
end

