-- ==== Sys2Proof/Machine/Dispatch.lean ====
section
/-! DEFINITION. One arm per command: the direct call of its meaning. -/

namespace Sys2Proof.Machine

def exec (i : Instr) (s : State) : Host.Outcome State Fault Refusal :=
  match i with
  | .init => Sys2Proof.Machine.execInit s
  | .setcur a => Sys2Proof.Machine.execSetcur a s
  | .wrbegin => Sys2Proof.Machine.execWrbegin s
  | .wrbyte b => Sys2Proof.Machine.execWrbyte b s
  | .rdbegin => Sys2Proof.Machine.execRdbegin s
  | .rdbyte => Sys2Proof.Machine.execRdbyte s
  | .bitclr n => Sys2Proof.Machine.execBitclr n s
  | .bitset n => Sys2Proof.Machine.execBitset n s
  | .pixclr x y => Sys2Proof.Machine.execPixclr x y s
  | .pixset x y => Sys2Proof.Machine.execPixset x y s
  | .hline x y len pat => Sys2Proof.Machine.execHline x y len pat s
  | .vline c x y len => Sys2Proof.Machine.execVline c x y len s
  | .line c x0 y0 x1 y1 => Sys2Proof.Machine.execLine c x0 y0 x1 y1 s
  | .rect c x y w h => Sys2Proof.Machine.execRect c x y w h s
  | .fillrect c x y w h => Sys2Proof.Machine.execFillrect c x y w h s
  | .patfill x y w h pp => Sys2Proof.Machine.execPatfill x y w h pp s
  | .text x y fp sp nch => Sys2Proof.Machine.execText x y fp sp nch s

end Sys2Proof.Machine
end

