-- ==== Sys2Proof/Machine/Fetch.lean ====
section
/-! DEFINITION. Taking the next command from the command stream (R27, R31, R96), what a step does when no command is executed (R238,
R248, R249), and placing a command in the stream. -/

namespace Sys2Proof.Machine

/-- The stream has been consumed: nothing is there to take (R27, R264). -/
def State.streamEnded (s : State) : Bool := decide (s.prog.length ≤ s.cp)

/-- Decoding the command at `CP` (R96). -/
def State.fetch (s : State) : Decoded := decode (s.prog.drop s.cp)

/-- The fault state discards one byte, without decoding (R238). -/
def State.discardByte (s : State) : State := { s with cp := s.cp + 1 }

/-- Inside the wait that never ends, one more poll is answered busy (R56, R249). -/
def State.pollAgain (s : State) : State := s.emit (.busy true)

/-- An opcode byte outside the map: one byte is consumed and IllegalCommand raised (R94, R95 (a), R233 (a)). -/
def State.unknownOpcode (s : State) : State := s.raise .illegalCommand 1

/-- The stream with `bytes` at position `cp`; a stream that ends before `cp` is filled up with zero bytes. -/
def placeBytes (prog : List Byte) (cp : Nat) (bytes : List Byte) : List Byte :=
  (prog ++ List.replicate cp 0).take cp ++ bytes ++ prog.drop (cp + bytes.length)

end Sys2Proof.Machine
end

