-- ==== Sys2Proof/Machine/Step.lean ====
section
/-! DEFINITION. One step: one command from the stream (R96), or one discarded byte of the fault state (R238), or one more poll of a wait
that never ends (R249); at the end of the stream the sequencer waits, unchanged (R248). -/

namespace Sys2Proof.Machine

/-- One step of the sequencer (R96). -/
def step (s : State) : Host.Outcome State Fault Refusal :=
  match s.activity with
  | .busyWait => .next s.pollAgain
  | .idle =>
    if s.streamEnded then .next s
    else if s.err ≠ 0 then .next s.discardByte
    else
      match s.fetch with
      | .ok (i, _) => exec i s
      | .error (.unknownOpcode _) => .next s.unknownOpcode
      | .error (.truncated _) => .refused .truncatedCommand
      | .error .endOfStream => .next s

/-- The state with the command whose bits are `w` (every bit from `nbits` on zero, up to the longest command) at the position of the
stream the next step takes its command from. -/
def State.withFetchWord (s : State) (nbits w : Nat) : State :=
  { s with prog := placeBytes s.prog s.cp (tableWordBytes nbits w) }

end Sys2Proof.Machine
end

