-- ==== Sys2Proof/Machine/Reset.lean ====
section
/-! DEFINITION. The reset input striking in the middle of a step (R260, R261): what the device is after the transport events issued so
far, and the state reset leaves. Between steps the reset input is `State.applyReset`. -/

namespace Sys2Proof.Machine

/-- The device after one transport event (R51, R61 to R67). An event without meaning is not issued by a step that answers a next state;
it leaves the device here. -/
def Device.afterEvent (p : Params) (d : Device) : Event → Device
  | .write r b => (d.write p r b).getD d
  | .read r _ => ((d.read p r).map Prod.snd).getD d
  | .init => d
  | .busy _ => d

/-- The device after a sequence of transport events, each complete before the next (R51, R78). -/
def Device.afterEvents (p : Params) (d : Device) (es : List Event) : Device := es.foldl (Device.afterEvent p) d

/-- Whether an event is a busy poll. -/
def Event.isPoll : Event → Bool
  | .busy _ => true
  | .write _ _ => false
  | .read _ _ => false
  | .init => false

/-- The events a state has issued since an earlier one. -/
def State.eventsSince (s t : State) : List Event := t.trace.drop s.trace.length

/-- What reset leaves when it strikes after the first `n` transport events of a step from `s` that would have come to `t`: "it abandons
the command in progress without issuing a further transport event" (R260), and the device stays as those events left it (R261). -/
def State.abandonAfter (n : Nat) (s t : State) : State :=
  let es := (s.eventsSince t).take n
  { s.applyReset with
    dev := s.dev.afterEvents s.par es, busyAnswers := s.busyAnswers.drop (es.filter Event.isPoll).length }

/-- The reset input after the first `n` transport events of the next step (R260); after all of them when the step has no more. A step
that would end in a fault does so at its first access after its busy-wait, so reset comes first only while it polls. A stream that
ends inside a command keeps the sequencer waiting for bytes (R94), and reset ends that wait. -/
def resetDuring (n : Nat) (s : State) : Host.Outcome State Fault Refusal :=
  match step s with
  | .next t => .next (s.abandonAfter n t)
  | .fault f =>
    match waitBusy s with
    | .done _ u => if n ≤ (s.eventsSince u).length then .next (s.abandonAfter n u) else .fault f
    | .stopped _ u => .next (s.abandonAfter n u)
  | .refused _ => .next s.applyReset

end Sys2Proof.Machine
end

