-- ==== Sys2Proof/Safety.lean ====
section
/-! DEFINITION. The terms the statements use: pixels as bits of display memory (R10, R152), the event sequences of R100, the states a
statement starts from, what a command leaves alone, and the invariants of the machine. -/

namespace Sys2Proof.Machine

/-! ## Pixels -/

/-- The bit of pixel index `q`: bit `q mod 8` of `MEM[SURF_BASE + q div 8]` (R152). -/
def Memory.pixel (m : Memory) (q : Nat) : Bool := (Memory.readAt m (Config.SURF_BASE + q / 8)).getLsbD (q % 8)

/-- The linear pixel index of pixel `(x, y)`: `BPR*8*y + x` (R152). -/
def pixelIndex (x y : Nat) : Nat := Config.BPR * 8 * y + x

/-- Pixel `(x, y)` of the surface. -/
def State.pixelAt (s : State) (x y : Nat) : Bool := s.dev.mem.pixel (pixelIndex x y)

/-- Bit `k` of row `r` of the glyph of character `j` (R75, R76): the pixel of column `k`. -/
def glyphBit (rom : Memory) (fp sp : Word) (j r k : Nat) : Bool :=
  let gw := glyphWidth rom fp
  let gh := glyphHeight rom fp
  let base := glyphBase fp gw gh (glyphIndex rom sp j)
  if gw ≤ 8 then (romRead rom (base + BitVec.ofNat 16 r)).getLsbD k
  else (romRead rom (base + BitVec.ofNat 16 ((r * gw + k) / 8))).getLsbD ((r * gw + k) % 8)

/-! ## The event sequences of R100 -/

/-- Set cursor to `v` (R100, R121). -/
def setCursorTrace (p : Params) (v : Word) : List Event :=
  [.write .command p.cmdCurLo, .write .data (lo8 v), .write .command p.cmdCurHi, .write .data (hi8 v)]

/-- Begin write (R100, R122). -/
def beginWriteTrace (p : Params) : List Event := [.write .command p.cmdWrite]

/-- Begin read (R100, R123), with the dummy read, whose byte is `stale`, when it is needed. -/
def beginReadTrace (p : Params) (needed : Bool) (stale : Byte) : List Event :=
  (if needed then [.write .command p.cmdRead, .read .data stale] else []) ++ [.write .command p.cmdRead]

/-- Clear or set bit `k` (R100, R124). -/
def bitOpTrace (p : Params) (k : Byte) : Colour → List Event
  | .black => [.write .command p.cmdBitSet, .write .data k]
  | .white => [.write .command p.cmdBitClr, .write .data k]

/-- One addressed pixel (R125). -/
def pixelTrace (p : Params) (px py : Nat) (c : Colour) : List Event :=
  setCursorTrace p (addr px py) ++ bitOpTrace p (BitVec.ofNat 8 (px % 8)) c

/-- One read-mask-merge-write at `a` that finds `stale` in the latch and `current` in memory and writes `new` (R126). -/
def rmwTrace (p : Params) (a : Word) (stale current new : Byte) : List Event :=
  setCursorTrace p a ++ beginReadTrace p true stale ++ [.read .data current] ++ setCursorTrace p a ++ beginWriteTrace p
    ++ [.write .data new]

/-- The events of pieces one after another, each read off the device as the pieces before it leave it (R51, R78). -/
def eventsInOrder (p : Params) : List (Device → List Event) → Device → List Event
  | [], _ => []
  | f :: fs, d => f d ++ eventsInOrder p fs (d.afterEvents p (f d))

/-- A read-mask-merge-write at `a` on device `d`: the latch is the discarded byte, the byte in memory is merged (R126). -/
def rmwTraceOn (p : Params) (d : Device) (a : Word) (msk v : Byte) : List Event :=
  rmwTrace p a d.latch (d.mem.read a) ((v &&& msk) ||| (d.mem.read a &&& ~~~ msk))

/-- A horizontal line of `len` pixels from pixel `(x, y)` on, in pattern byte `v` (R151). Head: the partial first byte. Body: the whole
bytes, in the head's open write stream, or after a set cursor and a begin write when there was no head. Tail: the partial last byte. -/
def hlineTrace (p : Params) (d : Device) (x y len : Nat) (v : Byte) : List Event :=
  if len = 0 then []
  else
    let off := x % 8
    let inHead := if off = 0 then 0 else min len (8 - off)
    let start := if off = 0 then addr x y else addr x y + 1
    let full := (len - inHead) / 8
    let rem := (len - inHead) % 8
    eventsInOrder p [
      fun d => if off = 0 then [] else rmwTraceOn p d (addr x y) (mask off inHead) v,
      fun _ =>
        (if off = 0 ∧ 0 < full then setCursorTrace p start ++ beginWriteTrace p else []) ++ List.replicate full (.write .data v),
      fun d => if rem = 0 then [] else rmwTraceOn p d (start + BitVec.ofNat 16 full) (mask 0 rem) v] d

/-- A vertical line: one addressed pixel a row, top to bottom (R155). -/
def vlineTrace (p : Params) (x y len : Nat) (c : Colour) : List Event :=
  (List.range len).flatMap (fun k => pixelTrace p x (y + k) c)

/-- The four edges of a rectangle, in the order top, bottom, left, right, the verticals trimmed at both ends (R181). -/
def rectTrace (p : Params) (d : Device) (x y w h : Nat) (c : Colour) : List Event :=
  if w = 0 ∨ h = 0 then []
  else
    eventsInOrder p [
      fun d => hlineTrace p d x y w (solid c),
      fun d => if 2 ≤ h then hlineTrace p d x (y + h - 1) w (solid c) else [],
      fun _ => if 3 ≤ h then vlineTrace p x (y + 1) (h - 2) c else [],
      fun _ => if 3 ≤ h ∧ 2 ≤ w then vlineTrace p (x + w - 1) (y + 1) (h - 2) c else []] d

/-- One horizontal line a row, top to bottom, row `Y` in pattern byte `v Y` (R183, R185). -/
def rowsTrace (p : Params) (d : Device) (x y w h : Nat) (v : Nat → Byte) : List Event :=
  eventsInOrder p ((List.range h).map (fun k d => hlineTrace p d x (y + k) w (v (y + k)))) d

/-- The byte whose bit `k` is `f k`. -/
def byteOf (f : Nat → Bool) : Byte := BitVec.ofFnLE (fun k : Fin 8 => f k)

/-- One display row of text: `n` pixels from bit `off` of the byte at `a` on, pixel `i` being `bit i` (R205, R206). The row is the stream of
the background left of the text, then those pixels. Head: the byte at `a` is read when the row starts inside it. Body: set cursor, begin
write, the whole bytes of the stream. Tail: the bits left over are merged with the background to their right. -/
def textRowTrace (p : Params) (d : Device) (a : Word) (off n : Nat) (bit : Nat → Bool) : List Event :=
  let stream := fun i => if i < off then (d.mem.read a).getLsbD i else bit (i - off)
  let full := (off + n) / 8
  let rem := (off + n) % 8
  eventsInOrder p [
    fun d => if off = 0 then [] else setCursorTrace p a ++ beginReadTrace p true d.latch ++ [.read .data (d.mem.read a)],
    fun _ =>
      setCursorTrace p a ++ beginWriteTrace p ++ (List.range full).map (fun j => .write .data (byteOf (fun k => stream (8 * j + k)))),
    fun d =>
      if rem = 0 then [] else rmwTraceOn p d (a + BitVec.ofNat 16 full) (mask 0 rem) (byteOf (fun k => stream (8 * full + k)))] d

/-- A string in a font: one display row after another, top to bottom; nothing for an empty string or an empty glyph (R205). -/
def textTrace (p : Params) (rom : Memory) (d : Device) (x y : Nat) (fp sp : Word) (nch : Nat) : List Event :=
  let gw := (romRead rom fp).toNat
  let gh := (romRead rom (fp + 1)).toNat
  if nch * gw = 0 then []
  else
    eventsInOrder p
      ((List.range gh).map (fun r d =>
        textRowTrace p d (addr x (y + r)) (x % 8) (nch * gw) (fun i => glyphBit rom fp sp (i / gw) r (i % gw)))) d

/-- The mode-setup pairs (R100, R127). -/
def modeSetupTrace : List (Byte × Byte) → List Event
  | [] => []
  | (k, d) :: rest => .write .command k :: .write .data d :: modeSetupTrace rest

/-- The events without the busy polls (R56: "the same traces hold with one `BUSY=false` event inserted before every other event"). -/
def withoutPolls (es : List Event) : List Event := es.filter (fun e => !e.isPoll)

/-- The events with one `BUSY=false` poll before each (R56). -/
def withPolls (es : List Event) : List Event := es.flatMap (fun e => [.busy false, e])

/-- The events with the byte of each discarded read hidden. The discarded read is the first read after the cursor is positioned (R24,
R123); `needed` says whether one is due before the first event. -/
def hideDiscarded (p : Params) : (needed : Bool) → List Event → List Event
  | _, [] => []
  | needed, .write r b :: es => .write r b :: hideDiscarded p (needed || decide (r = .command ∧ b = p.cmdCurHi)) es
  | needed, .read r b :: es => .read r (if needed then 0 else b) :: hideDiscarded p false es
  | needed, .init :: es => .init :: hideDiscarded p needed es
  | needed, .busy b :: es => .busy b :: hideDiscarded p needed es

/-- The address of the last set-cursor sequence among the events is `a`: no other begins after it. -/
def LastCursor (p : Params) (es : List Event) (a : Word) : Prop :=
  ∃ before later, es = before ++ setCursorTrace p a ++ later ∧ ∀ b, ¬ setCursorTrace p b <:+: later

/-! ## States a statement starts from -/

/-- No busy-wait precedes a transaction (`WAIT_BUSY = false`, R56). -/
abbrev State.noWait (s : State) : Prop := s.par.waitBusy = false

/-- The sequencer takes drawing commands: INIT has run (R28), the device commands are distinct (R9), no busy-wait. -/
abbrev State.ready (s : State) : Prop := s.inited = true ∧ s.par.distinct ∧ s.noWait

/-- The transport answers "not busy" to every poll. -/
abbrev State.neverBusy (s : State) : Prop := s.busyAnswers = [] ∧ s.busyRest = false

/-- The same state with `WAIT_BUSY = false`. -/
def State.withoutWait (s : State) : State := { s with par := { s.par with waitBusy := false } }

/-- A condition on the operands that is checked only when STRICT is true (R231, R232, R240) holds where it is checked. -/
abbrev State.whenStrict (s : State) (condition : Prop) : Prop := s.par.strict = true → condition

/-! ## What a command leaves alone -/

/-- The inputs of the run are the same: parameters, ROM, command stream (R29, R71, R81). -/
abbrev SameRun (s t : State) : Prop := t.par = s.par ∧ t.rom = s.rom ∧ t.prog = s.prog ∧ t.busyRest = s.busyRest

/-- A command of `len` bytes ended normally and left the inputs of the run, the busy answers, ERR, INITED and RESP as they were. -/
abbrev Completed (len : Nat) (s t : State) : Prop :=
  SameRun s t ∧ t.busyAnswers = s.busyAnswers ∧ t.cp = s.cp + len ∧ t.err = s.err ∧ t.inited = s.inited ∧ t.resp = s.resp ∧
    t.activity = .idle

/-- Display memory reads the same at every address. -/
abbrev SameMemory (s t : State) : Prop := ∀ a : Nat, t.dev.mem.readAt a = s.dev.mem.readAt a

/-- One byte is stored: `v` at address `a`; every other address reads as before. -/
abbrev StoresOnly (s t : State) (a : Word) (v : Byte) : Prop :=
  t.dev.mem.read a = v ∧ ∀ b : Nat, b ≠ a.toNat → t.dev.mem.readAt b = s.dev.mem.readAt b

/-- The pixels (by pixel index) of which `P` holds take the value `v` says, every other bit of display memory is unchanged, and so every
byte that holds none of those pixels reads as before. -/
abbrev Paints (s t : State) (P : Nat → Prop) (v : Nat → Bool) : Prop :=
  (∀ q : Nat, P q → t.dev.mem.pixel q = v q) ∧ (∀ q : Nat, ¬ P q → t.dev.mem.pixel q = s.dev.mem.pixel q) ∧
    ∀ a : Nat, (∀ q : Nat, P q → q / 8 ≠ a) → t.dev.mem.readAt a = s.dev.mem.readAt a

/-- The pixel indexes of the columns `x` to `x + w - 1` and rows `y` to `y + h - 1` (R180). -/
abbrev InRect (x y w h q : Nat) : Prop :=
  ∃ X Y : Nat, x ≤ X ∧ X < x + w ∧ y ≤ Y ∧ Y < y + h ∧ q = pixelIndex X Y

/-- Those of them on the border (R182). -/
abbrev OnOutline (x y w h q : Nat) : Prop :=
  ∃ X Y : Nat, x ≤ X ∧ X < x + w ∧ y ≤ Y ∧ Y < y + h ∧ (X = x ∨ X + 1 = x + w ∨ Y = y ∨ Y + 1 = y + h) ∧ q = pixelIndex X Y

/-- The last of the `h` rows from row `y` on whose run of `w` pixels from column `x` holds pixel index `q`: the row drawn last there. On
the surface the runs are disjoint; a run that leaves the surface goes on into the rows below (R152, R184, R207). -/
def lastRowAt (x y w h q : Nat) : Option Nat :=
  (List.range h).reverse.find? (fun k => decide (pixelIndex x (y + k) ≤ q ∧ q < pixelIndex x (y + k) + w))

/-! ## Commands by class -/

/-- The commands that draw (R265): "each positions the cursor and selects the device command itself before every access". -/
def isComposite : Instr → Bool
  | .pixclr _ _ => true
  | .pixset _ _ => true
  | .hline _ _ _ _ => true
  | .vline _ _ _ _ => true
  | .line _ _ _ _ _ => true
  | .rect _ _ _ _ _ => true
  | .fillrect _ _ _ _ _ => true
  | .patfill _ _ _ _ _ => true
  | .text _ _ _ _ _ => true
  | .init => false
  | .setcur _ => false
  | .wrbegin => false
  | .wrbyte _ => false
  | .rdbegin => false
  | .rdbyte => false
  | .bitclr _ => false
  | .bitset _ => false

/-- What must hold of a command's operands, and of the font header TEXT reads (R231, with `W = 240` and `H = 128`); the commands without a
coordinate have no bounds check. Sums and products are exact. -/
def inBounds (rom : Memory) : Instr → Prop
  | .pixclr x y => x.toNat < 240 ∧ y.toNat < 128
  | .pixset x y => x.toNat < 240 ∧ y.toNat < 128
  | .hline x y len _ => x.toNat + len.toNat ≤ 240 ∧ y.toNat < 128
  | .vline _ x y len => x.toNat < 240 ∧ y.toNat + len.toNat ≤ 128
  | .line _ x0 y0 x1 y1 => x0.toNat < 240 ∧ x1.toNat < 240 ∧ y0.toNat < 128 ∧ y1.toNat < 128
  | .rect _ x y w h => x.toNat + w.toNat ≤ 240 ∧ y.toNat + h.toNat ≤ 128
  | .fillrect _ x y w h => x.toNat + w.toNat ≤ 240 ∧ y.toNat + h.toNat ≤ 128
  | .patfill x y w h _ => x.toNat + w.toNat ≤ 240 ∧ y.toNat + h.toNat ≤ 128
  | .text x y fp _ nch =>
    x.toNat + nch.toNat * (romRead rom fp).toNat ≤ 240 ∧ y.toNat + (romRead rom (fp + 1)).toNat ≤ 128
  | .init => True
  | .setcur _ => True
  | .wrbegin => True
  | .wrbyte _ => True
  | .rdbegin => True
  | .rdbyte => True
  | .bitclr _ => True
  | .bitset _ => True

/-- What a command that raised error code `code` leaves: ERR if no error stood, CP past the command, idle, nothing else (R236, R237). -/
def State.raised (s : State) (code : BitVec 3) (len : Nat) : State :=
  { s with err := if s.err = 0 then code else s.err, cp := s.cp + len, activity := .idle }

/-- Whether an event is a write transaction: what the sequencer sends, as against what the device answers. -/
def Event.isWrite : Event → Bool
  | .write _ _ => true
  | .read _ _ => false
  | .init => false
  | .busy _ => false

/-! ## Runs -/

/-- Commands executed one after another. -/
def execAll : List Instr → State → Host.Outcome State Fault Refusal
  | [], s => .next s
  | i :: is, s =>
    match exec i s with
    | .next t => execAll is t
    | .fault f => .fault f
    | .refused r => .refused r

/-- `k` steps. -/
def runSteps : Nat → State → Host.Outcome State Fault Refusal
  | 0, s => .next s
  | k + 1, s =>
    match step s with
    | .next t => runSteps k t
    | .fault f => .fault f
    | .refused r => .refused r

/-- A run is over when the stream has been consumed and the sequencer is idle (R264). -/
abbrev State.runOver (s : State) : Prop := s.cp = s.prog.length ∧ s.activity = .idle

/-- A good run is over without an error (R264). -/
abbrev State.goodRun (s : State) : Prop := s.runOver ∧ s.err = 0

/-! ## Invariants -/

/-- The display memory and the ROM are in canonical form. -/
abbrev State.memoryCanonical (s : State) : Prop := s.dev.mem.wf = true ∧ s.rom.wf = true

/-- ERR holds 0 or one of the four codes: "5 to 7 never written" (R26). -/
abbrev State.errLegal (s : State) : Prop := s.err.toNat ≤ 4

/-- `CP` never passes the end of the stream (R27). -/
abbrev State.cpInStream (s : State) : Prop := s.cp ≤ s.prog.length

/-- How often INIT has been put on the transport. -/
def State.initCount (s : State) : Nat := s.trace.count .init

/-- The wait that never ends is entered only with WAIT_BUSY, without a poll limit (R9 allows no limit of 0), on a device busy for
ever (R249). -/
abbrev State.hangJustified (s : State) : Prop :=
  s.activity = .busyWait →
    s.par.waitBusy = true ∧ s.busyRest = true ∧ s.busyAnswers = [] ∧ (s.par.busyPollLimit = none ∨ s.par.busyPollLimit = some 0)

/-- "`init()` is called exactly once before any other operation" (R52): INIT is at most once in the trace, it is there once INITED is
set, no event but a busy poll comes before it, and while the sequencer is idle without an error and without INITED nothing has
happened at all. -/
abbrev State.initFirst (s : State) : Prop :=
  s.initCount ≤ 1 ∧ (s.inited = true → s.initCount = 1) ∧
    (withoutPolls s.trace = [] ∨ (withoutPolls s.trace).head? = some .init) ∧
    (s.inited = false ∧ s.err = 0 ∧ s.activity = .idle → s.trace = [] ∧ s.resp = [])

/-- The machine's invariant. -/
abbrev State.Inv (s : State) : Prop :=
  s.memoryCanonical ∧ s.errLegal ∧ s.cpInStream ∧ s.hangJustified ∧ s.initFirst

end Sys2Proof.Machine
end

