-- ==== Sys2Proof/Certificates/Slice0/Obligations.lean ====
section
/-! DEFINITION. The statements for the provers. Each docstring names the rules of spec/ it formalises; OBLIGATIONS.json repeats them. -/

open Sys2Proof Sys2Proof.Machine

/-! ## Encoding -/

/-- Decoding the encoding of a command gives the command back and leaves the bytes after it, whatever its operands (R91, R92, R93). -/
def Obligations.DecodeOfEncode : Prop :=
  ∀ (i : Instr) (rest : List Byte), decode (encode i ++ rest) = .ok (i, rest)

/-- What the decoder reads is the encoding of the command it answers, so each command has one encoding (R97). -/
def Obligations.EncodingIsUnique : Prop :=
  ∀ (bs : List Byte) (i : Instr) (rest : List Byte), decode bs = .ok (i, rest) → bs = encode i ++ rest

/-- Byte 0 is rejected exactly outside the opcode map, which has 21 values; 0x00 and 0xFF are outside it (R93, R95 (a)). -/
def Obligations.OpcodeMapIsExact : Prop :=
  (∀ (op : Byte) (rest : List Byte), decode (op :: rest) = .error (.unknownOpcode op) ↔ opLength op = none) ∧
    ((List.range 256).filter (fun n => (opLength (BitVec.ofNat 8 n)).isSome)).length = 21 ∧
    opLength 0x00 = none ∧ opLength 0xFF = none

/-- Byte 0 alone fixes the length: a stream with fewer bytes is truncated, any other is a command of that length (R90, R94). -/
def Obligations.LengthFromOpcode : Prop :=
  ∀ (op : Byte) (rest : List Byte) (len : Nat), opLength op = some len →
    (rest.length + 1 < len → decode (op :: rest) = .error (.truncated op)) ∧
    (len ≤ rest.length + 1 → ∃ i, decode (op :: rest) = .ok (i, rest.drop (len - 1)) ∧ (encode i).length = len)

/-- A few command words written out from R91 and R93 decode to the commands they stand for. -/
def Obligations.SampleWordsDecode : Prop :=
  decode [0x01] = .ok (.init, []) ∧
  decode [0x10, 0x23, 0x01] = .ok (.setcur 0x0123, []) ∧
  decode [0x12, 0xA5, 0x13] = .ok (.wrbyte 0xA5, [0x13]) ∧
  decode [0x17, 0x05] = .ok (.bitset 5, []) ∧
  decode [0x21, 0xEF, 0x7F] = .ok (.pixset 239 127, []) ∧
  decode [0x30, 0x03, 0x00, 0x0A, 0xFF] = .ok (.hline 3 0 10 0xFF, []) ∧
  decode [0x32, 0x04, 0x01, 0x02] = .ok (.vline .white 4 1 2, []) ∧
  decode [0x35, 0x00, 0x00, 0x07, 0x03] = .ok (.line .black 0 0 7 3, []) ∧
  decode [0x39, 0x08, 0x00, 0x10, 0x02] = .ok (.fillrect .black 8 0 16 2, []) ∧
  decode [0x3A, 0x00, 0x01, 0x10, 0x02, 0x34, 0x12] = .ok (.patfill 0 1 16 2 0x1234, []) ∧
  decode [0x40, 0x05, 0x00, 0x00, 0x01, 0x00, 0x02, 0x02] = .ok (.text 5 0 0x0100 0x0200 2, [])

/-! ## The step -/

/-- An idle sequencer without an error, whose next bytes decode to a command, executes that command (R96). The step adds nothing:
moving past the command's bytes is part of executing it (`CpAdvancesByTheLength`). -/
def Obligations.StepRunsTheDecodedCommand : Prop :=
  ∀ (s : State) (i : Instr) (rest : List Byte),
    s.activity = .idle → s.err = 0 → decode (s.prog.drop s.cp) = .ok (i, rest) → step s = exec i s

/-- A step that executes no command: at the end of the stream nothing changes (R248, R264; that the step is then the identity is the
model's choice, log entry 10); a byte outside the opcode map is consumed with IllegalCommand (R94, R95 (a), R233 (a)); a stream that
ends inside a command is refused (R94). -/
def Obligations.StepWithoutACommand : Prop :=
  (∀ s : State, s.activity = .idle → s.prog.length ≤ s.cp → step s = .next s) ∧
  (∀ (s : State) (op : Byte), s.activity = .idle → s.err = 0 → s.prog[s.cp]? = some op → opLength op = none →
    step s = .next { s with err := 4, cp := s.cp + 1 }) ∧
  (∀ (s : State) (op : Byte) (len : Nat), s.activity = .idle → s.err = 0 → s.prog[s.cp]? = some op → opLength op = some len →
    s.prog.length < s.cp + len → step s = .refused .truncatedCommand)

/-- In the fault state each step discards one byte of the stream and changes no register (R27, R238). -/
def Obligations.FaultStateDiscardsTheStream : Prop :=
  ∀ (s : State) (k : Nat), s.activity = .idle → s.err ≠ 0 → s.cp + k ≤ s.prog.length →
    runSteps k s = .next { s with cp := s.cp + k }

/-- Inside the wait that never ends every further step is one more poll answered busy: idle stays 0, and the command never ends (R249;
one poll a step is the model's choice, log entry 9). -/
def Obligations.HangGoesOnForEver : Prop :=
  ∀ (s : State) (k : Nat), s.activity = .busyWait →
    runSteps k s = .next { s with trace := s.trace ++ List.replicate k (.busy true) }

/-- A command that ends, normally or by an error, moves `CP` by the length of its encoding (R27, R94). -/
def Obligations.CpAdvancesByTheLength : Prop :=
  ∀ (i : Instr) (s t : State), exec i s = .next t → t.activity = .idle → t.cp = s.cp + (encode i).length

/-! ## Errors -/

/-- IllegalCommand whatever STRICT is, and before any event: an opcode byte outside the map (a), any command but INIT before INIT (b), a
second INIT (c), a bit index of 8 or more (d); in no other case does a command raise it (R233). ERR takes code 4 if it was 0, CP moves
past the command, nothing else changes. -/
def Obligations.IllegalCommandErrors : Prop :=
  (∀ (s : State) (op : Byte), s.activity = .idle → s.err = 0 → s.prog[s.cp]? = some op → opLength op = none →
    step s = .next (s.raised 4 1)) ∧
  (∀ (i : Instr) (s : State), decide (i = .init) = s.inited → exec i s = .next (s.raised 4 (encode i).length)) ∧
  (∀ (n : Byte) (s : State), s.inited = true → 8 ≤ n.toNat →
    exec (.bitclr n) s = .next (s.raised 4 2) ∧ exec (.bitset n) s = .next (s.raised 4 2)) ∧
  (∀ (i : Instr) (s t : State), exec i s = .next t → s.err ≠ 4 → t.err = 4 →
    decide (i = .init) = s.inited ∨ ∃ n : Byte, 8 ≤ n.toNat ∧ (i = .bitclr n ∨ i = .bitset n))

/-- BoundsError with STRICT, exactly when the condition of the command does not hold, with exact sums and products (R231). ERR takes code 1
if it was 0, CP moves past the command, nothing else changes. -/
def Obligations.BoundsErrors : Prop :=
  (∀ (i : Instr) (s : State), s.inited = true → s.par.strict = true → ¬ inBounds s.rom i →
    exec i s = .next (s.raised 1 (encode i).length)) ∧
  (∀ (i : Instr) (s t : State), exec i s = .next t → s.err ≠ 1 → t.err = 1 →
    s.inited = true ∧ s.par.strict = true ∧ ¬ inBounds s.rom i)

/-- InvalidPatternError: raised by PATFILL alone, and only with STRICT, exactly when the rectangle fits the surface (the bounds check comes
first) and the row mask `PM` has `(PM + 1) & PM != 0`, that is when it is none of 0, 1, 3, 7, 15, 31, 63, 127, 255 (R232). ERR takes code
2 if it was 0, CP moves past the command, nothing else changes. -/
def Obligations.InvalidPatternErrors : Prop :=
  (∀ PM : Byte, (PM.toNat + 1) &&& PM.toNat = 0 ↔ PM.toNat ∈ [0, 1, 3, 7, 15, 31, 63, 127, 255]) ∧
  (∀ (x y w h : Byte) (pp : Word) (s : State), s.inited = true → s.par.strict = true → inBounds s.rom (.patfill x y w h pp) →
    ((romRead s.rom pp).toNat + 1) &&& (romRead s.rom pp).toNat ≠ 0 →
    exec (.patfill x y w h pp) s = .next (s.raised 2 7)) ∧
  (∀ (i : Instr) (s t : State), exec i s = .next t → s.err ≠ 2 → t.err = 2 →
    s.par.strict = true ∧ ∃ x y w h pp, i = .patfill x y w h pp ∧ inBounds s.rom i ∧
      ((romRead s.rom pp).toNat + 1) &&& (romRead s.rom pp).toNat ≠ 0)

/-- With STRICT false no command raises BoundsError or InvalidPatternError: if it changes ERR, the code is 3 or 4 (R240). -/
def Obligations.NonStrictRaisesNoRangeError : Prop :=
  ∀ (i : Instr) (s t : State), s.par.strict = false → exec i s = .next t → t.err ≠ s.err → t.err = 3 ∨ t.err = 4

/-- The first error stays: no command and no step changes ERR once it is not 0 (R26, R239). -/
def Obligations.FirstErrorStays : Prop :=
  (∀ (i : Instr) (s t : State), s.err ≠ 0 → exec i s = .next t → t.err = s.err) ∧
    (∀ s t : State, s.err ≠ 0 → step s = .next t → t.err = s.err)

/-- IllegalCommand, BoundsError and InvalidPatternError are precise: the command that raises has issued no transport event and changed
no state but ERR and CP (R237); the sequencer is idle (R236). -/
def Obligations.RangeErrorsArePrecise : Prop :=
  ∀ (i : Instr) (s t : State), s.err = 0 → exec i s = .next t → t.err = 1 ∨ t.err = 2 ∨ t.err = 4 →
    t = { s with err := t.err, cp := s.cp + (encode i).length, activity := .idle }

/-! ## Reset -/

/-- After reset NDR is 1, CUR, ERR, INITED and CP are 0, RESP is empty and the sequencer is idle (R37); the device, the ROM, the
parameters and the command stream are as given. -/
def Obligations.ResetValues : Prop :=
  ∀ (par : Params) (rom : Memory) (prog : List Byte) (ba : List Bool) (br : Bool) (dev : Device),
    let s := State.resetWith par rom prog ba br dev
    s.ndr = true ∧ s.cur = 0 ∧ s.err = 0 ∧ s.inited = false ∧ s.cp = 0 ∧ s.resp = [] ∧ s.activity = .idle ∧
      s.dev = dev ∧ s.rom = rom ∧ s.par = par ∧ s.prog = prog

/-- Reset in the middle of a step: the registers take the values of R37, the command in progress is abandoned, and the device is not
touched (R260, R261). Three things the statement says besides are the model's own, log entry 14, and no rule of the spec: that reset keeps
the parameters, the ROM, the stream and the busy answers not yet given (`SameRun` and the whole-state equality with `applyReset`; DESIGN
CHOICE), that it starts the trace anew (the same equality; DESIGN CHOICE), and that between two events of a step the device is what the
events issued so far make of it (the last clause; DEDUCED). The premise on the activity leaves out states that are in the endless wait
without cause, which no run reaches. -/
def Obligations.ResetDuringAStep : Prop :=
  ∀ s t : State, s.hangJustified → step s = .next t →
    resetDuring 0 s = .next s.applyReset ∧
    (∀ n, t.trace.length ≤ s.trace.length + n → resetDuring n s = .next t.applyReset) ∧
    (∀ n u, resetDuring n s = .next u →
      u.ndr = true ∧ u.cur = 0 ∧ u.err = 0 ∧ u.inited = false ∧ u.cp = 0 ∧ u.resp = [] ∧ u.activity = .idle ∧
        SameRun s u ∧ u.dev = s.dev.afterEvents s.par ((s.eventsSince t).take n))

/-! ## Initialisation, cursor and raw stream commands -/

/-- INIT on a sequencer not yet initialised (R127): `INIT`, then the mode-setup pairs in list order; NDR and INITED become 1 and CUR,
ERR and RESP stay. The device changes only in its selected command when no pair selects one of the six device commands (R66). -/
def Obligations.InitCompletes : Prop :=
  ∀ s : State, s.inited = false → s.noWait →
    ∃ t, exec .init s = .next t ∧
      t = { s with
        cp := s.cp + 1, ndr := true, inited := true, activity := .idle,
        trace := s.trace ++ .init :: modeSetupTrace s.par.modeSetup, dev := t.dev } ∧
      ((∀ kd ∈ s.par.modeSetup, kd.1 ∉ s.par.deviceCommands) →
        t.dev = { s.dev with ir := ((s.par.modeSetup.map Prod.fst).getLast?).or s.dev.ir } ∧ SameMemory s t)

/-- SETCUR (R121, R128): four events, low byte first; CUR takes the address and NDR becomes 1; no bounds check; the device cursor is
at the address (R62). WRBEGIN (R122, R129): one event; no register changes but CP. -/
def Obligations.SetcurAndWrbeginComplete : Prop :=
  (∀ (a : Word) (s : State), s.ready →
    exec (.setcur a) s = .next
      { s with
        cp := s.cp + 3, cur := a, ndr := true, activity := .idle,
        trace := s.trace ++
          [.write .command s.par.cmdCurLo, .write .data (lo8 a), .write .command s.par.cmdCurHi, .write .data (hi8 a)],
        dev := { s.dev with dc := a, ir := some s.par.cmdCurHi } }) ∧
  (∀ s : State, s.ready →
    exec .wrbegin s = .next
      { s with
        cp := s.cp + 1, activity := .idle, trace := s.trace ++ [.write .command s.par.cmdWrite],
        dev := { s.dev with ir := some s.par.cmdWrite } })

/-- WRBYTE in an open write stream (R63, R130): the byte is stored at the device cursor, which advances; NDR and CUR stay. -/
def Obligations.WrbyteStores : Prop :=
  ∀ (b : Byte) (s : State), s.ready → s.dev.ir = some s.par.cmdWrite →
    ∃ t, exec (.wrbyte b) s = .next t ∧
      t = { s with
        cp := s.cp + 2, activity := .idle, trace := s.trace ++ [.write .data b],
        dev := { s.dev with mem := t.dev.mem, dc := s.dev.dc + 1 } } ∧
      StoresOnly s t s.dev.dc b

/-- WRBYTE with another device command selected delivers its byte to that command (R62, R64, R66, R130, R267): a cursor byte, a bit of
the byte at the device cursor, or a display configuration the device does not model. -/
def Obligations.WrbyteToTheSelectedCommand : Prop :=
  ∀ (b k : Byte) (s : State), s.ready → s.dev.ir = some k →
    k ∈ [s.par.cmdCurLo, s.par.cmdCurHi, s.par.cmdBitSet, s.par.cmdBitClr] ∨
      k ∉ s.par.deviceCommands ∧ k ∈ s.par.modeSetup.map Prod.fst →
    ∃ t, exec (.wrbyte b) s = .next t ∧
      t = { s with cp := s.cp + 2, activity := .idle, trace := s.trace ++ [.write .data b], dev := t.dev } ∧
      (k = s.par.cmdCurLo → t.dev = { s.dev with dc := hi8 s.dev.dc ++ b }) ∧
      (k = s.par.cmdCurHi → t.dev = { s.dev with dc := b ++ lo8 s.dev.dc }) ∧
      (k = s.par.cmdBitSet →
        t.dev = { s.dev with mem := t.dev.mem, dc := s.dev.dc + 1 } ∧
        StoresOnly s t s.dev.dc (s.dev.mem.read s.dev.dc ||| (1 : Byte) <<< (b.toNat % 8))) ∧
      (k = s.par.cmdBitClr →
        t.dev = { s.dev with mem := t.dev.mem, dc := s.dev.dc + 1 } ∧
        StoresOnly s t s.dev.dc (s.dev.mem.read s.dev.dc &&& ~~~ ((1 : Byte) <<< (b.toNat % 8)))) ∧
      (k ∉ s.par.deviceCommands → t.dev = s.dev)

/-- Raw data out of order is a fault of the run (R66, R267): WRBYTE with no command selected, with the read command or with an unknown
byte selected; RDBYTE unless the read command is selected. A read command byte that is also a MODE_SETUP byte is left out (log
entry 7). -/
def Obligations.RawDataOutOfOrderFaults : Prop :=
  (∀ (b : Byte) (s : State), s.ready →
    s.dev.ir = none ∨
      (∃ k, s.dev.ir = some k ∧ k ∉ s.par.modeSetup.map Prod.fst ∧ (k = s.par.cmdRead ∨ k ∉ s.par.deviceCommands)) →
    exec (.wrbyte b) s = .fault .dataWriteNoMeaning) ∧
  (∀ s : State, s.ready → s.dev.ir ≠ some s.par.cmdRead → exec .rdbyte s = .fault .dataReadNoMeaning)

/-- RDBEGIN (R123, R131): with NDR 1 one discarded read, which loads the latch at the device cursor and advances it, and NDR becomes 0;
then the begin-read command; CUR and RESP stay. RDBYTE in an open read stream (R65, R132): RESP takes the byte of the latch, the
latch is reloaded at the device cursor, which advances; memory, NDR and CUR stay. -/
def Obligations.RdbeginAndRdbyteComplete : Prop :=
  (∀ s : State, s.ready →
    exec .rdbegin s = .next
      { s with
        cp := s.cp + 1, ndr := false, activity := .idle,
        trace := s.trace ++
          (if s.ndr then [.write .command s.par.cmdRead, .read .data s.dev.latch] else []) ++ [.write .command s.par.cmdRead],
        dev :=
          { s.dev with
            ir := some s.par.cmdRead,
            latch := if s.ndr then s.dev.mem.read s.dev.dc else s.dev.latch,
            dc := if s.ndr then s.dev.dc + 1 else s.dev.dc } }) ∧
  (∀ s : State, s.ready → s.dev.ir = some s.par.cmdRead →
    exec .rdbyte s = .next
      { s with
        cp := s.cp + 1, activity := .idle, resp := s.resp ++ [s.dev.latch],
        trace := s.trace ++ [.read .data s.dev.latch],
        dev := { s.dev with latch := s.dev.mem.read s.dev.dc, dc := s.dev.dc + 1 } })

/-- BITCLR and BITSET at the device cursor (R64, R124, R133, R134): one bit of the byte there, the other seven kept; the device cursor
advances; NDR and CUR stay. -/
def Obligations.BitCommandsComplete : Prop :=
  ∀ (n : Byte) (s : State), s.ready → n.toNat < 8 →
    (∃ t, exec (.bitclr n) s = .next t ∧
      t = { s with
        cp := s.cp + 2, activity := .idle, trace := s.trace ++ [.write .command s.par.cmdBitClr, .write .data n],
        dev := { s.dev with ir := some s.par.cmdBitClr, mem := t.dev.mem, dc := s.dev.dc + 1 } } ∧
      StoresOnly s t s.dev.dc (s.dev.mem.read s.dev.dc &&& ~~~ ((1 : Byte) <<< n.toNat))) ∧
    (∃ t, exec (.bitset n) s = .next t ∧
      t = { s with
        cp := s.cp + 2, activity := .idle, trace := s.trace ++ [.write .command s.par.cmdBitSet, .write .data n],
        dev := { s.dev with ir := some s.par.cmdBitSet, mem := t.dev.mem, dc := s.dev.dc + 1 } } ∧
      StoresOnly s t s.dev.dc (s.dev.mem.read s.dev.dc ||| (1 : Byte) <<< n.toNat))

/-- A positioned raw read (R68, R132, R266): SETCUR `p`, RDBEGIN, `k` RDBYTEs, RDBEGIN again, `m` more RDBYTEs answer the bytes from `p`
on without a gap, addresses mod 65536; memory is unchanged and the device cursor runs one ahead. -/
def Obligations.RawReadReturnsTheBytes : Prop :=
  ∀ (p : Word) (k m : Nat) (s : State), s.ready →
    ∃ t, execAll ([.setcur p, .rdbegin] ++ List.replicate k .rdbyte ++ [.rdbegin] ++ List.replicate m .rdbyte) s = .next t ∧
      t.resp = s.resp ++ (List.range (k + m)).map (fun j => s.dev.mem.read (p + BitVec.ofNat 16 j)) ∧
      t.dev.dc = p + BitVec.ofNat 16 (k + m) + 1 ∧ t.ndr = false ∧ t.cur = p ∧ SameMemory s t

/-- A positioned raw write (R63, R122, R130): SETCUR `p`, WRBEGIN, WRBYTEs store the bytes from `p` on, addresses mod 65536, and nothing
else; the device cursor stands after the last byte, NDR stays 1. -/
def Obligations.RawWriteFills : Prop :=
  ∀ (p : Word) (bs : List Byte) (s : State), s.ready → bs.length ≤ 65536 →
    ∃ t, execAll ([.setcur p, .wrbegin] ++ bs.map .wrbyte) s = .next t ∧
      (∀ j b, bs[j]? = some b → t.dev.mem.read (p + BitVec.ofNat 16 j) = b) ∧
      (∀ a : Nat, (∀ j < bs.length, a ≠ (p + BitVec.ofNat 16 j).toNat) → t.dev.mem.readAt a = s.dev.mem.readAt a) ∧
      t.dev.dc = p + BitVec.ofNat 16 bs.length ∧ t.ndr = true ∧ t.cur = p ∧ t.resp = s.resp

/-- Turning round without a new SETCUR (R268, R269). (a) After SETCUR `p`, WRBEGIN and WRBYTEs, a first RDBEGIN makes the dummy read, and
RDBYTE answers the byte after those written. (b) After SETCUR `p`, RDBEGIN, RDBYTE, a WRBYTE lands two bytes past `p`, and the next
RDBEGIN makes no dummy read, so RDBYTE answers the stale byte at `p + 1`. -/
def Obligations.TurningRoundWithoutSetcur : Prop :=
  (∀ (p : Word) (bs : List Byte) (s : State), s.ready → bs.length < 65536 →
    ∃ t, execAll ([.setcur p, .wrbegin] ++ bs.map .wrbyte ++ [.rdbegin, .rdbyte]) s = .next t ∧
      t.resp = s.resp ++ [s.dev.mem.read (p + BitVec.ofNat 16 bs.length)]) ∧
  (∀ (p : Word) (v : Byte) (s : State), s.ready →
    ∃ t, execAll [.setcur p, .rdbegin, .rdbyte, .wrbegin, .wrbyte v, .rdbegin, .rdbyte] s = .next t ∧
      t.resp = s.resp ++ [s.dev.mem.read p, s.dev.mem.read (p + 1)] ∧ StoresOnly s t (p + 2) v)

/-! ## Pixels and lines -/

/-- PIXCLR and PIXSET (R125, R135, R136): six events; the addressed bit takes the colour, every other bit of memory stays; CUR takes the
address, NDR becomes 1. With STRICT false the coordinates need not lie on the surface. -/
def Obligations.PixelCommandsComplete : Prop :=
  ∀ (x y : Byte) (s : State), s.ready → s.whenStrict (x.toNat < 240 ∧ y.toNat < 128) →
    let a := addr x.toNat y.toNat
    (∃ t, exec (.pixclr x y) s = .next t ∧
      t = { s with
        cp := s.cp + 3, activity := .idle, cur := a, ndr := true, trace := s.trace ++ pixelTrace s.par x.toNat y.toNat .white,
        dev := { s.dev with ir := some s.par.cmdBitClr, mem := t.dev.mem, dc := a + 1 } } ∧
      StoresOnly s t a (s.dev.mem.read a &&& ~~~ ((1 : Byte) <<< (x.toNat % 8))) ∧
      Paints s t (fun q => q = pixelIndex x.toNat y.toNat) (fun _ => false)) ∧
    (∃ t, exec (.pixset x y) s = .next t ∧
      t = { s with
        cp := s.cp + 3, activity := .idle, cur := a, ndr := true, trace := s.trace ++ pixelTrace s.par x.toNat y.toNat .black,
        dev := { s.dev with ir := some s.par.cmdBitSet, mem := t.dev.mem, dc := a + 1 } } ∧
      StoresOnly s t a (s.dev.mem.read a ||| (1 : Byte) <<< (x.toNat % 8)) ∧
      Paints s t (fun q => q = pixelIndex x.toNat y.toNat) (fun _ => true))

/-- The read-mask-merge-write step on the reference device, whatever its memory, latch, cursor and selected command (R126, R137):
the byte at `p` takes the bits of `v` under the mask, every other byte is unchanged. Its fourteen events, in order: set cursor, begin read
with the discarded read, the read, set cursor again, begin write, the merged byte. -/
def Obligations.RmwGuarantee : Prop :=
  ∀ (p : Word) (msk v : Byte) (s : State), s.noWait → s.par.distinct →
    ∃ t, rmw p msk v s = .done () t ∧
      StoresOnly s t p ((v &&& msk) ||| (s.dev.mem.read p &&& ~~~ msk)) ∧
      t.trace = s.trace ++ rmwTrace s.par p s.dev.latch (s.dev.mem.read p) ((v &&& msk) ||| (s.dev.mem.read p &&& ~~~ msk)) ∧
      t.trace.length = s.trace.length + 14 ∧ t.ndr = true ∧ t.cur = p ∧
      t.dev.ir = some s.par.cmdWrite ∧ t.dev.dc = p + 1

/-- HLINE (R151, R152, R153): the events are head, body and tail in that order (`hlineTrace`); the run of `len` pixel indexes from the
start takes the pattern's bits, bit `q mod 8` at index `q`; every other bit of memory stays. NDR becomes 1 when `len > 0`; with `len = 0`
NDR and CUR stay. CUR otherwise: `DummyReadDiscipline`. -/
def Obligations.HlineCompletes : Prop :=
  ∀ (x y len pat : Byte) (s : State), s.ready → s.whenStrict (x.toNat + len.toNat ≤ 240 ∧ y.toNat < 128) →
    ∃ t, exec (.hline x y len pat) s = .next t ∧ Completed 5 s t ∧
      t.ndr = (if len.toNat = 0 then s.ndr else true) ∧ (len.toNat = 0 → t.cur = s.cur) ∧
      t.trace = s.trace ++ hlineTrace s.par s.dev x.toNat y.toNat len.toNat pat ∧
      Paints s t
        (fun q => pixelIndex x.toNat y.toNat ≤ q ∧ q < pixelIndex x.toNat y.toNat + len.toNat)
        (fun q => pat.getLsbD (q % 8))

/-- The number of transport events of HLINE, case by case (R154). -/
def Obligations.HlineEventCounts : Prop :=
  ∀ (x y len pat : Byte) (s t : State), s.ready → s.whenStrict (x.toNat + len.toNat ≤ 240 ∧ y.toNat < 128) →
    exec (.hline x y len pat) s = .next t →
    let off := x.toNat % 8
    let n := len.toNat
    let events := (s.eventsSince t).length
    (n = 0 → events = 0) ∧
    (off = 0 ∧ 0 < n ∧ n % 8 = 0 → events = 5 + n / 8) ∧
    (off = 0 ∧ 0 < n ∧ n < 8 → events = 14) ∧
    (off = 0 ∧ 8 ≤ n ∧ n % 8 ≠ 0 → events = 19 + n / 8) ∧
    (off ≠ 0 ∧ 0 < n ∧ off + n ≤ 8 → events = 14) ∧
    (off ≠ 0 ∧ 8 < off + n ∧ (off + n) % 8 = 0 → events = 14 + (n - (8 - off)) / 8) ∧
    (off ≠ 0 ∧ 8 < off + n ∧ (off + n) % 8 ≠ 0 → events = 28 + (n - (8 - off)) / 8)

/-- VLINE (R155, R156, R157): one addressed pixel a row, top to bottom, and no read; exactly those bits take the colour; rows are not
reduced to 8 bits. NDR becomes 1 when `len > 0`; with `len = 0` NDR and CUR stay. CUR otherwise: `DummyReadDiscipline`. -/
def Obligations.VlineCompletes : Prop :=
  ∀ (c : Colour) (x y len : Byte) (s : State), s.ready → s.whenStrict (x.toNat < 240 ∧ y.toNat + len.toNat ≤ 128) →
    ∃ t, exec (.vline c x y len) s = .next t ∧ Completed 4 s t ∧
      t.ndr = (if len.toNat = 0 then s.ndr else true) ∧ (len.toNat = 0 → t.cur = s.cur) ∧
      t.trace = s.trace ++ vlineTrace s.par x.toNat y.toNat len.toNat c ∧
      Paints s t (fun q => ∃ k < len.toNat, q = pixelIndex x.toNat (y.toNat + k)) (fun _ => c.bit)

/-- LINE with both end points in one row (R158, R161, R165 (c)): the row segment between them, both included, in either order, by the
events of the horizontal line. NDR becomes 1. CUR: `DummyReadDiscipline`. -/
def Obligations.LineHorizontal : Prop :=
  ∀ (c : Colour) (x0 y x1 : Byte) (s : State), s.ready → s.whenStrict (x0.toNat < 240 ∧ x1.toNat < 240 ∧ y.toNat < 128) →
    ∃ t, exec (.line c x0 y x1 y) s = .next t ∧ Completed 5 s t ∧ t.ndr = true ∧
      t.trace = s.trace ++ hlineTrace s.par s.dev (min x0.toNat x1.toNat) y.toNat
        (max x0.toNat x1.toNat - min x0.toNat x1.toNat + 1) (solid c) ∧
      Paints s t
        (fun q => pixelIndex (min x0.toNat x1.toNat) y.toNat ≤ q ∧ q ≤ pixelIndex (max x0.toNat x1.toNat) y.toNat)
        (fun _ => c.bit)

/-- LINE with both end points in one column (R158, R161, R164): the column segment between them, both included, in the colour asked for,
or in the opposite colour when LINE_DX0_INVERT is true, by the events of the vertical line, top to bottom. NDR becomes 1. CUR:
`DummyReadDiscipline`. -/
def Obligations.LineVertical : Prop :=
  ∀ (c : Colour) (x y0 y1 : Byte) (s : State), y0 ≠ y1 → s.ready →
    s.whenStrict (x.toNat < 240 ∧ y0.toNat < 128 ∧ y1.toNat < 128) →
    ∃ t, exec (.line c x y0 x y1) s = .next t ∧ Completed 5 s t ∧ t.ndr = true ∧
      t.trace = s.trace ++ vlineTrace s.par x.toNat (min y0.toNat y1.toNat)
        (max y0.toNat y1.toNat - min y0.toNat y1.toNat + 1)
        (if s.par.lineDx0Invert then oppositeColour c else c) ∧
      Paints s t
        (fun q => ∃ Y, min y0.toNat y1.toNat ≤ Y ∧ Y ≤ max y0.toNat y1.toNat ∧ q = pixelIndex x.toNat Y)
        (fun _ => if s.par.lineDx0Invert then !c.bit else c.bit)

/-- LINE on two rows and two columns (R158, R160, R162, R165): exactly the stepper's points take the colour, in the order plotted, six
events each and no read. NDR becomes 1. CUR: `DummyReadDiscipline`. `StepperProperties` fixes the points. -/
def Obligations.LineDiagonal : Prop :=
  ∀ (c : Colour) (x0 y0 x1 y1 : Byte) (s : State), x0 ≠ x1 → y0 ≠ y1 → s.ready →
    s.whenStrict (x0.toNat < 240 ∧ x1.toNat < 240 ∧ y0.toNat < 128 ∧ y1.toNat < 128) →
    let points :=
      if x1.toNat < x0.toNat then linePoints x1.toNat y1.toNat x0.toNat y0.toNat
      else linePoints x0.toNat y0.toNat x1.toNat y1.toNat
    ∃ t, exec (.line c x0 y0 x1 y1) s = .next t ∧ Completed 5 s t ∧ t.ndr = true ∧
      t.trace = s.trace ++ points.flatMap (fun p => pixelTrace s.par p.1 p.2 c) ∧
      Paints s t (fun q => ∃ p ∈ points, q = pixelIndex p.1 p.2) (fun _ => c.bit)

/-- LINE does not depend on the order of its end points, in any state: the two commands have the same outcome, trace and all
(R165 (b)). -/
def Obligations.LineIsSymmetric : Prop :=
  ∀ (c : Colour) (x0 y0 x1 y1 : Byte) (s : State), exec (.line c x0 y0 x1 y1) s = exec (.line c x1 y1 x0 y0) s

/-- The stepper. The points begin with the first end point, and each point follows from the one before by the step rule of R162, its two
non-strict tests included (R163 (g)): with `err = DX - DY - DY*(PX - x0) + DX*|PY - y0|`, the error at point `(PX, PY)`, the column
steps if and only if `-(2*err) <= DY`, the row if and only if `2*err <= DX`. The last point is the other end point, and no point before it
is. So the statement fixes every point. Of these (R163 (a) to (d)) there are `max(DX, DY) + 1`, all in the bounding box of the end
points; each step moves by 0 or 1 column, by 0 or 1 row towards the end point, and never by neither. -/
def Obligations.StepperProperties : Prop :=
  ∀ x0 y0 x1 y1 : Nat, x0 < x1 → y0 ≠ y1 →
    let points := linePoints x0 y0 x1 y1
    let dx : Int := x1 - x0
    let dy : Int := max y0 y1 - min y0 y1
    points.length = max (x1 - x0) (max y0 y1 - min y0 y1) + 1 ∧
    points.head? = some (x0, y0) ∧ points.getLast? = some (x1, y1) ∧
    (∀ p ∈ points, x0 ≤ p.1 ∧ p.1 ≤ x1 ∧ min y0 y1 ≤ p.2 ∧ p.2 ≤ max y0 y1) ∧
    (∀ n p q, points[n]? = some p → points[n + 1]? = some q →
      let err : Int := dx - dy - dy * ((p.1 : Int) - x0) + dx * |(p.2 : Int) - y0|
      p ≠ (x1, y1) ∧ (q.1 = p.1 + 1 ↔ -(2 * err) ≤ dy) ∧ (q.2 ≠ p.2 ↔ 2 * err ≤ dx) ∧
      (q.1 = p.1 ∨ q.1 = p.1 + 1) ∧ (q.2 = p.2 ∨ (if y0 < y1 then q.2 = p.2 + 1 else q.2 + 1 = p.2)) ∧ q ≠ p)

/-! ## Rectangles and text -/

/-- RECT (R181, R182): the events are those of the top, bottom, left and right edge in that order; exactly the border pixels take the
colour. NDR becomes 1 when the rectangle is not empty; else NDR and CUR stay. CUR otherwise: `DummyReadDiscipline`. LINE_DX0_INVERT has no
effect. -/
def Obligations.RectCompletes : Prop :=
  ∀ (c : Colour) (x y w h : Byte) (s : State), s.ready →
    s.whenStrict (x.toNat + w.toNat ≤ 240 ∧ y.toNat + h.toNat ≤ 128) →
    ∃ t, exec (.rect c x y w h) s = .next t ∧ Completed 5 s t ∧
      t.ndr = (if w.toNat = 0 ∨ h.toNat = 0 then s.ndr else true) ∧ (w.toNat = 0 ∨ h.toNat = 0 → t.cur = s.cur) ∧
      t.trace = s.trace ++ rectTrace s.par s.dev x.toNat y.toNat w.toNat h.toNat c ∧
      Paints s t (OnOutline x.toNat y.toNat w.toNat h.toNat) (fun _ => c.bit)

/-- FILLRECT (R183, R184): the events are those of one horizontal line a row, top to bottom; exactly the pixels of the rectangle take the
colour. NDR becomes 1 when the rectangle is not empty; else NDR and CUR stay. CUR otherwise: `DummyReadDiscipline`. -/
def Obligations.FillrectCompletes : Prop :=
  ∀ (c : Colour) (x y w h : Byte) (s : State), s.ready →
    s.whenStrict (x.toNat + w.toNat ≤ 240 ∧ y.toNat + h.toNat ≤ 128) →
    ∃ t, exec (.fillrect c x y w h) s = .next t ∧ Completed 5 s t ∧
      t.ndr = (if w.toNat = 0 ∨ h.toNat = 0 then s.ndr else true) ∧ (w.toNat = 0 ∨ h.toNat = 0 → t.cur = s.cur) ∧
      t.trace = s.trace ++ rowsTrace s.par s.dev x.toNat y.toNat w.toNat h.toNat (fun _ => solid c) ∧
      Paints s t (InRect x.toNat y.toNat w.toNat h.toNat) (fun _ => c.bit)

/-- PATFILL (R184, R185): the events are those of one horizontal line a row, top to bottom, in the pattern byte of the absolute row; each
pixel of the rectangle takes bit `X mod 8` of the pattern byte of its absolute row, tile row `Y & m`; every other bit stays. In general
each pixel index takes the bit of the row drawn last there, which on the surface is its own row. NDR becomes 1 when the rectangle is not
empty; else NDR and CUR stay. CUR otherwise: `DummyReadDiscipline`. -/
def Obligations.PatfillCompletes : Prop :=
  ∀ (x y w h : Byte) (pp : Word) (s : State), s.ready →
    s.whenStrict (x.toNat + w.toNat ≤ 240 ∧ y.toNat + h.toNat ≤ 128 ∧
      (romRead s.rom pp).toNat ∈ [0, 1, 3, 7, 15, 31, 63, 127, 255]) →
    let rowByte := fun Y : Nat => romRead s.rom (pp + 1 + BitVec.ofNat 16 (Y &&& (romRead s.rom pp).toNat))
    ∃ t, exec (.patfill x y w h pp) s = .next t ∧ Completed 7 s t ∧
      t.ndr = (if w.toNat = 0 ∨ h.toNat = 0 then s.ndr else true) ∧ (w.toNat = 0 ∨ h.toNat = 0 → t.cur = s.cur) ∧
      t.trace = s.trace ++ rowsTrace s.par s.dev x.toNat y.toNat w.toNat h.toNat rowByte ∧
      (∀ q, t.dev.mem.pixel q =
        match lastRowAt x.toNat y.toNat w.toNat h.toNat q with
        | some k => (rowByte (y.toNat + k)).getLsbD (q % 8)
        | none => s.dev.mem.pixel q) ∧
      (x.toNat + w.toNat ≤ 240 →
        Paints s t (InRect x.toNat y.toNat w.toNat h.toNat) (fun q => (rowByte (q / 240)).getLsbD (q % 8)))

/-- Patterns (R186 (a), (c)): for a power-of-two row count the pattern byte of a row is that of the row `rowCount` further down; a
pattern whose rows are all solid in one colour is drawn exactly as the solid fill, in any state, trace and all. -/
def Obligations.PatternProperties : Prop :=
  (∀ (rom : Memory) (pp : Word) (i : Nat), (romRead rom pp).toNat ∈ [0, 1, 3, 7, 15, 31, 63, 127, 255] →
    patternByte rom pp (i + ((romRead rom pp).toNat + 1)) = patternByte rom pp i) ∧
  (∀ (rom : Memory) (pp : Word) (c : Colour) (x y w h : Nat) (s : State),
    (∀ r ≤ (romRead rom pp).toNat, romRead rom (pp + 1 + BitVec.ofNat 16 r) = solid c) →
    patFillEvents rom x y w h pp s = fillEvents x y w h c s)

/-- TEXT (R205, R207, R208): the events are those of one display row after another, each head, body and tail (`textTrace`); pixel `(x +
J*GW + k, y + R)` takes bit `k` of row `R` of the glyph of character `J`, in the narrow and the wide encoding and at every `x`; every
other bit stays. In general each pixel index takes the bit of the row drawn last there. NDR becomes 1 when anything is drawn; else NDR
and CUR stay. CUR otherwise: `DummyReadDiscipline`. -/
def Obligations.TextCompletes : Prop :=
  ∀ (x y : Byte) (fp sp : Word) (nch : Byte) (s : State), s.ready →
    let gw := (romRead s.rom fp).toNat
    let gh := (romRead s.rom (fp + 1)).toNat
    let n := nch.toNat * gw
    s.whenStrict (x.toNat + n ≤ 240 ∧ y.toNat + gh ≤ 128) →
    ∃ t, exec (.text x y fp sp nch) s = .next t ∧ Completed 8 s t ∧
      t.ndr = (if n = 0 ∨ gh = 0 then s.ndr else true) ∧ (n = 0 ∨ gh = 0 → t.cur = s.cur) ∧
      t.trace = s.trace ++ textTrace s.par s.rom s.dev x.toNat y.toNat fp sp nch.toNat ∧
      (∀ q, t.dev.mem.pixel q =
        match lastRowAt x.toNat y.toNat n gh q with
        | some R =>
          let col := q - pixelIndex x.toNat (y.toNat + R)
          glyphBit s.rom fp sp (col / gw) R (col % gw)
        | none => s.dev.mem.pixel q) ∧
      (x.toNat + n ≤ 240 →
        (∀ R J k, R < gh → J < nch.toNat → k < gw →
          t.pixelAt (x.toNat + J * gw + k) (y.toNat + R) = glyphBit s.rom fp sp J R k) ∧
        (∀ q, ¬ InRect x.toNat y.toNat n gh q → t.dev.mem.pixel q = s.dev.mem.pixel q))

/-- The number of transport events of TEXT (R206): the same for every row. -/
def Obligations.TextEventCount : Prop :=
  ∀ (x y : Byte) (fp sp : Word) (nch : Byte) (s t : State), s.ready →
    let gw := (romRead s.rom fp).toNat
    let gh := (romRead s.rom (fp + 1)).toNat
    let n := nch.toNat * gw
    let off := x.toNat % 8
    s.whenStrict (x.toNat + n ≤ 240 ∧ y.toNat + gh ≤ 128) → 0 < n →
    exec (.text x y fp sp nch) s = .next t →
    (s.eventsSince t).length =
      gh * ((if off = 0 then 0 else 8) + 5 + (off + n) / 8 + (if (off + n) % 8 = 0 then 0 else 14))

/-- The byte-aligned fast path cannot be observed: in every state the events of TEXT come to the same with it compiled in or not, with
and without busy-waits, also where they stop (R201). -/
def Obligations.FastPathIsNotObservable : Prop :=
  ∀ (rom : Memory) (x y : Nat) (fp sp : Word) (nch : Nat) (s : State),
    textEvents rom true x y fp sp nch s = textEvents rom false x y fp sp nch s

/-- `Fold` (R203): with at most 7 pending bits and an accumulator below `2^PEND` before, the same holds after; the bits are appended above
the pending ones, below `2^15` in all; eight of them are emitted as one byte as soon as there are eight, and the address moves on by the
bytes emitted. -/
def Obligations.FoldInvariant : Prop :=
  ∀ (k : Packer) (value : Byte) (nb : Nat) (s : State), s.noWait → s.par.distinct → s.dev.ir = some s.par.cmdWrite →
    k.pend ≤ 7 → k.acc.toNat < 2 ^ k.pend → nb ≤ 8 →
    let bits := k.acc.toNat + 2 ^ k.pend * (value.toNat % 2 ^ nb)
    ∃ k' t, fold k value nb s = .done k' t ∧ bits < 2 ^ 15 ∧
      k'.pend ≤ 7 ∧ k'.acc.toNat < 2 ^ k'.pend ∧
      k'.pend = (k.pend + nb) % 8 ∧ k'.a = k.a + BitVec.ofNat 16 ((k.pend + nb) / 8) ∧
      (k.pend + nb < 8 → t = s ∧ k'.acc.toNat = bits) ∧
      (8 ≤ k.pend + nb →
        k'.acc.toNat = bits / 256 ∧ t.trace = s.trace ++ [.write .data (BitVec.ofNat 8 bits)] ∧
        t.dev.dc = s.dev.dc + 1 ∧ StoresOnly s t s.dev.dc (BitVec.ofNat 8 bits))

/-- A drawing command with nothing to draw issues nothing and changes no register but CP, with and without busy-waits (R154, R157,
R182, R183, R186 (e), R208 (a)); the bounds check is made all the same (R231). -/
def Obligations.NothingToDraw : Prop :=
  ∀ s : State, s.inited = true →
    let ended := fun len : Nat =>
      Host.Outcome.next (φ := Fault) (ρ := Refusal) { s with cp := s.cp + len, activity := .idle }
    (∀ x y pat : Byte, s.whenStrict (x.toNat ≤ 240 ∧ y.toNat < 128) → exec (.hline x y 0 pat) s = ended 5) ∧
    (∀ (c : Colour) (x y : Byte), s.whenStrict (x.toNat < 240 ∧ y.toNat ≤ 128) → exec (.vline c x y 0) s = ended 4) ∧
    (∀ (c : Colour) (x y w h : Byte), s.whenStrict (x.toNat + w.toNat ≤ 240 ∧ y.toNat + h.toNat ≤ 128) → w = 0 ∨ h = 0 →
      exec (.rect c x y w h) s = ended 5 ∧ exec (.fillrect c x y w h) s = ended 5) ∧
    (∀ (x y w h : Byte) (pp : Word),
      s.whenStrict (x.toNat + w.toNat ≤ 240 ∧ y.toNat + h.toNat ≤ 128 ∧
        (romRead s.rom pp).toNat ∈ [0, 1, 3, 7, 15, 31, 63, 127, 255]) →
      w = 0 ∨ h = 0 → exec (.patfill x y w h pp) s = ended 7) ∧
    (∀ (x y : Byte) (fp sp : Word) (nch : Byte),
      s.whenStrict (x.toNat + nch.toNat * (romRead s.rom fp).toNat ≤ 240 ∧
        y.toNat + (romRead s.rom (fp + 1)).toNat ≤ 128) →
      nch = 0 ∨ romRead s.rom fp = 0 ∨ romRead s.rom (fp + 1) = 0 → exec (.text x y fp sp nch) s = ended 8)

/-! ## The whole machine -/

/-- Every step keeps the machine's invariant: memory and ROM in canonical form, ERR a legal code (R26), CP inside the stream (R27), the
endless wait only for cause (R249), INIT at most once and first (R52). -/
def Obligations.EveryStepKeepsTheInvariant : Prop := ∀ s t : State, s.Inv → step s = .next t → t.Inv

/-- The invariant holds right after reset, whatever the parameters, the stream, the busy answers and the canonical memories are. -/
def Obligations.InvariantAtReset : Prop :=
  State.reset.Inv ∧
  ∀ (par : Params) (rom : Memory) (prog : List Byte) (ba : List Bool) (br : Bool) (dev : Device),
    rom.wf = true → dev.mem.wf = true → (State.resetWith par rom prog ba br dev).Inv

/-- No step changes the parameters, the ROM or the command stream (R29, R71, R81); the trace and RESP only grow (R32), and CP never
moves back (R27). -/
def Obligations.StepsKeepTheInputsOfTheRun : Prop :=
  ∀ s t : State, step s = .next t →
    t.par = s.par ∧ t.rom = s.rom ∧ t.prog = s.prog ∧ t.busyRest = s.busyRest ∧
      s.trace <+: t.trace ∧ s.resp <+: t.resp ∧ s.cp ≤ t.cp

/-- Only RDBYTE appends to RESP (R32, R132). One that completes appends exactly one byte, the byte its read transaction, its last event,
returned; one that raises or hangs appends none. The last clause takes in states with an error standing, in which no step executes a
command: there too it is at most that one byte. -/
def Obligations.OnlyRdbyteAppendsToResp : Prop :=
  ∀ (i : Instr) (s t : State), exec i s = .next t →
    (i ≠ .rdbyte → t.resp = s.resp) ∧
    (i = .rdbyte → s.err = 0 →
      if t.activity = .idle ∧ t.err = 0 then
        ∃ v, t.resp = s.resp ++ [v] ∧ (s.eventsSince t).getLast? = some (.read .data v)
      else t.resp = s.resp) ∧
    (i = .rdbyte → t.resp = s.resp ∨ ∃ v, t.resp = s.resp ++ [v] ∧ (s.eventsSince t).getLast? = some (.read .data v))

/-- What a command can put on the transport (R52, R53, R100): command bytes are the six device commands, or in INIT those of
MODE_SETUP; the Command register is never read; `INIT` comes from the INIT command alone; polls only with WAIT_BUSY (R56). -/
def Obligations.TransportProtocol : Prop :=
  ∀ (i : Instr) (s t : State), exec i s = .next t → ∀ e ∈ s.eventsSince t,
    (∀ b, e = .write .command b → if i = .init then b ∈ s.par.modeSetup.map Prod.fst else b ∈ s.par.deviceCommands) ∧
    (∀ b, e ≠ .read .command b) ∧ (e = .init → i = .init) ∧ (∀ b, e = .busy b → s.par.waitBusy = true)

/-- NDR and CUR change only by positioning and by the dummy read (R24, R25). INIT, WRBEGIN, WRBYTE, RDBEGIN, RDBYTE, BITCLR and BITSET
leave CUR; of these, WRBEGIN, WRBYTE, RDBYTE, BITCLR and BITSET leave NDR, and RDBEGIN never sets it. A drawing command leaves NDR set
when it issues a write transaction and ends without an error. After SETCUR, after every drawing command and after every other command but
INIT, also one cut short by a time-out or a hang, CUR is the address of the last set-cursor sequence the command issued, unchanged where
it issued none. -/
def Obligations.DummyReadDiscipline : Prop :=
  ∀ (i : Instr) (s t : State), exec i s = .next t →
    (isComposite i = false → (∀ a, i ≠ .setcur a) → t.cur = s.cur) ∧
    (isComposite i = false → i ≠ .init → i ≠ .rdbegin → (∀ a, i ≠ .setcur a) → t.ndr = s.ndr) ∧
    (i = .rdbegin → t.ndr = true → s.ndr = true) ∧
    (isComposite i = true ∨ (∃ a, i = .setcur a) → t.activity = .idle → t.err = s.err → s.err = 0 →
      t.ndr = if (s.eventsSince t).any Event.isWrite then true else s.ndr) ∧
    (s.par.distinct → i ≠ .init →
      let events := withoutPolls (s.eventsSince t)
      (∀ a, LastCursor s.par events a → t.cur = a) ∧ ((∀ a, ¬ setCursorTrace s.par a <:+: events) → t.cur = s.cur))

/-- Every command but WRBYTE and RDBYTE answers a next state in every state whatever, with every operand and device state: no fault and
no refusal. "No built-in sequence of the sequencer produces them" says R66 of the accesses without meaning, for the drawing commands,
INIT, SETCUR, WRBEGIN, RDBEGIN and the bit commands alike (for the drawing commands also R265). In three kinds of state it takes in, the
next state is the model's own and no rule of the spec. With WAIT_BUSY and no poll limit, on a device busy for ever, the command never ends
(R249): that `exec` answers a next state in the activity `busyWait` is how the model represents the hang (log entry 9, DEDUCED and DESIGN
CHOICE). Device commands that are not distinct and a poll limit of 0 are outside the spec (log entry 8, DESIGN CHOICE). A MODE_SETUP pair on
the read command byte is read as log entry 7 says (DEDUCED). -/
def Obligations.OnlyRawDataCanFault : Prop :=
  ∀ (i : Instr) (s : State), (∀ b, i ≠ .wrbyte b) → i ≠ .rdbyte → ∃ t, exec i s = .next t

/-- With WAIT_BUSY and a device that is never busy, a command does what it does without, one `BUSY=false` event inserted before every
other event (R56). -/
def Obligations.NeverBusyOnlyAddsPolls : Prop :=
  ∀ (i : Instr) (s : State), s.par.waitBusy = true → s.neverBusy →
    exec i s =
      match exec i s.withoutWait with
      | .next t => .next { t with par := s.par, trace := s.trace ++ withPolls (s.withoutWait.eventsSince t) }
      | .fault f => .fault f
      | .refused r => .refused r

/-- With WAIT_BUSY and no poll limit, a device that is busy any finite number of times only delays a command: it does what it does
without WAIT_BUSY, and the trace without the polls is the same (R56, R249, R274: the premise is that TBusy eventually answers
false). -/
def Obligations.EventuallyReadyOnlyDelays : Prop :=
  ∀ (i : Instr) (s t : State), s.par.waitBusy = true → s.par.busyPollLimit = none → s.busyRest = false →
    exec i s.withoutWait = .next t →
    ∃ u, exec i s = .next u ∧ u = { t with par := s.par, trace := u.trace, busyAnswers := u.busyAnswers } ∧
      withoutPolls (s.eventsSince u) = s.withoutWait.eventsSince t ∧ u.busyAnswers <:+ s.busyAnswers

/-- The wait before the first event of a command (R56, R235, R249). With a limit `N`, `N` busy answers raise TimeoutError there: code 3 if
no error stood, `N` polls in the trace, nothing else done. With no limit, on a device busy for ever, the command never ends (R249): the
sequencer stays in the wait, with no error and no other event. That the step then answers a next state in the activity `busyWait`, its
trace as it was and the endless polls left to the steps after it, is how the model represents the hang, log entry 9 (DEDUCED, DESIGN
CHOICE), and no rule of the spec. -/
def Obligations.BusyBeforeTheFirstEvent : Prop :=
  ∀ (i : Instr) (s t : State), s.par.waitBusy = true → exec i s.withoutWait = .next t → t.trace ≠ s.trace →
    (∀ (N : Nat) (later : List Bool), 0 < N → s.par.busyPollLimit = some N → s.busyAnswers = List.replicate N true ++ later →
      exec i s =
        .next { s with
          err := if s.err = 0 then 3 else s.err, cp := s.cp + (encode i).length, activity := .idle,
          trace := s.trace ++ List.replicate N (.busy true), busyAnswers := later }) ∧
    (s.par.busyPollLimit = none → s.busyAnswers = [] → s.busyRest = true →
      exec i s = .next { s with activity := .busyWait })

/-- A time-out or a hang cuts a command short and does nothing else to the transport: whatever the busy answers, the events other than
polls are a prefix of those the command issues without WAIT_BUSY (R235, R237, R249). -/
def Obligations.WaitingOnlyCutsShort : Prop :=
  ∀ (i : Instr) (s t u : State), exec i s.withoutWait = .next t → exec i s = .next u →
    withoutPolls (s.eventsSince u) <+: s.withoutWait.eventsSince t

/-- The drawing commands and SETCUR depend on no device state left by an earlier command: started with the same memory but any device
cursor, selected command and latch, they leave the same memory and the same registers, and their events agree one by one, the bytes read
included, but for the byte of a discarded read, which reaches nothing (R67, R265, U6). -/
def Obligations.DeviceHistoryIsInvisible : Prop :=
  ∀ (i : Instr) (s t : State) (d : Device), s.par.distinct → isComposite i = true ∨ (∃ a, i = .setcur a) →
    d.mem = s.dev.mem → exec i s = .next t →
    ∃ u, exec i { s with dev := d } = .next u ∧ u = { t with dev := u.dev, trace := u.trace } ∧ u.dev.mem = t.dev.mem ∧
      u.trace.length = t.trace.length ∧ u.trace.filter Event.isWrite = t.trace.filter Event.isWrite ∧
      hideDiscarded s.par s.ndr (s.eventsSince u) = hideDiscarded s.par s.ndr (s.eventsSince t)

/-- The device is what the trace makes of it: after any command the device state is that of the events issued, applied in order, each
complete before the next (R51, R54, R78, R79). -/
def Obligations.TheTraceDeterminesTheDevice : Prop :=
  ∀ (i : Instr) (s t : State), exec i s = .next t → t.dev = s.dev.afterEvents s.par (s.eventsSince t)
end

