-- ==== Sys2Proof/Laws/Memory.lean ====
section
/-! SUPPORT. The laws of memory: read after write, the canonical form, and pixels after a write. -/

namespace Sys2Proof.Machine

theorem Memory.readAt_insertCell (c : Host.Cell) (m : Memory) (a : Nat) (h : ∀ d ∈ m, d.1 ≠ c.1) :
    Memory.readAt (Memory.insertCell c m) a = if c.1 = a then c.2 else Memory.readAt m a := by
  induction m with
  | nil => simp [insertCell, readAt]
  | cons d m ih =>
    have hd : d.1 ≠ c.1 := h d (by simp)
    have hm : ∀ e ∈ m, e.1 ≠ c.1 := fun e he => h e (by simp [he])
    simp only [insertCell]
    split
    · simp [readAt]
    · simp only [readAt, ih hm]
      by_cases hda : d.1 = a
      · subst hda; simp [Ne.symm hd]
      · simp [hda]

theorem Memory.readAt_filter_ne (m : Memory) (a b : Nat) (h : a ≠ b) :
    Memory.readAt (m.filter (fun c => c.1 != a)) b = Memory.readAt m b := by
  induction m with
  | nil => rfl
  | cons d m ih =>
    by_cases hd : d.1 = a
    · simp [hd, readAt, ih, h]
    · simp [hd, readAt, ih]

theorem Memory.readAt_filter_same (m : Memory) (a : Nat) :
    Memory.readAt (m.filter (fun c => c.1 != a)) a = Config.unlisted := by
  induction m with
  | nil => rfl
  | cons d m ih =>
    by_cases hd : d.1 = a
    · simp [hd, ih]
    · simp [hd, readAt, ih]

/-- Read after write: the byte written at its address, every other byte as before. -/
theorem Memory.readAt_writeAt (m : Memory) (a b : Nat) (v : Byte) :
    Memory.readAt (Memory.writeAt m a v) b = if a = b then v else Memory.readAt m b := by
  have hne : ∀ d ∈ m.filter (fun c => c.1 != a), d.1 ≠ a := by
    intro d hd
    simpa using (List.mem_filter.mp hd).2
  unfold writeAt
  by_cases hv : v = Config.unlisted
  · by_cases hab : a = b
    · subst hab; simp [hv, readAt_filter_same]
    · simp [hv, hab, readAt_filter_ne _ _ _ hab]
  · simp only [hv, if_false, readAt_insertCell (a, v) _ b hne]
    by_cases hab : a = b
    · simp [hab]
    · simp [hab, readAt_filter_ne _ _ _ hab]

theorem Memory.readAt_write (m : Memory) (a : Word) (v : Byte) (b : Nat) :
    Memory.readAt (m.write a v) b = if a.toNat = b then v else Memory.readAt m b :=
  Memory.readAt_writeAt m a.toNat b v

theorem Memory.read_write (m : Memory) (a b : Word) (v : Byte) :
    (m.write a v).read b = if a = b then v else m.read b := by
  simp [Memory.read, Memory.readAt_write, BitVec.toNat_inj]

@[simp] theorem Memory.read_write_same (m : Memory) (a : Word) (v : Byte) : (m.write a v).read a = v := by
  simp [Memory.read_write]

theorem Memory.read_write_ne (m : Memory) {a b : Word} (v : Byte) (h : a ≠ b) : (m.write a v).read b = m.read b := by
  simp [Memory.read_write, h]

/-! ## The canonical form -/

theorem Memory.wf_iff (m : Memory) : m.wf = true ↔
    m.Pairwise (fun c d => c.1 < d.1) ∧ ∀ c ∈ m, c.1 < 65536 ∧ c.2 ≠ Config.unlisted := by
  simp [Memory.wf]

theorem Memory.wf_nil : Memory.wf [] = true := rfl

theorem Memory.mem_insertCell (c d : Host.Cell) (m : Memory) : d ∈ Memory.insertCell c m ↔ d = c ∨ d ∈ m := by
  induction m with
  | nil => simp [insertCell]
  | cons e m ih =>
    simp only [insertCell]
    split
    · simp
    · simp [ih]; tauto

theorem Memory.pairwise_insertCell (c : Host.Cell) (m : Memory) (h : m.Pairwise (fun c d => c.1 < d.1))
    (hc : ∀ d ∈ m, d.1 ≠ c.1) : (Memory.insertCell c m).Pairwise (fun c d => c.1 < d.1) := by
  induction m with
  | nil => simp [insertCell]
  | cons d m ih =>
    rw [List.pairwise_cons] at h
    have hd : d.1 ≠ c.1 := hc d (by simp)
    simp only [insertCell]
    split
    · rename_i hlt
      refine List.pairwise_cons.mpr ⟨?_, List.pairwise_cons.mpr h⟩
      intro e he
      rcases List.mem_cons.mp he with rfl | he
      · exact hlt
      · exact lt_trans hlt (h.1 e he)
    · rename_i hlt
      refine List.pairwise_cons.mpr ⟨?_, ih h.2 (fun e he => hc e (by simp [he]))⟩
      intro e he
      rcases (Memory.mem_insertCell c e m).mp he with rfl | he
      · omega
      · exact h.1 e he

/-- A write keeps the canonical form. -/
theorem Memory.wf_write (m : Memory) (a : Word) (v : Byte) (h : m.wf = true) : (m.write a v).wf = true := by
  rw [Memory.wf_iff] at *
  have hf : (m.filter (fun c => c.1 != a.toNat)).Pairwise (fun c d => c.1 < d.1) := h.1.filter _
  have hm : ∀ c ∈ m.filter (fun c => c.1 != a.toNat), c ∈ m ∧ c.1 ≠ a.toNat := by
    intro c hc
    simpa using List.mem_filter.mp hc
  unfold write writeAt
  by_cases hv : v = Config.unlisted
  · simp only [hv, if_true]
    exact ⟨hf, fun c hc => h.2 c (hm c hc).1⟩
  · simp only [hv, if_false]
    refine ⟨pairwise_insertCell _ _ hf (fun d hd => (hm d hd).2), ?_⟩
    intro c hc
    rcases (mem_insertCell _ _ _).mp hc with rfl | hc
    · exact ⟨a.isLt, hv⟩
    · exact h.2 c (hm c hc).1

theorem Memory.readAt_eq_unlisted (m : Memory) (a : Nat) (h : ∀ c ∈ m, c.1 ≠ a) : Memory.readAt m a = Config.unlisted := by
  induction m with
  | nil => rfl
  | cons d m ih =>
    simp only [readAt, h d (by simp), if_false]
    exact ih (fun c hc => h c (by simp [hc]))

theorem Memory.wf_tail {c : Host.Cell} {m : Memory} (h : Memory.wf (c :: m) = true) :
    m.wf = true ∧ (∀ d ∈ m, c.1 < d.1) ∧ c.2 ≠ Config.unlisted := by
  rw [Memory.wf_iff, List.pairwise_cons] at h
  rw [Memory.wf_iff]
  exact ⟨⟨h.1.2, fun d hd => h.2 d (by simp [hd])⟩, h.1.1, (h.2 c (by simp)).2⟩

/-- Canonical memories that read alike are equal data. -/
theorem Memory.eq_of_readAt_eq (m n : Memory) (hm : m.wf = true) (hn : n.wf = true)
    (h : ∀ a, Memory.readAt m a = Memory.readAt n a) : m = n := by
  induction m generalizing n with
  | nil =>
    cases n with
    | nil => rfl
    | cons d n =>
      have hd := Memory.wf_tail hn
      have := h d.1
      simp [readAt] at this
      exact absurd this.symm hd.2.2
  | cons c m ih =>
    have hc := Memory.wf_tail hm
    cases n with
    | nil =>
      have := h c.1
      simp [readAt] at this
      exact absurd this hc.2.2
    | cons d n =>
      have hd := Memory.wf_tail hn
      have key : c.1 = d.1 := by
        rcases lt_trichotomy c.1 d.1 with hlt | heq | hgt
        · have := h c.1
          rw [readAt, if_pos rfl, readAt_eq_unlisted (d :: n) c.1] at this
          · exact absurd this hc.2.2
          · intro e he
            rcases List.mem_cons.mp he with rfl | he
            · omega
            · have := hd.2.1 e he; omega
        · exact heq
        · have := h d.1
          rw [readAt_eq_unlisted (c :: m) d.1, readAt, if_pos rfl] at this
          · exact absurd this.symm hd.2.2
          · intro e he
            rcases List.mem_cons.mp he with rfl | he
            · omega
            · have := hc.2.1 e he; omega
      have hv : c.2 = d.2 := by
        have := h c.1
        simpa [readAt, key] using this
      have hcd : c = d := Prod.ext key hv
      subst hcd
      rw [ih n hc.1 hd.1]
      intro a
      by_cases ha : c.1 = a
      · rw [readAt_eq_unlisted m a (fun e he => by have := hc.2.1 e he; omega),
          readAt_eq_unlisted n a (fun e he => by have := hd.2.1 e he; omega)]
      · simpa [readAt, ha] using h a

/-! ## Pixels -/

/-- Pixels after a write: those of the byte written take its bits, all others stay. -/
theorem Memory.pixel_write (m : Memory) (a : Word) (v : Byte) (q : Nat) :
    (m.write a v).pixel q = if a.toNat = q / 8 then v.getLsbD (q % 8) else m.pixel q := by
  simp only [Memory.pixel, Memory.readAt_write, Config.SURF_BASE, Nat.zero_add]
  split <;> rfl

theorem Memory.read_getLsbD (m : Memory) (a : Word) (k : Nat) (hk : k < 8) :
    (m.read a).getLsbD k = m.pixel (8 * a.toNat + k) := by
  simp only [Memory.read, Memory.pixel, Config.SURF_BASE, Nat.zero_add]
  rw [show (8 * a.toNat + k) / 8 = a.toNat by omega, show (8 * a.toNat + k) % 8 = k by omega]

end Sys2Proof.Machine
end

