-- ==== Sys2Proof/Laws/State.lean ====
section
/-! SUPPORT. One lemma per field per update of the state, each true by unfolding the update; and the fields of the status outputs. -/

namespace Sys2Proof.Machine

@[simp] theorem State.emit_par (s : State) (e : Event) : (s.emit e).par = s.par := rfl
@[simp] theorem State.emit_rom (s : State) (e : Event) : (s.emit e).rom = s.rom := rfl
@[simp] theorem State.emit_prog (s : State) (e : Event) : (s.emit e).prog = s.prog := rfl
@[simp] theorem State.emit_busyAnswers (s : State) (e : Event) : (s.emit e).busyAnswers = s.busyAnswers := rfl
@[simp] theorem State.emit_busyRest (s : State) (e : Event) : (s.emit e).busyRest = s.busyRest := rfl
@[simp] theorem State.emit_cp (s : State) (e : Event) : (s.emit e).cp = s.cp := rfl
@[simp] theorem State.emit_ndr (s : State) (e : Event) : (s.emit e).ndr = s.ndr := rfl
@[simp] theorem State.emit_cur (s : State) (e : Event) : (s.emit e).cur = s.cur := rfl
@[simp] theorem State.emit_err (s : State) (e : Event) : (s.emit e).err = s.err := rfl
@[simp] theorem State.emit_inited (s : State) (e : Event) : (s.emit e).inited = s.inited := rfl
@[simp] theorem State.emit_resp (s : State) (e : Event) : (s.emit e).resp = s.resp := rfl
@[simp] theorem State.emit_activity (s : State) (e : Event) : (s.emit e).activity = s.activity := rfl
@[simp] theorem State.emit_trace (s : State) (e : Event) : (s.emit e).trace = s.trace ++ [e] := rfl
@[simp] theorem State.emit_dev (s : State) (e : Event) : (s.emit e).dev = s.dev := rfl

@[simp] theorem State.setDummyReadNeeded_par (s : State) : (s.setDummyReadNeeded).par = s.par := rfl
@[simp] theorem State.setDummyReadNeeded_rom (s : State) : (s.setDummyReadNeeded).rom = s.rom := rfl
@[simp] theorem State.setDummyReadNeeded_prog (s : State) : (s.setDummyReadNeeded).prog = s.prog := rfl
@[simp] theorem State.setDummyReadNeeded_busyAnswers (s : State) : (s.setDummyReadNeeded).busyAnswers = s.busyAnswers := rfl
@[simp] theorem State.setDummyReadNeeded_busyRest (s : State) : (s.setDummyReadNeeded).busyRest = s.busyRest := rfl
@[simp] theorem State.setDummyReadNeeded_cp (s : State) : (s.setDummyReadNeeded).cp = s.cp := rfl
@[simp] theorem State.setDummyReadNeeded_ndr (s : State) : (s.setDummyReadNeeded).ndr = true := rfl
@[simp] theorem State.setDummyReadNeeded_cur (s : State) : (s.setDummyReadNeeded).cur = s.cur := rfl
@[simp] theorem State.setDummyReadNeeded_err (s : State) : (s.setDummyReadNeeded).err = s.err := rfl
@[simp] theorem State.setDummyReadNeeded_inited (s : State) : (s.setDummyReadNeeded).inited = s.inited := rfl
@[simp] theorem State.setDummyReadNeeded_resp (s : State) : (s.setDummyReadNeeded).resp = s.resp := rfl
@[simp] theorem State.setDummyReadNeeded_activity (s : State) : (s.setDummyReadNeeded).activity = s.activity := rfl
@[simp] theorem State.setDummyReadNeeded_trace (s : State) : (s.setDummyReadNeeded).trace = s.trace := rfl
@[simp] theorem State.setDummyReadNeeded_dev (s : State) : (s.setDummyReadNeeded).dev = s.dev := rfl

@[simp] theorem State.clearDummyReadNeeded_par (s : State) : (s.clearDummyReadNeeded).par = s.par := rfl
@[simp] theorem State.clearDummyReadNeeded_rom (s : State) : (s.clearDummyReadNeeded).rom = s.rom := rfl
@[simp] theorem State.clearDummyReadNeeded_prog (s : State) : (s.clearDummyReadNeeded).prog = s.prog := rfl
@[simp] theorem State.clearDummyReadNeeded_busyAnswers (s : State) : (s.clearDummyReadNeeded).busyAnswers = s.busyAnswers := rfl
@[simp] theorem State.clearDummyReadNeeded_busyRest (s : State) : (s.clearDummyReadNeeded).busyRest = s.busyRest := rfl
@[simp] theorem State.clearDummyReadNeeded_cp (s : State) : (s.clearDummyReadNeeded).cp = s.cp := rfl
@[simp] theorem State.clearDummyReadNeeded_ndr (s : State) : (s.clearDummyReadNeeded).ndr = false := rfl
@[simp] theorem State.clearDummyReadNeeded_cur (s : State) : (s.clearDummyReadNeeded).cur = s.cur := rfl
@[simp] theorem State.clearDummyReadNeeded_err (s : State) : (s.clearDummyReadNeeded).err = s.err := rfl
@[simp] theorem State.clearDummyReadNeeded_inited (s : State) : (s.clearDummyReadNeeded).inited = s.inited := rfl
@[simp] theorem State.clearDummyReadNeeded_resp (s : State) : (s.clearDummyReadNeeded).resp = s.resp := rfl
@[simp] theorem State.clearDummyReadNeeded_activity (s : State) : (s.clearDummyReadNeeded).activity = s.activity := rfl
@[simp] theorem State.clearDummyReadNeeded_trace (s : State) : (s.clearDummyReadNeeded).trace = s.trace := rfl
@[simp] theorem State.clearDummyReadNeeded_dev (s : State) : (s.clearDummyReadNeeded).dev = s.dev := rfl

@[simp] theorem State.raise_par (s : State) (e : Err) (len : Nat) : (s.raise e len).par = s.par := rfl
@[simp] theorem State.raise_rom (s : State) (e : Err) (len : Nat) : (s.raise e len).rom = s.rom := rfl
@[simp] theorem State.raise_prog (s : State) (e : Err) (len : Nat) : (s.raise e len).prog = s.prog := rfl
@[simp] theorem State.raise_busyAnswers (s : State) (e : Err) (len : Nat) : (s.raise e len).busyAnswers = s.busyAnswers := rfl
@[simp] theorem State.raise_busyRest (s : State) (e : Err) (len : Nat) : (s.raise e len).busyRest = s.busyRest := rfl
@[simp] theorem State.raise_cp (s : State) (e : Err) (len : Nat) : (s.raise e len).cp = s.cp + len := rfl
@[simp] theorem State.raise_ndr (s : State) (e : Err) (len : Nat) : (s.raise e len).ndr = s.ndr := rfl
@[simp] theorem State.raise_cur (s : State) (e : Err) (len : Nat) : (s.raise e len).cur = s.cur := rfl
@[simp] theorem State.raise_err (s : State) (e : Err) (len : Nat) : (s.raise e len).err = errAfter s.err e := rfl
@[simp] theorem State.raise_inited (s : State) (e : Err) (len : Nat) : (s.raise e len).inited = s.inited := rfl
@[simp] theorem State.raise_resp (s : State) (e : Err) (len : Nat) : (s.raise e len).resp = s.resp := rfl
@[simp] theorem State.raise_activity (s : State) (e : Err) (len : Nat) : (s.raise e len).activity = .idle := rfl
@[simp] theorem State.raise_trace (s : State) (e : Err) (len : Nat) : (s.raise e len).trace = s.trace := rfl
@[simp] theorem State.raise_dev (s : State) (e : Err) (len : Nat) : (s.raise e len).dev = s.dev := rfl

@[simp] theorem State.discardByte_par (s : State) : (s.discardByte).par = s.par := rfl
@[simp] theorem State.discardByte_rom (s : State) : (s.discardByte).rom = s.rom := rfl
@[simp] theorem State.discardByte_prog (s : State) : (s.discardByte).prog = s.prog := rfl
@[simp] theorem State.discardByte_busyAnswers (s : State) : (s.discardByte).busyAnswers = s.busyAnswers := rfl
@[simp] theorem State.discardByte_busyRest (s : State) : (s.discardByte).busyRest = s.busyRest := rfl
@[simp] theorem State.discardByte_cp (s : State) : (s.discardByte).cp = s.cp + 1 := rfl
@[simp] theorem State.discardByte_ndr (s : State) : (s.discardByte).ndr = s.ndr := rfl
@[simp] theorem State.discardByte_cur (s : State) : (s.discardByte).cur = s.cur := rfl
@[simp] theorem State.discardByte_err (s : State) : (s.discardByte).err = s.err := rfl
@[simp] theorem State.discardByte_inited (s : State) : (s.discardByte).inited = s.inited := rfl
@[simp] theorem State.discardByte_resp (s : State) : (s.discardByte).resp = s.resp := rfl
@[simp] theorem State.discardByte_activity (s : State) : (s.discardByte).activity = s.activity := rfl
@[simp] theorem State.discardByte_trace (s : State) : (s.discardByte).trace = s.trace := rfl
@[simp] theorem State.discardByte_dev (s : State) : (s.discardByte).dev = s.dev := rfl

@[simp] theorem State.pollAgain_par (s : State) : (s.pollAgain).par = s.par := rfl
@[simp] theorem State.pollAgain_rom (s : State) : (s.pollAgain).rom = s.rom := rfl
@[simp] theorem State.pollAgain_prog (s : State) : (s.pollAgain).prog = s.prog := rfl
@[simp] theorem State.pollAgain_busyAnswers (s : State) : (s.pollAgain).busyAnswers = s.busyAnswers := rfl
@[simp] theorem State.pollAgain_busyRest (s : State) : (s.pollAgain).busyRest = s.busyRest := rfl
@[simp] theorem State.pollAgain_cp (s : State) : (s.pollAgain).cp = s.cp := rfl
@[simp] theorem State.pollAgain_ndr (s : State) : (s.pollAgain).ndr = s.ndr := rfl
@[simp] theorem State.pollAgain_cur (s : State) : (s.pollAgain).cur = s.cur := rfl
@[simp] theorem State.pollAgain_err (s : State) : (s.pollAgain).err = s.err := rfl
@[simp] theorem State.pollAgain_inited (s : State) : (s.pollAgain).inited = s.inited := rfl
@[simp] theorem State.pollAgain_resp (s : State) : (s.pollAgain).resp = s.resp := rfl
@[simp] theorem State.pollAgain_activity (s : State) : (s.pollAgain).activity = s.activity := rfl
@[simp] theorem State.pollAgain_trace (s : State) : (s.pollAgain).trace = s.trace ++ [.busy true] := rfl
@[simp] theorem State.pollAgain_dev (s : State) : (s.pollAgain).dev = s.dev := rfl

@[simp] theorem State.unknownOpcode_par (s : State) : (s.unknownOpcode).par = s.par := rfl
@[simp] theorem State.unknownOpcode_rom (s : State) : (s.unknownOpcode).rom = s.rom := rfl
@[simp] theorem State.unknownOpcode_prog (s : State) : (s.unknownOpcode).prog = s.prog := rfl
@[simp] theorem State.unknownOpcode_busyAnswers (s : State) : (s.unknownOpcode).busyAnswers = s.busyAnswers := rfl
@[simp] theorem State.unknownOpcode_busyRest (s : State) : (s.unknownOpcode).busyRest = s.busyRest := rfl
@[simp] theorem State.unknownOpcode_cp (s : State) : (s.unknownOpcode).cp = s.cp + 1 := rfl
@[simp] theorem State.unknownOpcode_ndr (s : State) : (s.unknownOpcode).ndr = s.ndr := rfl
@[simp] theorem State.unknownOpcode_cur (s : State) : (s.unknownOpcode).cur = s.cur := rfl
@[simp] theorem State.unknownOpcode_err (s : State) : (s.unknownOpcode).err = errAfter s.err .illegalCommand := rfl
@[simp] theorem State.unknownOpcode_inited (s : State) : (s.unknownOpcode).inited = s.inited := rfl
@[simp] theorem State.unknownOpcode_resp (s : State) : (s.unknownOpcode).resp = s.resp := rfl
@[simp] theorem State.unknownOpcode_activity (s : State) : (s.unknownOpcode).activity = .idle := rfl
@[simp] theorem State.unknownOpcode_trace (s : State) : (s.unknownOpcode).trace = s.trace := rfl
@[simp] theorem State.unknownOpcode_dev (s : State) : (s.unknownOpcode).dev = s.dev := rfl

@[simp] theorem State.applyReset_par (s : State) : (s.applyReset).par = s.par := rfl
@[simp] theorem State.applyReset_rom (s : State) : (s.applyReset).rom = s.rom := rfl
@[simp] theorem State.applyReset_prog (s : State) : (s.applyReset).prog = s.prog := rfl
@[simp] theorem State.applyReset_busyAnswers (s : State) : (s.applyReset).busyAnswers = s.busyAnswers := rfl
@[simp] theorem State.applyReset_busyRest (s : State) : (s.applyReset).busyRest = s.busyRest := rfl
@[simp] theorem State.applyReset_cp (s : State) : (s.applyReset).cp = 0 := rfl
@[simp] theorem State.applyReset_ndr (s : State) : (s.applyReset).ndr = true := rfl
@[simp] theorem State.applyReset_cur (s : State) : (s.applyReset).cur = 0 := rfl
@[simp] theorem State.applyReset_err (s : State) : (s.applyReset).err = 0 := rfl
@[simp] theorem State.applyReset_inited (s : State) : (s.applyReset).inited = false := rfl
@[simp] theorem State.applyReset_resp (s : State) : (s.applyReset).resp = [] := rfl
@[simp] theorem State.applyReset_activity (s : State) : (s.applyReset).activity = .idle := rfl
@[simp] theorem State.applyReset_trace (s : State) : (s.applyReset).trace = [] := rfl
@[simp] theorem State.applyReset_dev (s : State) : (s.applyReset).dev = s.dev := rfl

@[simp] theorem State.withFetchWord_par (s : State) (nbits w : Nat) : (s.withFetchWord nbits w).par = s.par := rfl
@[simp] theorem State.withFetchWord_rom (s : State) (nbits w : Nat) : (s.withFetchWord nbits w).rom = s.rom := rfl
@[simp] theorem State.withFetchWord_prog (s : State) (nbits w : Nat) : (s.withFetchWord nbits w).prog = placeBytes s.prog s.cp (tableWordBytes nbits w) := rfl
@[simp] theorem State.withFetchWord_busyAnswers (s : State) (nbits w : Nat) : (s.withFetchWord nbits w).busyAnswers = s.busyAnswers := rfl
@[simp] theorem State.withFetchWord_busyRest (s : State) (nbits w : Nat) : (s.withFetchWord nbits w).busyRest = s.busyRest := rfl
@[simp] theorem State.withFetchWord_cp (s : State) (nbits w : Nat) : (s.withFetchWord nbits w).cp = s.cp := rfl
@[simp] theorem State.withFetchWord_ndr (s : State) (nbits w : Nat) : (s.withFetchWord nbits w).ndr = s.ndr := rfl
@[simp] theorem State.withFetchWord_cur (s : State) (nbits w : Nat) : (s.withFetchWord nbits w).cur = s.cur := rfl
@[simp] theorem State.withFetchWord_err (s : State) (nbits w : Nat) : (s.withFetchWord nbits w).err = s.err := rfl
@[simp] theorem State.withFetchWord_inited (s : State) (nbits w : Nat) : (s.withFetchWord nbits w).inited = s.inited := rfl
@[simp] theorem State.withFetchWord_resp (s : State) (nbits w : Nat) : (s.withFetchWord nbits w).resp = s.resp := rfl
@[simp] theorem State.withFetchWord_activity (s : State) (nbits w : Nat) : (s.withFetchWord nbits w).activity = s.activity := rfl
@[simp] theorem State.withFetchWord_trace (s : State) (nbits w : Nat) : (s.withFetchWord nbits w).trace = s.trace := rfl
@[simp] theorem State.withFetchWord_dev (s : State) (nbits w : Nat) : (s.withFetchWord nbits w).dev = s.dev := rfl

@[simp] theorem State.resetWith_par (par : Params) (rom : Memory) (prog : List Byte) (ba : List Bool) (br : Bool) (dev : Device) :
    (State.resetWith par rom prog ba br dev).par = par := rfl
@[simp] theorem State.resetWith_rom (par : Params) (rom : Memory) (prog : List Byte) (ba : List Bool) (br : Bool) (dev : Device) :
    (State.resetWith par rom prog ba br dev).rom = rom := rfl
@[simp] theorem State.resetWith_prog (par : Params) (rom : Memory) (prog : List Byte) (ba : List Bool) (br : Bool) (dev : Device) :
    (State.resetWith par rom prog ba br dev).prog = prog := rfl
@[simp] theorem State.resetWith_busyAnswers (par : Params) (rom : Memory) (prog : List Byte) (ba : List Bool) (br : Bool) (dev : Device) :
    (State.resetWith par rom prog ba br dev).busyAnswers = ba := rfl
@[simp] theorem State.resetWith_busyRest (par : Params) (rom : Memory) (prog : List Byte) (ba : List Bool) (br : Bool) (dev : Device) :
    (State.resetWith par rom prog ba br dev).busyRest = br := rfl
@[simp] theorem State.resetWith_cp (par : Params) (rom : Memory) (prog : List Byte) (ba : List Bool) (br : Bool) (dev : Device) :
    (State.resetWith par rom prog ba br dev).cp = 0 := rfl
@[simp] theorem State.resetWith_ndr (par : Params) (rom : Memory) (prog : List Byte) (ba : List Bool) (br : Bool) (dev : Device) :
    (State.resetWith par rom prog ba br dev).ndr = true := rfl
@[simp] theorem State.resetWith_cur (par : Params) (rom : Memory) (prog : List Byte) (ba : List Bool) (br : Bool) (dev : Device) :
    (State.resetWith par rom prog ba br dev).cur = 0 := rfl
@[simp] theorem State.resetWith_err (par : Params) (rom : Memory) (prog : List Byte) (ba : List Bool) (br : Bool) (dev : Device) :
    (State.resetWith par rom prog ba br dev).err = 0 := rfl
@[simp] theorem State.resetWith_inited (par : Params) (rom : Memory) (prog : List Byte) (ba : List Bool) (br : Bool) (dev : Device) :
    (State.resetWith par rom prog ba br dev).inited = false := rfl
@[simp] theorem State.resetWith_resp (par : Params) (rom : Memory) (prog : List Byte) (ba : List Bool) (br : Bool) (dev : Device) :
    (State.resetWith par rom prog ba br dev).resp = [] := rfl
@[simp] theorem State.resetWith_activity (par : Params) (rom : Memory) (prog : List Byte) (ba : List Bool) (br : Bool) (dev : Device) :
    (State.resetWith par rom prog ba br dev).activity = .idle := rfl
@[simp] theorem State.resetWith_trace (par : Params) (rom : Memory) (prog : List Byte) (ba : List Bool) (br : Bool) (dev : Device) :
    (State.resetWith par rom prog ba br dev).trace = [] := rfl
@[simp] theorem State.resetWith_dev (par : Params) (rom : Memory) (prog : List Byte) (ba : List Bool) (br : Bool) (dev : Device) :
    (State.resetWith par rom prog ba br dev).dev = dev := rfl

@[simp] theorem State.status_errCode (s : State) : s.status.errCode = s.err := rfl
@[simp] theorem State.status_idle (s : State) : s.status.idle = decide (s.activity = .idle) := rfl
@[simp] theorem State.status_ndr (s : State) : s.status.ndr = s.ndr := rfl
@[simp] theorem State.status_inited (s : State) : s.status.inited = s.inited := rfl
@[simp] theorem State.status_cur (s : State) : s.status.cur = s.cur := rfl

@[simp] theorem Device.store_mem (d : Device) (v : Byte) : (d.store v).mem = d.mem.write d.dc v := rfl
@[simp] theorem Device.store_dc (d : Device) (v : Byte) : (d.store v).dc = d.dc + 1 := rfl
@[simp] theorem Device.store_ir (d : Device) (v : Byte) : (d.store v).ir = d.ir := rfl
@[simp] theorem Device.store_latch (d : Device) (v : Byte) : (d.store v).latch = d.latch := rfl

/-- The first error stays (R26). -/
theorem errAfter_of_ne {old : BitVec 3} (h : old ≠ 0) (e : Err) : errAfter old e = old := if_neg h

/-- An error is recorded when none stands (R236). -/
theorem errAfter_zero (e : Err) : errAfter 0 e = e.code := if_pos rfl

theorem errAfter_ne_zero (old : BitVec 3) (e : Err) : errAfter old e ≠ 0 := by
  by_cases h : old = 0
  · subst h; cases e <;> decide
  · rw [errAfter_of_ne h]; exact h

theorem errAfter_legal {old : BitVec 3} (h : old.toNat ≤ 4) (e : Err) : (errAfter old e).toNat ≤ 4 := by
  by_cases h0 : old = 0
  · subst h0; cases e <;> decide
  · rw [errAfter_of_ne h0]; exact h

end Sys2Proof.Machine
end

