-- ==== Sys2Proof/Laws/Device.lean ====
section
/-! SUPPORT. What the reference device does with each device command selected, for distinct device commands. -/

namespace Sys2Proof

theorem le16_getLsbD (lo hi : Byte) (i : Nat) :
    (le16 lo hi).getLsbD i = if i < 8 then lo.getLsbD i else hi.getLsbD (i - 8) := BitVec.getLsbD_append

theorem lo8_getLsbD (v : Word) (i : Nat) : (lo8 v).getLsbD i = (decide (i < 8) && v.getLsbD i) := by
  simp [lo8, BitVec.getLsbD_extractLsb']

theorem hi8_getLsbD (v : Word) (i : Nat) : (hi8 v).getLsbD i = (decide (i < 8) && v.getLsbD (8 + i)) := by
  simp [hi8, BitVec.getLsbD_extractLsb']

/-- The byte order of the device cursor: low and high byte put together again. -/
@[simp] theorem le16_lo8_hi8 (v : Word) : le16 (lo8 v) (hi8 v) = v := by
  apply BitVec.eq_of_getLsbD_eq
  intro i hi
  rw [le16_getLsbD, lo8_getLsbD, hi8_getLsbD]
  split
  · simp [*]
  · rw [show 8 + (i - 8) = i by omega]; simp; omega

@[simp] theorem lo8_le16 (lo hi : Byte) : lo8 (le16 lo hi) = lo := by
  apply BitVec.eq_of_getLsbD_eq
  intro i hi
  rw [lo8_getLsbD, le16_getLsbD, if_pos hi, decide_eq_true hi, Bool.true_and]

@[simp] theorem hi8_le16 (lo hi : Byte) : hi8 (le16 lo hi) = hi := by
  apply BitVec.eq_of_getLsbD_eq
  intro i hi
  rw [hi8_getLsbD, le16_getLsbD, if_neg (by omega), decide_eq_true hi, Bool.true_and, Nat.add_sub_cancel_left]

namespace Machine

variable {p : Params}

@[simp] theorem Device.writeData_curLo (d : Device) (v : Byte) :
    d.writeData p p.cmdCurLo v = some { d with dc := le16 v (hi8 d.dc) } := by simp [Device.writeData]

theorem Device.writeData_curHi (hp : p.distinct) (d : Device) (v : Byte) :
    d.writeData p p.cmdCurHi v = some { d with dc := le16 (lo8 d.dc) v } := by
  simp [Params.distinct, Params.deviceCommands] at hp
  simp [Device.writeData, Ne.symm hp.1.1]

theorem Device.writeData_write (hp : p.distinct) (d : Device) (v : Byte) : d.writeData p p.cmdWrite v = some (d.store v) := by
  simp [Params.distinct, Params.deviceCommands] at hp
  simp [Device.writeData, Ne.symm hp.1.2.1, Ne.symm hp.2.1.1]

theorem Device.writeData_bitSet (hp : p.distinct) (d : Device) (v : Byte) :
    d.writeData p p.cmdBitSet v = some (d.store (d.mem.read d.dc ||| bitOf v)) := by
  simp [Params.distinct, Params.deviceCommands] at hp
  obtain ⟨⟨h1, h2, h3, h4, h5⟩, ⟨h6, h7, h8, h9⟩, ⟨h10, h11, h12⟩, ⟨h13, h14⟩, h15⟩ := hp
  simp [Device.writeData, Ne.symm h5, Ne.symm h9, Ne.symm h12]

theorem Device.writeData_bitClr (hp : p.distinct) (d : Device) (v : Byte) :
    d.writeData p p.cmdBitClr v = some (d.store (d.mem.read d.dc &&& ~~~ bitOf v)) := by
  simp [Params.distinct, Params.deviceCommands] at hp
  obtain ⟨⟨h1, h2, h3, h4, h5⟩, ⟨h6, h7, h8, h9⟩, ⟨h10, h11, h12⟩, ⟨h13, h14⟩, h15⟩ := hp
  simp [Device.writeData, Ne.symm h4, Ne.symm h8, Ne.symm h11, h15]

/-- Everything a write transaction can do: a selection, or one of the effects of R62 to R64 and R66. -/
theorem Device.write_cases {p : Params} {d d' : Device} {r : Reg} {v : Byte} (h : d.write p r v = some d') :
    (r = .command ∧ d' = { d with ir := some v }) ∨
    (r = .data ∧ (d' = { d with dc := le16 v (hi8 d.dc) } ∨ d' = { d with dc := le16 (lo8 d.dc) v } ∨
      (∃ b, d' = d.store b) ∨ d' = d)) := by
  cases r with
  | command => left; simpa [Device.write, eq_comm] using h
  | data =>
    right
    refine ⟨rfl, ?_⟩
    simp only [Device.write] at h
    split at h
    · cases h
    · simp only [Device.writeData] at h
      split at h
      · left; simpa [eq_comm] using h
      split at h
      · right; left; simpa [eq_comm] using h
      split at h
      · right; right; left; exact ⟨v, by simpa [eq_comm] using h⟩
      split at h
      · right; right; left; exact ⟨_, by simpa [eq_comm] using h⟩
      split at h
      · right; right; left; exact ⟨_, by simpa [eq_comm] using h⟩
      split at h
      · right; right; right; simpa [eq_comm] using h
      · cases h

/-- Everything a read transaction can do: the data register under the read command, the latch returned and reloaded (R65). -/
theorem Device.read_cases {p : Params} {d d' : Device} {r : Reg} {v : Byte} (h : d.read p r = some (v, d')) :
    r = .data ∧ d.ir = some p.cmdRead ∧ v = d.latch ∧ d' = { d with latch := d.mem.read d.dc, dc := d.dc + 1 } := by
  cases r with
  | command => simp [Device.read] at h
  | data =>
    simp only [Device.read] at h
    split at h
    · rename_i hir
      simp only [Option.some.injEq, Prod.mk.injEq] at h
      exact ⟨rfl, hir, h.1.symm, h.2.symm⟩
    · cases h

/-- A transaction keeps the display memory canonical. -/
theorem Device.write_wf {p : Params} {d d' : Device} {r : Reg} {v : Byte} (h : d.write p r v = some d')
    (hw : d.mem.wf = true) : d'.mem.wf = true := by
  rcases Device.write_cases h with ⟨-, rfl⟩ | ⟨-, rfl | rfl | ⟨b, rfl⟩ | rfl⟩ <;>
    first | exact hw | exact Memory.wf_write _ _ _ hw

end Machine

end Sys2Proof
end

