-- ==== Sys2Proof/Laws/Sequence.lean ====
section
/-! SUPPORT. Running pieces of commands: sequencing, and for each transport operation and helper procedure one lemma that says what it
does when no busy-wait precedes a transaction (R56) and the device commands are distinct (R9). -/

namespace Sys2Proof.Machine

/-! ## Sequencing -/

section sequencing

variable {α β : Type}

theorem andThen_done {m : Seq α} {f : α → Seq β} {s t : State} {a : α} (h : m s = .done a t) : andThen m f s = f a t := by
  simp only [andThen, h]

theorem andThen_stopped {m : Seq α} {f : α → Seq β} {s t : State} {e : Halt} (h : m s = .stopped e t) :
    andThen m f s = .stopped e t := by
  simp only [andThen, h]

/-- A sequence runs to its end exactly when both of its parts do. -/
theorem andThen_eq_done_iff (m : Seq α) (f : α → Seq β) (s t : State) (b : β) :
    andThen m f s = .done b t ↔ ∃ a u, m s = .done a u ∧ f a u = .done b t := by
  cases h : m s with
  | done a u => simp [andThen, h]
  | stopped e u => simp [andThen, h]

/-- A sequence stops in its first part, or in its second after the first has run to its end. -/
theorem andThen_eq_stopped_iff (m : Seq α) (f : α → Seq β) (s t : State) (e : Halt) :
    andThen m f s = .stopped e t ↔ m s = .stopped e t ∨ ∃ a u, m s = .done a u ∧ f a u = .stopped e t := by
  cases h : m s with
  | done a u => simp [andThen, h]
  | stopped e' u => simp [andThen, h]

@[simp] theorem yield_eq (a : α) (s : State) : yield a s = .done a s := rfl

@[simp] theorem skip_eq (s : State) : skip s = .done () s := rfl

@[simp] theorem inOrder_nil : inOrder [] = skip := rfl

theorem inOrder_done {m : Seq Unit} {ms : List (Seq Unit)} {s t : State} (h : m s = .done () t) :
    inOrder (m :: ms) s = inOrder ms t := by
  rw [inOrder, andThen_done h]

/-- A list of pieces runs to its end exactly when the first piece does and then the others. -/
theorem inOrder_cons_eq_done_iff (m : Seq Unit) (ms : List (Seq Unit)) (s t : State) :
    inOrder (m :: ms) s = .done () t ↔ ∃ u, m s = .done () u ∧ inOrder ms u = .done () t := by
  rw [inOrder, andThen_eq_done_iff]
  exact ⟨fun ⟨_, u, h⟩ => ⟨u, h⟩, fun ⟨u, h⟩ => ⟨(), u, h⟩⟩

@[simp] theorem update_eq (f : State → State) (s : State) : update f s = .done () (f s) := rfl

end sequencing

/-! ## Transport operations without a busy-wait -/

section noWait

variable {s : State}

theorem waitBusy_noWait (h : s.noWait) : waitBusy s = .done () s := by
  have h : s.par.waitBusy = false := h
  simp [waitBusy, h]

theorem tw_command_noWait (h : s.noWait) (b : Byte) :
    tw .command b s = .done () { s with trace := s.trace ++ [.write .command b], dev := { s.dev with ir := some b } } := by
  rw [tw, andThen_done (waitBusy_noWait h)]; rfl

theorem select_noWait (h : s.noWait) (k : Params → Byte) :
    select k s =
      .done () { s with trace := s.trace ++ [.write .command (k s.par)], dev := { s.dev with ir := some (k s.par) } } :=
  tw_command_noWait h (k s.par)

/-- A write of the Data register with device command `k` selected. -/
theorem tw_data_noWait (h : s.noWait) {k : Byte} (hk : s.dev.ir = some k) {b : Byte} {d : Device}
    (hd : s.dev.writeData s.par k b = some d) :
    tw .data b s = .done () { s with trace := s.trace ++ [.write .data b], dev := d } := by
  rw [tw, andThen_done (waitBusy_noWait h)]
  simp only [writeTransaction, Device.write, hk, hd]; rfl

theorem tr_data_noWait (h : s.noWait) (hir : s.dev.ir = some s.par.cmdRead) :
    tr .data s = .done s.dev.latch
      { s with
        trace := s.trace ++ [.read .data s.dev.latch],
        dev := { s.dev with latch := s.dev.mem.read s.dev.dc, dc := s.dev.dc + 1 } } := by
  rw [tr, andThen_done (waitBusy_noWait h)]
  simp only [readTransaction, Device.read, hir, if_true]; rfl

theorem tInit_noWait (h : s.noWait) : tInit s = .done () { s with trace := s.trace ++ [.init] } := by
  rw [tInit, andThen_done (waitBusy_noWait h)]; rfl

/-! ## Helper procedures -/

/-- `SetCursorAddress(v)` (R121): the four events, CUR, NDR, and the device cursor. -/
theorem setCursorAddress_noWait (h : s.noWait) (hp : s.par.distinct) (v : Word) :
    setCursorAddress v s = .done ()
      { s with
        trace := s.trace ++ setCursorTrace s.par v, cur := v, ndr := true,
        dev := { s.dev with dc := v, ir := some s.par.cmdCurHi } } := by
  unfold setCursorAddress
  rw [inOrder_done (select_noWait (by exact h) Params.cmdCurLo)]
  rw [inOrder_done (tw_data_noWait (by exact h) (by rfl) (Device.writeData_curLo _ _))]
  dsimp only
  rw [inOrder_done (select_noWait (by exact h) Params.cmdCurHi)]
  dsimp only
  rw [inOrder_done (tw_data_noWait (by exact h) (by rfl) (Device.writeData_curHi (by exact hp) _ _))]
  rw [inOrder_done (update_eq _ _), inOrder_done (update_eq _ _)]
  simp [State.setDummyReadNeeded, setCursorTrace]

/-- `BeginWrite()` (R122). -/
theorem beginWrite_noWait (h : s.noWait) :
    beginWrite s = .done ()
      { s with trace := s.trace ++ beginWriteTrace s.par, dev := { s.dev with ir := some s.par.cmdWrite } } :=
  select_noWait h Params.cmdWrite

/-- `WriteData(b)` in an open write stream (R63, R122). -/
theorem writeData_noWait (h : s.noWait) (hp : s.par.distinct) (hir : s.dev.ir = some s.par.cmdWrite) (b : Byte) :
    writeData b s = .done () { s with trace := s.trace ++ [.write .data b], dev := s.dev.store b } :=
  tw_data_noWait h hir (Device.writeData_write hp s.dev b)

/-- The dummy read (R123): it loads the latch from the device cursor, which advances, and clears NDR. -/
theorem dummyRead_noWait (h : s.noWait) :
    dummyRead s = .done ()
      { s with
        trace := s.trace ++ [.write .command s.par.cmdRead, .read .data s.dev.latch], ndr := false,
        dev :=
          { s.dev with ir := some s.par.cmdRead, latch := s.dev.mem.read s.dev.dc, dc := s.dev.dc + 1 } } := by
  unfold dummyRead
  rw [inOrder_done (select_noWait (by exact h) Params.cmdRead)]
  rw [inOrder_done (by rw [andThen_done (tr_data_noWait (by exact h) (by rfl))]; exact skip_eq _), inOrder_done (update_eq _ _)]
  simp [State.clearDummyReadNeeded]

/-- `BeginRead()` (R123): the dummy read exactly when NDR is 1; it loads the latch and advances the device cursor. -/
theorem beginRead_noWait (h : s.noWait) :
    beginRead s = .done ()
      { s with
        trace := s.trace ++ beginReadTrace s.par s.ndr s.dev.latch, ndr := false,
        dev :=
          { s.dev with
            ir := some s.par.cmdRead,
            latch := if s.ndr then s.dev.mem.read s.dev.dc else s.dev.latch,
            dc := if s.ndr then s.dev.dc + 1 else s.dev.dc } } := by
  unfold beginRead
  cases hn : s.ndr with
  | false =>
    have h0 : dummyReadIfNeeded s = .done () s := by simp [dummyReadIfNeeded, hn]
    rw [inOrder_done h0, inOrder_done (select_noWait (by exact h) Params.cmdRead)]
    simp [beginReadTrace, ← hn]
  | true =>
    have h1 : dummyReadIfNeeded s = dummyRead s := by simp [dummyReadIfNeeded, hn]
    rw [inOrder_done (h1.trans (dummyRead_noWait h)), inOrder_done (select_noWait (by exact h) Params.cmdRead)]
    simp [beginReadTrace]

/-- `ReadData()` with the read command selected (R65, R123). -/
theorem readData_noWait (h : s.noWait) (hir : s.dev.ir = some s.par.cmdRead) :
    readData s = .done s.dev.latch
      { s with
        trace := s.trace ++ [.read .data s.dev.latch],
        dev := { s.dev with latch := s.dev.mem.read s.dev.dc, dc := s.dev.dc + 1 } } :=
  tr_data_noWait h hir

/-- The byte a bit operation leaves (R64). -/
def bitOpByte (old : Byte) (k : Byte) : Colour → Byte
  | .black => old ||| bitOf k
  | .white => old &&& ~~~ bitOf k

/-- `BitOp(k, c)` (R124): the bit of the byte at the device cursor, which advances. -/
theorem bitOp_noWait (h : s.noWait) (hp : s.par.distinct) (k : Byte) (c : Colour) :
    bitOp k c s = .done ()
      { s with
        trace := s.trace ++ bitOpTrace s.par k c,
        dev :=
          { s.dev with
            ir := some (bitOpCommand c s.par),
            mem := s.dev.mem.write s.dev.dc (bitOpByte (s.dev.mem.read s.dev.dc) k c), dc := s.dev.dc + 1 } } := by
  unfold bitOp
  rw [inOrder_done (select_noWait (by exact h) (bitOpCommand c))]
  cases c with
  | black =>
    rw [inOrder_done (tw_data_noWait (by exact h) (by rfl) (Device.writeData_bitSet (by exact hp) _ _))]
    simp [bitOpTrace, bitOpByte, bitOpCommand, Device.store]
  | white =>
    rw [inOrder_done (tw_data_noWait (by exact h) (by rfl) (Device.writeData_bitClr (by exact hp) _ _))]
    simp [bitOpTrace, bitOpByte, bitOpCommand, Device.store]

/-- `Pixel(px, py, c)` (R125). -/
theorem pixel_noWait (h : s.noWait) (hp : s.par.distinct) (px py : Nat) (c : Colour) :
    pixel px py c s = .done ()
      { s with
        trace := s.trace ++ pixelTrace s.par px py c, cur := addr px py, ndr := true,
        dev :=
          { s.dev with
            ir := some (bitOpCommand c s.par),
            mem := s.dev.mem.write (addr px py)
              (bitOpByte (s.dev.mem.read (addr px py)) (BitVec.ofNat 8 (px % 8)) c),
            dc := addr px py + 1 } } := by
  unfold pixel
  rw [inOrder_done (setCursorAddress_noWait (by exact h) (by exact hp) (addr px py)), inOrder_done (bitOp_noWait (by exact h) (by exact hp) _ _)]
  simp [pixelTrace]

/-- A positioned read of one byte (R68): the byte at `p`, through one dummy read. -/
theorem readByteAt_noWait (h : s.noWait) (hp : s.par.distinct) (p : Word) :
    readByteAt p s = .done (s.dev.mem.read p)
      { s with
        trace := s.trace ++ (setCursorTrace s.par p ++ beginReadTrace s.par true s.dev.latch
          ++ [.read .data (s.dev.mem.read p)]),
        cur := p, ndr := false,
        dev :=
          { s.dev with ir := some s.par.cmdRead, latch := s.dev.mem.read (p + 1), dc := p + 1 + 1 } } := by
  have h1 : inOrder [setCursorAddress p, beginRead] s = .done ()
      { s with
        trace := s.trace ++ setCursorTrace s.par p ++ beginReadTrace s.par true s.dev.latch, cur := p, ndr := false,
        dev := { s.dev with ir := some s.par.cmdRead, latch := s.dev.mem.read p, dc := p + 1 } } := by
    rw [inOrder_done (setCursorAddress_noWait (by exact h) (by exact hp) p), inOrder_done (beginRead_noWait (by exact h))]
    simp
  rw [readByteAt, andThen_done h1, readData_noWait (by exact h) (by rfl)]
  simp

/-- `RMW(p, msk, v)` (R126): fourteen events; the byte at `p` takes the bits of `v` under the mask, and the device is left in write mode
at `p + 1`. -/
theorem rmw_noWait (h : s.noWait) (hp : s.par.distinct) (p : Word) (msk v : Byte) :
    rmw p msk v s = .done ()
      { s with
        trace := s.trace ++ rmwTrace s.par p s.dev.latch (s.dev.mem.read p) (merge msk v (s.dev.mem.read p)),
        cur := p, ndr := true,
        dev :=
          { mem := s.dev.mem.write p (merge msk v (s.dev.mem.read p)), dc := p + 1, ir := some s.par.cmdWrite,
            latch := s.dev.mem.read (p + 1) } } := by
  rw [rmw, andThen_done (readByteAt_noWait (by exact h) (by exact hp) p), inOrder_done (setCursorAddress_noWait (by exact h) (by exact hp) p),
    inOrder_done (beginWrite_noWait (by exact h)), inOrder_done (writeData_noWait (by exact h) (by exact hp) (by rfl) _)]
  simp [rmwTrace, Device.store]

end noWait

end Sys2Proof.Machine
end

