-- ==== Sys2Proof/Laws/Assembled.lean ====
section
/-! SUPPORT. What every command's events are assembled from: the transport operations, the register updates, the test of NDR and the
parameters. A fact about all commands is one induction over this predicate. -/

namespace Sys2Proof.Machine

/-- A change of parameters that a piece of a command cannot see: only the busy-wait reads WAIT_BUSY. -/
def setWait (p : Params) (b : Bool) : Params := { p with waitBusy := b }

/-- The register updates of the commands. -/
inductive RegisterUpdate : (State → State) → Prop
  | cur (v : Word) : RegisterUpdate (fun s => { s with cur := v })
  | setNdr : RegisterUpdate State.setDummyReadNeeded
  | clearNdr : RegisterUpdate State.clearDummyReadNeeded

/-- A piece of a command is assembled from transport operations other than INIT and reads of the Command register, and from updates of
NDR and CUR. -/
inductive Assembled : {α : Type} → Seq α → Prop
  | yield {α : Type} (a : α) : Assembled (yield a)
  | andThen {α β : Type} {m : Seq α} {f : α → Seq β} : Assembled m → (∀ a, Assembled (f a)) → Assembled (andThen m f)
  | select (k : Params → Byte) (h : ∀ p, k p ∈ p.deviceCommands) (hw : ∀ p b, k (setWait p b) = k p) : Assembled (select k)
  | data (b : Byte) : Assembled (tw .data b)
  | read : Assembled (tr .data)
  | update {f : State → State} : RegisterUpdate f → Assembled (update f)
  | ifNdr {m : Seq Unit} : Assembled m → Assembled (fun s => if s.ndr then m s else skip s)
  | ofPar {α : Type} (g : Params → Seq α) (hw : ∀ p b, g (setWait p b) = g p) (h : ∀ p, Assembled (g p)) :
      Assembled (fun s => g s.par s)

theorem assembled_skip : Assembled skip := .yield ()

theorem assembled_inOrder_cons {m : Seq Unit} {ms : List (Seq Unit)} (hm : Assembled m) (hms : Assembled (inOrder ms)) :
    Assembled (inOrder (m :: ms)) := .andThen hm (fun _ => hms)

theorem assembled_inOrder_one {m : Seq Unit} (hm : Assembled m) : Assembled (inOrder [m]) :=
  assembled_inOrder_cons hm assembled_skip

theorem assembled_inOrder {ms : List (Seq Unit)} (h : ∀ m ∈ ms, Assembled m) : Assembled (inOrder ms) := by
  induction ms with
  | nil => exact assembled_skip
  | cons m ms ih => exact assembled_inOrder_cons (h m (by simp)) (ih (fun m' hm' => h m' (by simp [hm'])))

theorem assembled_ite {α : Type} {c : Prop} [Decidable c] {m n : Seq α} (hm : Assembled m) (hn : Assembled n) :
    Assembled (if c then m else n) := by
  split
  · exact hm
  · exact hn

/-! ## The helper procedures -/

theorem assembled_setCursorAddress (v : Word) : Assembled (setCursorAddress v) :=
  assembled_inOrder_cons (.select _ (fun _ => by simp [Params.deviceCommands]) (fun _ _ => rfl)) (assembled_inOrder_cons (.data _)
    (assembled_inOrder_cons (.select _ (fun _ => by simp [Params.deviceCommands]) (fun _ _ => rfl)) (assembled_inOrder_cons (.data _)
      (assembled_inOrder_cons (.update (.cur v)) (assembled_inOrder_one (.update .setNdr))))))

theorem assembled_beginWrite : Assembled beginWrite := .select _ (fun _ => by simp [Params.deviceCommands]) (fun _ _ => rfl)

theorem assembled_writeData (b : Byte) : Assembled (writeData b) := .data b

theorem assembled_dummyRead : Assembled dummyRead :=
  assembled_inOrder_cons (.select _ (fun _ => by simp [Params.deviceCommands]) (fun _ _ => rfl))
    (assembled_inOrder_cons (.andThen .read (fun _ => assembled_skip)) (assembled_inOrder_one (.update .clearNdr)))

theorem assembled_dummyReadIfNeeded : Assembled dummyReadIfNeeded := .ifNdr assembled_dummyRead

theorem assembled_beginRead : Assembled beginRead :=
  assembled_inOrder_cons assembled_dummyReadIfNeeded
    (assembled_inOrder_one (.select _ (fun _ => by simp [Params.deviceCommands]) (fun _ _ => rfl)))

theorem assembled_readData : Assembled readData := .read

theorem assembled_bitOp (k : Byte) (c : Colour) : Assembled (bitOp k c) :=
  assembled_inOrder_cons
    (.select _ (fun _ => by cases c <;> simp [Params.deviceCommands, bitOpCommand]) (fun _ _ => by cases c <;> rfl))
    (assembled_inOrder_one (.data k))

theorem assembled_pixel (px py : Nat) (c : Colour) : Assembled (pixel px py c) :=
  assembled_inOrder_cons (assembled_setCursorAddress _) (assembled_inOrder_one (assembled_bitOp _ _))

theorem assembled_readByteAt (p : Word) : Assembled (readByteAt p) :=
  .andThen (assembled_inOrder_cons (assembled_setCursorAddress p) (assembled_inOrder_one assembled_beginRead))
    (fun _ => assembled_readData)

theorem assembled_rmw (p : Word) (msk v : Byte) : Assembled (rmw p msk v) :=
  .andThen (assembled_readByteAt p) (fun _ => assembled_inOrder_cons (assembled_setCursorAddress p)
    (assembled_inOrder_cons assembled_beginWrite (assembled_inOrder_one (assembled_writeData _))))

theorem assembled_writeRepeated (n : Nat) (p : Byte) : Assembled (writeRepeated n p) := by
  induction n with
  | zero => exact assembled_skip
  | succ n ih => exact assembled_inOrder_cons (assembled_writeData p) (assembled_inOrder_one ih)

theorem assembled_forRows {body : Nat → Seq Unit} (h : ∀ k, Assembled (body k)) (k n : Nat) : Assembled (forRows body k n) := by
  induction n generalizing k with
  | zero => exact assembled_skip
  | succ n ih => exact assembled_inOrder_cons (h k) (assembled_inOrder_one (ih (k + 1)))

/-! ## Lines -/

theorem assembled_hLineBody (a : Word) (full : Nat) (p : Byte) (streaming : Bool) :
    Assembled (hLineBody a full p streaming) :=
  assembled_ite assembled_skip (assembled_ite (assembled_writeRepeated _ _)
    (assembled_inOrder_cons (assembled_setCursorAddress a)
      (assembled_inOrder_cons assembled_beginWrite (assembled_inOrder_one (assembled_writeRepeated _ _)))))

theorem assembled_hLineTail (a : Word) (rem : Nat) (p : Byte) : Assembled (hLineTail a rem p) :=
  assembled_ite assembled_skip (assembled_rmw _ _ _)

theorem assembled_hLineFrom (a : Word) (len : Nat) (p : Byte) (streaming : Bool) :
    Assembled (hLineFrom a len p streaming) :=
  assembled_inOrder_cons (assembled_hLineBody _ _ _ _) (assembled_inOrder_one (assembled_hLineTail _ _ _))

theorem assembled_hLine (x y len : Nat) (p : Byte) : Assembled (hLine x y len p) :=
  assembled_ite assembled_skip (assembled_ite (assembled_hLineFrom _ _ _ _)
    (assembled_inOrder_cons (assembled_rmw _ _ _) (assembled_inOrder_one (assembled_hLineFrom _ _ _ _))))

theorem assembled_vLine (x y len : Nat) (c : Colour) : Assembled (vLine x y len c) :=
  assembled_forRows (fun _ => assembled_pixel _ _ _) 0 len

theorem assembled_drawPoints (c : Colour) (pts : List (Nat × Nat)) : Assembled (drawPoints c pts) := by
  induction pts with
  | nil => exact assembled_skip
  | cons p pts ih => exact assembled_inOrder_cons (assembled_pixel _ _ _) (assembled_inOrder_one ih)

theorem assembled_verticalLine (x y0 y1 : Nat) (c : Colour) : Assembled (verticalLine x y0 y1 c) :=
  .ofPar (fun p => vLine x (min y0 y1) ((y1 - y0) + (y0 - y1) + 1) (verticalColour p.lineDx0Invert c)) (fun _ _ => rfl)
    (fun _ => assembled_vLine _ _ _ _)

theorem assembled_canonicalLine (x0 y0 x1 y1 : Nat) (c : Colour) : Assembled (canonicalLine x0 y0 x1 y1 c) :=
  assembled_ite (assembled_hLine _ _ _ _) (assembled_ite (assembled_verticalLine _ _ _ _) (assembled_drawPoints _ _))

theorem assembled_lineEvents (x0 y0 x1 y1 : Nat) (c : Colour) : Assembled (lineEvents x0 y0 x1 y1 c) :=
  assembled_ite (assembled_canonicalLine _ _ _ _ _) (assembled_canonicalLine _ _ _ _ _)

/-! ## Rectangles -/

theorem assembled_onlyIf (b : Bool) {m : Seq Unit} (h : Assembled m) : Assembled (onlyIf b m) := assembled_ite h assembled_skip

theorem assembled_rectEvents (x y w h : Nat) (c : Colour) : Assembled (rectEvents x y w h c) :=
  assembled_ite assembled_skip (assembled_inOrder_cons (assembled_hLine _ _ _ _)
    (assembled_inOrder_cons (assembled_onlyIf _ (assembled_hLine _ _ _ _))
      (assembled_inOrder_cons (assembled_onlyIf _ (assembled_vLine _ _ _ _))
        (assembled_inOrder_one (assembled_onlyIf _ (assembled_vLine _ _ _ _))))))

theorem assembled_fillEvents (x y w h : Nat) (c : Colour) : Assembled (fillEvents x y w h c) :=
  assembled_forRows (fun _ => assembled_hLine _ _ _ _) 0 h

theorem assembled_patFillEvents (rom : Memory) (x y w h : Nat) (pp : Word) : Assembled (patFillEvents rom x y w h pp) :=
  assembled_forRows (fun _ => assembled_hLine _ _ _ _) 0 h

/-! ## Text -/

theorem assembled_fold (k : Packer) (value : Byte) (nb : Nat) : Assembled (fold k value nb) :=
  assembled_ite (.andThen (assembled_writeData _) (fun _ => .yield _)) (.yield _)

theorem assembled_foldChunks (cs : List (Byte × Nat)) (k : Packer) : Assembled (foldChunks cs k) := by
  induction cs generalizing k with
  | nil => exact .yield k
  | cons c cs ih => exact .andThen (assembled_fold _ _ _) ih

theorem assembled_textHead (a : Word) (off : Nat) : Assembled (textHead a off) :=
  assembled_ite (.yield _) (.andThen (assembled_readByteAt a) (fun _ => .yield _))

theorem assembled_textTail (k : Packer) : Assembled (textTail k) := assembled_ite assembled_skip (assembled_rmw _ _ _)

theorem assembled_textRow (a : Word) (off : Nat) (cs : List (Byte × Nat)) : Assembled (textRow a off cs) :=
  .andThen (assembled_textHead a off) (fun k => assembled_inOrder_cons (assembled_setCursorAddress a)
    (assembled_inOrder_cons assembled_beginWrite (assembled_inOrder_one (.andThen (assembled_foldChunks cs k) assembled_textTail))))

theorem assembled_writeRowBytes (rom : Memory) (fp sp : Word) (gw gh r j n : Nat) :
    Assembled (writeRowBytes rom fp sp gw gh r j n) := by
  induction n generalizing j with
  | zero => exact assembled_skip
  | succ n ih => exact assembled_inOrder_cons (assembled_writeData _) (assembled_inOrder_one (ih (j + 1)))

theorem assembled_fastTextRow (rom : Memory) (fp sp : Word) (gw gh r nch : Nat) (a : Word) :
    Assembled (fastTextRow rom fp sp gw gh r nch a) :=
  assembled_inOrder_cons (assembled_setCursorAddress a)
    (assembled_inOrder_cons assembled_beginWrite (assembled_inOrder_one (assembled_writeRowBytes _ _ _ _ _ _ _ _)))

theorem assembled_textEvents (rom : Memory) (fast : Bool) (x y : Nat) (fp sp : Word) (nch : Nat) :
    Assembled (textEvents rom fast x y fp sp nch) :=
  assembled_ite assembled_skip (assembled_ite (assembled_forRows (fun _ => assembled_fastTextRow _ _ _ _ _ _ _ _) 0 _)
    (assembled_forRows (fun _ => assembled_textRow _ _ _) 0 _))

end Sys2Proof.Machine
end

