-- ==== Sys2Proof/Laws/Frame.lean ====
section
/-! SUPPORT. What no piece of a command ever changes, and why it can stop: closed under sequencing, and shown once for every helper
procedure and every drawing routine, with and without busy-waits. -/

namespace Sys2Proof.Machine

/-- What every drawing routine leaves alone: the inputs of the run, CP, ERR, INITED, RESP, the activity; the trace only grows, by events
other than INIT; the display memory stays canonical. -/
structure Frame (s t : State) : Prop where
  par : t.par = s.par
  rom : t.rom = s.rom
  prog : t.prog = s.prog
  busyRest : t.busyRest = s.busyRest
  cp : t.cp = s.cp
  err : t.err = s.err
  inited : t.inited = s.inited
  resp : t.resp = s.resp
  activity : t.activity = s.activity
  trace : ∃ es, t.trace = s.trace ++ es ∧ Event.init ∉ es
  wf : s.dev.mem.wf = true → t.dev.mem.wf = true

theorem Frame.refl (s : State) : Frame s s where
  par := rfl
  rom := rfl
  prog := rfl
  busyRest := rfl
  cp := rfl
  err := rfl
  inited := rfl
  resp := rfl
  activity := rfl
  trace := ⟨[], by simp, by simp⟩
  wf := id

theorem Frame.trans {s t u : State} (h : Frame s t) (k : Frame t u) : Frame s u where
  par := k.par.trans h.par
  rom := k.rom.trans h.rom
  prog := k.prog.trans h.prog
  busyRest := k.busyRest.trans h.busyRest
  cp := k.cp.trans h.cp
  err := k.err.trans h.err
  inited := k.inited.trans h.inited
  resp := k.resp.trans h.resp
  activity := k.activity.trans h.activity
  trace := by
    obtain ⟨es, h1, h2⟩ := h.trace
    obtain ⟨fs, k1, k2⟩ := k.trace
    exact ⟨es ++ fs, by rw [k1, h1, List.append_assoc], by simp [h2, k2]⟩
  wf := fun hs => k.wf (h.wf hs)

/-- Why a piece of a command may stop: a time-out, only with WAIT_BUSY (R235); the hang, only with WAIT_BUSY, an exhausted list of
answers, a device busy ever after, and no poll limit (R249); or a transport access without meaning (R66). -/
def StopJustified (t : State) : Halt → Prop
  | .raise e => e = .timeout ∧ t.par.waitBusy = true
  | .hang =>
    t.par.waitBusy = true ∧ t.busyRest = true ∧ t.busyAnswers = [] ∧
      (t.par.busyPollLimit = none ∨ t.par.busyPollLimit = some 0)
  | .fault _ => True

/-- A piece of a command that keeps the frame and stops only for cause. -/
def Framed {α : Type} (m : Seq α) : Prop := ∀ s,
  match m s with
  | .done _ t => Frame s t
  | .stopped e t => Frame s t ∧ StopJustified t e

section closure

variable {α β : Type}

theorem Framed.done {m : Seq α} (h : Framed m) {s t : State} {a : α} (hm : m s = .done a t) : Frame s t := by
  have := h s; rw [hm] at this; exact this

theorem Framed.stopped {m : Seq α} (h : Framed m) {s t : State} {e : Halt} (hm : m s = .stopped e t) :
    Frame s t ∧ StopJustified t e := by
  have := h s; rw [hm] at this; exact this

theorem framed_yield (a : α) : Framed (yield a) := fun s => Frame.refl s

theorem framed_skip : Framed skip := framed_yield ()

theorem Framed.andThen {m : Seq α} {f : α → Seq β} (hm : Framed m) (hf : ∀ a, Framed (f a)) : Framed (andThen m f) := by
  intro s
  cases h : m s with
  | done a t =>
    rw [andThen_done h]
    have h1 := hm.done h
    cases h' : f a t with
    | done b u => exact h1.trans ((hf a).done h')
    | stopped e u => exact ⟨h1.trans ((hf a).stopped h').1, ((hf a).stopped h').2⟩
  | stopped e t =>
    rw [andThen_stopped h]
    exact hm.stopped h

theorem framed_inOrder {ms : List (Seq Unit)} (h : ∀ m ∈ ms, Framed m) : Framed (inOrder ms) := by
  induction ms with
  | nil => exact framed_skip
  | cons m ms ih =>
    exact (h m (by simp)).andThen (fun _ => ih (fun m' hm' => h m' (by simp [hm'])))

end closure

/-! ## The transport -/

/-- What a busy-wait can come to (R56): it ends ready, or times out, or hangs with no answer left, a device busy ever after and no
limit. -/
theorem pollBusy_hung (limit : Option Nat) (rest : Bool) (polls : Nat) (as : List Bool)
    (h : (pollBusy limit rest polls as).how = .hung) (hl : ∀ n, limit = some n → polls < n ∨ n = 0) :
    rest = true ∧ (pollBusy limit rest polls as).left = [] ∧ (limit = none ∨ limit = some 0) := by
  induction as generalizing polls with
  | nil =>
    cases rest with
    | false => simp [pollBusy] at h
    | true =>
      cases limit with
      | none => simp [pollBusy]
      | some n =>
        rcases hl n rfl with h1 | rfl
        · simp [pollBusy, h1] at h
        · simp [pollBusy]
  | cons a as ih =>
    cases a with
    | false => simp [pollBusy] at h
    | true =>
      simp only [pollBusy] at h ⊢
      split at h
      · simp at h
      · rename_i hne
        rw [if_neg hne]
        exact ih (polls + 1) h (fun n hn => by
          rcases hl n hn with h1 | h1
          · left
            have : n ≠ polls + 1 := fun h2 => hne (by rw [hn, h2])
            omega
          · right; exact h1)

theorem framed_waitBusy : Framed waitBusy := by
  intro s
  by_cases hw : s.par.waitBusy = true
  · have hf : Frame s
        { s with
          busyAnswers := (pollBusy s.par.busyPollLimit s.busyRest 0 s.busyAnswers).left,
          trace := s.trace ++ (pollBusy s.par.busyPollLimit s.busyRest 0 s.busyAnswers).polled.map Event.busy } := by
      constructor <;> try rfl
      · exact ⟨_, rfl, by simp⟩
      · exact id
    cases hp : (pollBusy s.par.busyPollLimit s.busyRest 0 s.busyAnswers).how with
    | ready => simp only [waitBusy, hw, if_true, hp]; exact hf
    | timedOut => simp only [waitBusy, hw, if_true, hp]; exact ⟨hf, rfl, hw⟩
    | hung =>
      simp only [waitBusy, hw, if_true, hp]
      have := pollBusy_hung _ _ _ _ hp (fun n _ => by omega)
      exact ⟨hf, hw, this⟩
  · simp only [waitBusy, hw]
    exact Frame.refl s

theorem framed_writeTransaction (r : Reg) (b : Byte) : Framed (writeTransaction r b) := by
  intro s
  unfold writeTransaction
  cases h : s.dev.write s.par r b with
  | some d =>
    constructor <;> try rfl
    · exact ⟨[.write r b], rfl, by simp⟩
    · exact Device.write_wf h
  | none =>
    refine ⟨?_, trivial⟩
    constructor <;> try rfl
    · exact ⟨[.write r b], rfl, by simp⟩
    · exact id

theorem framed_readTransaction (r : Reg) : Framed (readTransaction r) := by
  intro s
  unfold readTransaction
  cases h : s.dev.read s.par r with
  | some vd =>
    obtain ⟨v, d⟩ := vd
    have := Device.read_cases h
    constructor <;> try rfl
    · exact ⟨[.read r v], rfl, by simp⟩
    · intro hw; rw [this.2.2.2]; exact hw
  | none => exact ⟨Frame.refl s, trivial⟩

theorem framed_tw (r : Reg) (b : Byte) : Framed (tw r b) := framed_waitBusy.andThen (fun _ => framed_writeTransaction r b)

theorem framed_tr (r : Reg) : Framed (tr r) := framed_waitBusy.andThen (fun _ => framed_readTransaction r)

theorem framed_select (k : Params → Byte) : Framed (select k) := fun s => framed_tw .command (k s.par) s

theorem framed_registerUpdate {f : State → State} (h : RegisterUpdate f) : Framed (update f) := by
  intro s
  cases h <;> exact { Frame.refl s with }

/-- Every piece assembled from the transport operations and updates of NDR and CUR keeps the frame. -/
theorem Assembled.framed {α : Type} {m : Seq α} (h : Assembled m) : Framed m := by
  induction h with
  | yield a => exact framed_yield a
  | andThen _ _ ihm ihf => exact ihm.andThen ihf
  | select k _ _ => exact framed_select k
  | data b => exact framed_tw .data b
  | read => exact framed_tr .data
  | update hf => exact framed_registerUpdate hf
  | ifNdr _ ih =>
    intro s
    by_cases hn : s.ndr = true
    · simp only [hn, if_true]; exact ih s
    · simp only [hn]; exact Frame.refl s
  | ofPar g _ _ ih => exact fun s => ih s.par s

/-! ## Initialisation -/

theorem framed_sendModeSetup (l : List (Byte × Byte)) : Framed (sendModeSetup l) := by
  induction l with
  | nil => exact framed_skip
  | cons kd l ih => exact (framed_tw _ _).andThen (fun _ => (framed_tw _ _).andThen (fun _ => ih.andThen (fun _ => framed_skip)))

theorem framed_modeSetup : Framed modeSetup := fun s => framed_sendModeSetup s.par.modeSetup s

end Sys2Proof.Machine
end

