-- ==== Sys2Proof/Laws/Command.lean ====
section
/-! SUPPORT. The frame of a command (R96, R236), once: when it raises, when it completes, and everything it can do. -/

namespace Sys2Proof.Machine

theorem firstError_nil : firstError [] = none := rfl

theorem firstError_eq_none_iff (checks : List (Bool × Err)) : firstError checks = none ↔ ∀ c ∈ checks, c.1 = true := by
  induction checks with
  | nil => simp [firstError]
  | cons c checks ih =>
    obtain ⟨b, e⟩ := c
    cases b <;> simp [firstError, ih]

/-- The checks under STRICT hold when STRICT is false, or when each holds (R240). -/
theorem firstError_strictChecks_eq_none {s : State} {checks : List (Bool × Err)}
    (h : s.par.strict = true → ∀ c ∈ checks, c.1 = true) : firstError (strictChecks s checks) = none := by
  rw [firstError_eq_none_iff, strictChecks]
  split
  · exact h (by assumption)
  · simp

/-! ## What each check says (R231, R232) -/

theorem pixelFits_iff (x y : Nat) : pixelFits x y = true ↔ x < 240 ∧ y < 128 := by
  rw [pixelFits, Bool.and_eq_true, decide_eq_true_iff, decide_eq_true_iff]; exact Iff.rfl

theorem hlineFits_iff (x y len : Nat) : hlineFits x y len = true ↔ x + len ≤ 240 ∧ y < 128 := by
  rw [hlineFits, Bool.and_eq_true, decide_eq_true_iff, decide_eq_true_iff]; exact Iff.rfl

theorem vlineFits_iff (x y len : Nat) : vlineFits x y len = true ↔ x < 240 ∧ y + len ≤ 128 := by
  rw [vlineFits, Bool.and_eq_true, decide_eq_true_iff, decide_eq_true_iff]; exact Iff.rfl

theorem lineFits_iff (x0 y0 x1 y1 : Nat) : lineFits x0 y0 x1 y1 = true ↔ x0 < 240 ∧ x1 < 240 ∧ y0 < 128 ∧ y1 < 128 := by
  rw [lineFits, Bool.and_eq_true, pixelFits_iff, pixelFits_iff]; omega

theorem rectFits_iff (x y w h : Nat) : rectFits x y w h = true ↔ x + w ≤ 240 ∧ y + h ≤ 128 := by
  rw [rectFits, Bool.and_eq_true, decide_eq_true_iff, decide_eq_true_iff]; exact Iff.rfl

theorem textFits_iff (x y nch gw gh : Nat) : textFits x y nch gw gh = true ↔ x + nch * gw ≤ 240 ∧ y + gh ≤ 128 :=
  rectFits_iff _ _ _ _

/-- The nine conforming row masks (R73, R232). -/
theorem patternConforms_iff (m : Byte) : patternConforms m.toNat = true ↔ m.toNat ∈ [0, 1, 3, 7, 15, 31, 63, 127, 255] := by
  revert m; decide +kernel

variable {len : Nat} {isInit : Bool} {checks : List (Bool × Err)} {events : Seq Unit} {s : State}

/-- A command in the wrong initialisation state (R233 (b), (c)). -/
theorem runCommand_illegal (h : isInit = s.inited) :
    runCommand len isInit checks events s = .next (s.raise .illegalCommand len) := by
  simp [runCommand, h]

/-- A command whose first failing check raises `e` (R234). -/
theorem runCommand_raises (h : isInit ≠ s.inited) {e : Err} (he : firstError checks = some e) :
    runCommand len isInit checks events s = .next (s.raise e len) := by
  simp [runCommand, h, he]

/-- A command that passes its checks comes to what its events come to. -/
theorem runCommand_runs (h : isInit ≠ s.inited) (hc : firstError checks = none) :
    runCommand len isInit checks events s = endCommand len (events s) := by
  simp [runCommand, h, hc]

/-- A command whose events run to their end (R27). -/
theorem runCommand_done (h : isInit ≠ s.inited) (hc : firstError checks = none) {t : State} (ht : events s = .done () t) :
    runCommand len isInit checks events s = .next { t with cp := t.cp + len, activity := .idle } := by
  rw [runCommand_runs h hc, ht]; rfl

/-- Everything a command can do when it answers a next state: it raised before its first event, or its events ended, raised or hung. -/
theorem runCommand_next {t : State} (h : runCommand len isInit checks events s = .next t) :
    (∃ e, t = s.raise e len) ∨
    (isInit ≠ s.inited ∧ firstError checks = none ∧
      ((∃ u, events s = .done () u ∧ t = { u with cp := u.cp + len, activity := .idle }) ∨
        (∃ e u, events s = .stopped (.raise e) u ∧ t = u.raise e len) ∨
        (∃ u, events s = .stopped .hang u ∧ t = { u with activity := .busyWait }))) := by
  by_cases hi : isInit = s.inited
  · left; rw [runCommand_illegal hi] at h; cases h; exact ⟨_, rfl⟩
  · cases hc : firstError checks with
    | some e => left; rw [runCommand_raises hi hc] at h; cases h; exact ⟨_, rfl⟩
    | none =>
      right
      refine ⟨hi, rfl, ?_⟩
      rw [runCommand_runs hi hc] at h
      cases he : events s with
      | done a u => left; rw [he] at h; cases h; exact ⟨u, rfl, rfl⟩
      | stopped e u =>
        rw [he] at h
        cases e with
        | raise e => right; left; cases h; exact ⟨e, u, rfl, rfl⟩
        | hang => right; right; cases h; exact ⟨u, rfl, rfl⟩
        | fault f => cases h

/-- A command never refuses. -/
theorem runCommand_ne_refused (r : Refusal) : runCommand len isInit checks events s ≠ .refused r := by
  intro h
  by_cases hi : isInit = s.inited
  · rw [runCommand_illegal hi] at h; cases h
  · cases hc : firstError checks with
    | some e => rw [runCommand_raises hi hc] at h; cases h
    | none =>
      rw [runCommand_runs hi hc] at h
      cases he : events s with
      | done a u => rw [he] at h; cases h
      | stopped e u => rw [he] at h; cases e <;> cases h

end Sys2Proof.Machine
end

