-- ==== Sys2Proof/Laws/Exec.lean ====
section
/-! SUPPORT. Every command at once: its checks and its events as functions of the command, and `exec` as the frame of a command over
them; what the events of each command are assembled from. -/

namespace Sys2Proof.Machine

/-- The checks of a command, in order (R95 (b), R231, R232, R234). -/
def commandChecks (s : State) : Instr → List (Bool × Err)
  | .init => []
  | .setcur _ => []
  | .wrbegin => []
  | .wrbyte _ => []
  | .rdbegin => []
  | .rdbyte => []
  | .bitclr n => bitIndexChecks n
  | .bitset n => bitIndexChecks n
  | .pixclr x y => strictChecks s [(pixelFits x.toNat y.toNat, .bounds)]
  | .pixset x y => strictChecks s [(pixelFits x.toNat y.toNat, .bounds)]
  | .hline x y len _ => strictChecks s [(hlineFits x.toNat y.toNat len.toNat, .bounds)]
  | .vline _ x y len => strictChecks s [(vlineFits x.toNat y.toNat len.toNat, .bounds)]
  | .line _ x0 y0 x1 y1 => strictChecks s [(lineFits x0.toNat y0.toNat x1.toNat y1.toNat, .bounds)]
  | .rect _ x y w h => strictChecks s [(rectFits x.toNat y.toNat w.toNat h.toNat, .bounds)]
  | .fillrect _ x y w h => strictChecks s [(rectFits x.toNat y.toNat w.toNat h.toNat, .bounds)]
  | .patfill x y w h pp =>
    strictChecks s
      [(rectFits x.toNat y.toNat w.toNat h.toNat, .bounds), (patternConforms (patternMask s.rom pp), .invalidPattern)]
  | .text x y fp _ nch =>
    strictChecks s [(textFits x.toNat y.toNat nch.toNat (glyphWidth s.rom fp) (glyphHeight s.rom fp), .bounds)]

/-- The events of a command, with the ROM it reads and whether the fast path is compiled in. -/
def commandEvents (rom : Memory) (fast : Bool) : Instr → Seq Unit
  | .init => initEvents
  | .setcur a => setCursorAddress a
  | .wrbegin => beginWrite
  | .wrbyte b => writeData b
  | .rdbegin => beginRead
  | .rdbyte => readByteEvents
  | .bitclr n => bitOp n .white
  | .bitset n => bitOp n .black
  | .pixclr x y => pixel x.toNat y.toNat .white
  | .pixset x y => pixel x.toNat y.toNat .black
  | .hline x y len pat => hLine x.toNat y.toNat len.toNat pat
  | .vline c x y len => vLine x.toNat y.toNat len.toNat c
  | .line c x0 y0 x1 y1 => lineEvents x0.toNat y0.toNat x1.toNat y1.toNat c
  | .rect c x y w h => rectEvents x.toNat y.toNat w.toNat h.toNat c
  | .fillrect c x y w h => fillEvents x.toNat y.toNat w.toNat h.toNat c
  | .patfill x y w h pp => patFillEvents rom x.toNat y.toNat w.toNat h.toNat pp
  | .text x y fp sp nch => textEvents rom fast x.toNat y.toNat fp sp nch.toNat

/-- Every command is the frame of R96 over its checks and its events. -/
theorem exec_eq_runCommand (i : Instr) (s : State) :
    exec i s =
      runCommand (encode i).length (decide (i = .init)) (commandChecks s i) (commandEvents s.rom s.par.fastPath8x16 i) s := by
  cases i <;> rfl

/-- The events of every command but INIT and RDBYTE are assembled from transport operations and updates of NDR and CUR. -/
theorem assembled_commandEvents (rom : Memory) (fast : Bool) (i : Instr) (hi : i ≠ .init) (hr : i ≠ .rdbyte) :
    Assembled (commandEvents rom fast i) := by
  cases i with
  | init => exact absurd rfl hi
  | rdbyte => exact absurd rfl hr
  | setcur a => exact assembled_setCursorAddress a
  | wrbegin => exact assembled_beginWrite
  | wrbyte b => exact assembled_writeData b
  | rdbegin => exact assembled_beginRead
  | bitclr n => exact assembled_bitOp n _
  | bitset n => exact assembled_bitOp n _
  | pixclr x y => exact assembled_pixel _ _ _
  | pixset x y => exact assembled_pixel _ _ _
  | hline x y len pat => exact assembled_hLine _ _ _ _
  | vline c x y len => exact assembled_vLine _ _ _ _
  | line c x0 y0 x1 y1 => exact assembled_lineEvents _ _ _ _ _
  | rect c x y w h => exact assembled_rectEvents _ _ _ _ _
  | fillrect c x y w h => exact assembled_fillEvents _ _ _ _ _
  | patfill x y w h pp => exact assembled_patFillEvents _ _ _ _ _ _
  | text x y fp sp nch => exact assembled_textEvents _ _ _ _ _ _ _

end Sys2Proof.Machine
end

