-- ==== Sys2Proof/Laws/Raster.lean ====
section
/-! SUPPORT. The raster helpers on the reference device, pixel by pixel: the masks and the merge of R126, a streamed run of bytes, the
horizontal line (R152), one addressed pixel (R125), and loops over rows. -/

namespace Sys2Proof.Machine

/-! ## Bits -/

theorem mask_getLsbD {off n k : Nat} (hk : k < 8) :
    (mask off n).getLsbD k = decide (off ≤ k ∧ k < off + n) := by
  rw [mask, BitVec.getLsbD_ofNat, Nat.one_shiftLeft, Nat.testBit_shiftLeft, Nat.testBit_two_pow_sub_one]
  by_cases h1 : off ≤ k
  · by_cases h2 : k < off + n
    · have : k - off < n := by omega
      simp [hk, h1, h2, this]
    · have : ¬ k - off < n := by omega
      simp [hk, h1, h2, this]
  · simp [h1]

theorem merge_getLsbD (msk v cur : Byte) {k : Nat} (hk : k < 8) :
    (merge msk v cur).getLsbD k = if msk.getLsbD k then v.getLsbD k else cur.getLsbD k := by
  simp only [merge, BitVec.getLsbD_or, BitVec.getLsbD_and, BitVec.getLsbD_not, hk, decide_true, Bool.true_and]
  cases msk.getLsbD k <;> simp

theorem solid_getLsbD (c : Colour) {k : Nat} (hk : k < 8) : (solid c).getLsbD k = c.bit := by
  interval_cases k <;> cases c <;> rfl

theorem bitOf_getLsbD {x k : Nat} (hx : x < 8) (hk : k < 8) :
    (bitOf (BitVec.ofNat 8 x)).getLsbD k = decide (k = x) := by
  interval_cases x <;> interval_cases k <;> rfl

theorem bitOpByte_getLsbD (old : Byte) {x k : Nat} (hx : x < 8) (hk : k < 8) (c : Colour) :
    (bitOpByte old (BitVec.ofNat 8 x) c).getLsbD k = if k = x then c.bit else old.getLsbD k := by
  cases c with
  | black =>
    simp only [bitOpByte, BitVec.getLsbD_or, bitOf_getLsbD hx hk, Colour.bit]
    by_cases h : k = x <;> simp [h]
  | white =>
    simp only [bitOpByte, BitVec.getLsbD_and, BitVec.getLsbD_not, bitOf_getLsbD hx hk, Colour.bit, hk, decide_true,
      Bool.true_and]
    by_cases h : k = x <;> simp [h]

theorem addr_toNat {x y : Nat} (h : 30 * y + x / 8 < 65536) : (addr x y).toNat = 30 * y + x / 8 := by
  simp only [addr, Config.SURF_BASE, Config.BPR, BitVec.toNat_ofNat, Nat.zero_add]
  exact Nat.mod_eq_of_lt h

theorem pixelIndex_eq (x y : Nat) : pixelIndex x y = 240 * y + x := rfl

/-! ## What a drawing routine leaves -/

/-- A drawing routine ran from `s` to `t` in `n` events: the frame is kept, the busy answers were not used, NDR is set when anything was
issued, and the pixels are `f`. -/
structure Drawn (s t : State) (n : Nat) (f : Nat → Bool) : Prop where
  frame : Frame s t
  busyAnswers : t.busyAnswers = s.busyAnswers
  events : t.trace.length = s.trace.length + n
  ndr : t.ndr = if n = 0 then s.ndr else true
  cur : n = 0 → t.cur = s.cur
  pixel : ∀ q, t.dev.mem.pixel q = f q

theorem Drawn.noWait {s t : State} {n : Nat} {f : Nat → Bool} (h : Drawn s t n f) (hs : s.noWait) : t.noWait := by
  rw [State.noWait, h.frame.par]; exact hs

theorem Drawn.distinct {s t : State} {n : Nat} {f : Nat → Bool} (h : Drawn s t n f) (hs : s.par.distinct) :
    t.par.distinct := by rw [h.frame.par]; exact hs

theorem Drawn.nothing (s : State) : Drawn s s 0 s.dev.mem.pixel where
  frame := Frame.refl s
  busyAnswers := rfl
  events := rfl
  ndr := rfl
  cur := fun _ => rfl
  pixel := fun _ => rfl

theorem Drawn.trans {s t u : State} {n m : Nat} {f g : Nat → Bool} (h : Drawn s t n f) (k : Drawn t u m g) :
    Drawn s u (n + m) g where
  frame := h.frame.trans k.frame
  busyAnswers := k.busyAnswers.trans h.busyAnswers
  events := by rw [k.events, h.events]; omega
  ndr := by
    rw [k.ndr, h.ndr]
    by_cases hm : m = 0
    · simp [hm]
    · simp [hm]
  cur := fun h0 => (k.cur (by omega)).trans (h.cur (by omega))
  pixel := k.pixel

theorem Drawn.congr {s t : State} {n m : Nat} {f g : Nat → Bool} (h : Drawn s t n f) (hn : n = m) (hf : ∀ q, f q = g q) :
    Drawn s t m g where
  frame := h.frame
  busyAnswers := h.busyAnswers
  events := hn ▸ h.events
  ndr := hn ▸ h.ndr
  cur := hn ▸ h.cur
  pixel := fun q => (h.pixel q).trans (hf q)

/-! ## Read-mask-merge-write and one pixel -/

section ready

variable {s : State}

/-- A read-mask-merge-write draws the bits of its mask and nothing else (R137), and leaves the device in write mode at `p + 1`. -/
theorem rmw_draws (h : s.noWait) (hp : s.par.distinct) (p : Word) {off n : Nat} (hn : off + n ≤ 8) (v : Byte) :
    ∃ t, rmw p (mask off n) v s = .done () t ∧
      Drawn s t 14 (fun q => if 8 * p.toNat + off ≤ q ∧ q < 8 * p.toNat + off + n then v.getLsbD (q % 8)
        else s.dev.mem.pixel q) ∧
      t.dev.ir = some t.par.cmdWrite ∧ t.dev.dc = p + 1 ∧ t.cur = p := by
  have hr := rmw_noWait h hp p (mask off n) v
  refine ⟨_, hr, ⟨(assembled_rmw _ _ _).framed.done hr, rfl, ?_, rfl, by simp, ?_⟩, rfl, rfl, rfl⟩
  · simp [rmwTrace, setCursorTrace, beginReadTrace, beginWriteTrace]
  · intro q
    simp only [Memory.pixel_write]
    have hq : q % 8 < 8 := Nat.mod_lt _ (by omega)
    by_cases ha : p.toNat = q / 8
    · rw [if_pos ha, merge_getLsbD _ _ _ hq, mask_getLsbD hq, Memory.read_getLsbD _ _ _ hq]
      have e1 : 8 * p.toNat + q % 8 = q := by omega
      rw [e1]
      by_cases hb : off ≤ q % 8 ∧ q % 8 < off + n
      · rw [if_pos (by simpa using hb), if_pos (by omega)]
      · rw [if_neg (by simpa using hb), if_neg (by omega)]
    · rw [if_neg ha, if_neg (by omega)]

/-- One addressed pixel (R125): exactly that pixel takes the colour. -/
theorem pixel_draws (h : s.noWait) (hp : s.par.distinct) {px py : Nat} (ha : 30 * py + px / 8 < 65536) (c : Colour) :
    ∃ t, pixel px py c s = .done () t ∧
      Drawn s t 6 (fun q => if q = pixelIndex px py then c.bit else s.dev.mem.pixel q) ∧ t.cur = addr px py := by
  have hr := pixel_noWait h hp px py c
  refine ⟨_, hr, ⟨(assembled_pixel _ _ _).framed.done hr, rfl, ?_, rfl, by simp, ?_⟩, rfl⟩
  · cases c <;> simp [pixelTrace, setCursorTrace, bitOpTrace]
  · intro q
    simp only [Memory.pixel_write]
    have hpi := pixelIndex_eq px py
    have hq : q % 8 < 8 := Nat.mod_lt _ (by omega)
    have hx : px % 8 < 8 := Nat.mod_lt _ (by omega)
    have hA := addr_toNat ha
    by_cases hqa : (addr px py).toNat = q / 8
    · rw [if_pos hqa, bitOpByte_getLsbD _ hx hq, Memory.read_getLsbD _ _ _ hq]
      have e1 : 8 * (addr px py).toNat + q % 8 = q := by omega
      rw [e1]
      by_cases hb : q % 8 = px % 8
      · rw [if_pos hb, if_pos (by omega)]
      · rw [if_neg hb, if_neg (by omega)]
    · rw [if_neg hqa, if_neg (by omega)]

/-! ## A streamed run of bytes -/

/-- A byte stored `n` times from the device cursor on (R63). -/
def Device.storeRun (v : Byte) : Nat → Device → Device
  | 0, d => d
  | n + 1, d => Device.storeRun v n (d.store v)

theorem Device.storeRun_ir (v : Byte) (n : Nat) (d : Device) : (Device.storeRun v n d).ir = d.ir := by
  induction n generalizing d with
  | zero => rfl
  | succ n ih => simp [Device.storeRun, ih]

theorem Device.storeRun_dc (v : Byte) (n : Nat) (d : Device) : (Device.storeRun v n d).dc = d.dc + BitVec.ofNat 16 n := by
  induction n generalizing d with
  | zero => simp [Device.storeRun]
  | succ n ih =>
    rw [Device.storeRun, ih, Device.store_dc]
    apply BitVec.eq_of_toNat_eq
    simp [BitVec.toNat_add]
    omega

theorem Device.storeRun_pixel (v : Byte) (n : Nat) (d : Device) (h : d.dc.toNat + n ≤ 65536) (q : Nat) :
    (Device.storeRun v n d).mem.pixel q =
      if 8 * d.dc.toNat ≤ q ∧ q < 8 * d.dc.toNat + 8 * n then v.getLsbD (q % 8) else d.mem.pixel q := by
  induction n generalizing d with
  | zero => rw [if_neg (by omega)]; rfl
  | succ n ih =>
    rw [Device.storeRun]
    by_cases hn : n = 0
    · subst hn
      rw [Device.storeRun, Device.store_mem, Memory.pixel_write]
      by_cases hq : d.dc.toNat = q / 8
      · rw [if_pos hq, if_pos (by omega)]
      · rw [if_neg hq, if_neg (by omega)]
    · have hdc : (d.store v).dc.toNat = d.dc.toNat + 1 := by
        rw [Device.store_dc, BitVec.toNat_add]
        simp; omega
      rw [ih (d.store v) (by omega), hdc, Device.store_mem, Memory.pixel_write]
      by_cases hq : d.dc.toNat = q / 8
      · rw [if_neg (by omega), if_pos hq, if_pos (by omega)]
      · rw [if_neg hq]
        by_cases hr : 8 * d.dc.toNat ≤ q ∧ q < 8 * d.dc.toNat + 8 * (n + 1)
        · rw [if_pos hr, if_pos (by omega)]
        · rw [if_neg hr, if_neg (by omega)]

theorem writeRepeated_noWait (h : s.noWait) (hp : s.par.distinct) (hir : s.dev.ir = some s.par.cmdWrite) (n : Nat) (p : Byte) :
    writeRepeated n p s = .done ()
      { s with
        trace := s.trace ++ List.replicate n (.write .data p), dev := Device.storeRun p n s.dev } := by
  induction n generalizing s with
  | zero => simp [writeRepeated, Device.storeRun]
  | succ n ih =>
    rw [writeRepeated, inOrder_done (writeData_noWait h hp hir p), inOrder_done (ih (by exact h) (by exact hp) (by exact hir))]
    simp [Device.storeRun, List.replicate_succ]

/-! ## The horizontal line -/

/-- The byte-aligned part of a horizontal line of `len` pixels from byte address `a` on: the events are those of R154. -/
theorem hLineFrom_draws (h : s.noWait) (hp : s.par.distinct) (a : Word) (len : Nat) (p : Byte) (streaming : Bool)
    (hst : streaming = true → s.dev.ir = some s.par.cmdWrite ∧ s.dev.dc = a ∧ s.ndr = true)
    (hlen : 8 * a.toNat + len ≤ 8 * 65536) :
    ∃ t, hLineFrom a len p streaming s = .done () t ∧
      Drawn s t
        ((if len / 8 = 0 then 0 else (if streaming then 0 else 5) + len / 8) + (if len % 8 = 0 then 0 else 14))
        (fun q => if 8 * a.toNat ≤ q ∧ q < 8 * a.toNat + len then p.getLsbD (q % 8) else s.dev.mem.pixel q) := by
  -- the body
  obtain ⟨t, ht, hd⟩ : ∃ t, hLineBody a (len / 8) p streaming s = .done () t ∧
      Drawn s t (if len / 8 = 0 then 0 else (if streaming then 0 else 5) + len / 8)
        (fun q => if 8 * a.toNat ≤ q ∧ q < 8 * a.toNat + 8 * (len / 8) then p.getLsbD (q % 8)
          else s.dev.mem.pixel q) := by
    by_cases hf : len / 8 = 0
    · refine ⟨s, by rw [hLineBody, if_pos hf]; rfl, (Drawn.nothing s).congr (by simp [hf]) ?_⟩
      intro q; rw [if_neg (by omega)]
    · cases streaming with
      | true =>
        obtain ⟨hir, hdc, hndr⟩ := hst rfl
        have hr := writeRepeated_noWait h hp hir (len / 8) p
        have hb : hLineBody a (len / 8) p true s = writeRepeated (len / 8) p s := by simp [hLineBody, hf]
        refine ⟨_, hb.trans hr, ⟨(assembled_writeRepeated _ _).framed.done hr, rfl, by simp [hf], by simp [hf, hndr],
          fun h0 => by simp [hf] at h0, ?_⟩⟩
        intro q
        simp only
        rw [Device.storeRun_pixel _ _ _ (by rw [hdc]; omega), hdc]
      | false =>
        have hr : hLineBody a (len / 8) p false s = .done ()
            { s with
              trace := s.trace ++ setCursorTrace s.par a ++ beginWriteTrace s.par ++ List.replicate (len / 8) (.write .data p),
              cur := a, ndr := true,
              dev := Device.storeRun p (len / 8) { s.dev with dc := a, ir := some s.par.cmdWrite } } := by
          simp only [hLineBody, hf, if_false, Bool.false_eq_true]
          rw [inOrder_done (setCursorAddress_noWait h hp a), inOrder_done (beginWrite_noWait (by exact h)),
            inOrder_done (writeRepeated_noWait (by exact h) (by exact hp) (by rfl) _ _)]
          rfl
        refine ⟨_, hr, ⟨(assembled_hLineBody _ _ _ _).framed.done hr, rfl, ?_, by simp [hf], fun h0 => by simp [hf] at h0, ?_⟩⟩
        · simp [hf, setCursorTrace, beginWriteTrace]; omega
        · intro q
          simp only
          rw [Device.storeRun_pixel _ _ _ (by dsimp only; omega)]
  -- the tail
  rw [hLineFrom, inOrder_done ht]
  by_cases hm : len % 8 = 0
  · refine ⟨t, by rw [hLineTail, if_pos hm, inOrder_done (skip_eq t)]; rfl, hd.congr (by simp [hm]) ?_⟩
    intro q
    have : 8 * (len / 8) = len := by omega
    rw [this]
  · have haf : (a + BitVec.ofNat 16 (len / 8)).toNat = a.toNat + len / 8 := by
      rw [BitVec.toNat_add, BitVec.toNat_ofNat]; omega
    obtain ⟨u, hu, hdu, -⟩ := rmw_draws (hd.noWait h) (hd.distinct hp) (a + BitVec.ofNat 16 (len / 8)) (off := 0) (n := len % 8)
      (by omega) p
    refine ⟨u, by rw [hLineTail, if_neg hm, inOrder_done hu]; rfl, (hd.trans hdu).congr (by simp [hm]) ?_⟩
    intro q
    rw [haf]
    by_cases h1 : 8 * (a.toNat + len / 8) + 0 ≤ q ∧ q < 8 * (a.toNat + len / 8) + 0 + len % 8
    · rw [if_pos h1, if_pos (by omega)]
    · rw [if_neg h1, hd.pixel]
      by_cases h2 : 8 * a.toNat ≤ q ∧ q < 8 * a.toNat + 8 * (len / 8)
      · rw [if_pos h2, if_pos (by omega)]
      · rw [if_neg h2, if_neg (by omega)]

/-- The number of transport events of `HLine` (R154). -/
def hLineEventCount (off len : Nat) : Nat :=
  if len = 0 then 0
  else
    let head := if off = 0 then 0 else min len (8 - off)
    let full := (len - head) / 8
    (if off = 0 then 0 else 14) + (if full = 0 then 0 else (if off = 0 then 5 else 0) + full)
      + (if (len - head) % 8 = 0 then 0 else 14)

theorem hLineEventCount_pos {off len : Nat} (h : 0 < len) : 0 < hLineEventCount off len := by
  unfold hLineEventCount
  rw [if_neg (by omega)]
  by_cases h0 : off = 0
  · simp only [h0, if_true, Nat.sub_zero]
    by_cases h1 : len / 8 = 0
    · rw [if_pos h1, if_neg (by omega)]; omega
    · rw [if_neg h1]; omega
  · simp only [h0, if_false]; omega

/-- `HLine` draws exactly its run of pixels (R152), in the number of events of R154. -/
theorem hLine_draws (h : s.noWait) (hp : s.par.distinct) (x y len : Nat) (p : Byte)
    (hb : pixelIndex x y + len < 8 * 65535) :
    ∃ t, hLine x y len p s = .done () t ∧
      Drawn s t (hLineEventCount (x % 8) len)
        (fun q => if pixelIndex x y ≤ q ∧ q < pixelIndex x y + len then p.getLsbD (q % 8) else s.dev.mem.pixel q) := by
  have hpi := pixelIndex_eq x y
  have hA := addr_toNat (x := x) (y := y) (by omega)
  by_cases hl : len = 0
  · refine ⟨s, by simp [hLine, hl], (Drawn.nothing s).congr (by simp [hLineEventCount, hl]) ?_⟩
    intro q; rw [if_neg (by omega)]
  · by_cases ho : x % 8 = 0
    · obtain ⟨t, ht, hd⟩ := hLineFrom_draws h hp (addr x y) len p false (by simp) (by rw [hA]; omega)
      refine ⟨t, by simp [hLine, hl, ho, ht], hd.congr ?_ ?_⟩
      · simp [hLineEventCount, hl, ho]
      · intro q
        have : 8 * (addr x y).toNat = pixelIndex x y := by rw [hA]; omega
        rw [this]
    · obtain ⟨t, ht, hd, hir, hdc, -⟩ := rmw_draws h hp (addr x y) (off := x % 8) (n := min len (8 - x % 8)) (by omega) p
      have hA1 : (addr x y + 1).toNat = 30 * y + x / 8 + 1 := by
        rw [BitVec.toNat_add, hA]
        simp
        omega
      obtain ⟨u, hu, hdu⟩ := hLineFrom_draws (hd.noWait h) (hd.distinct hp) (addr x y + 1) (len - min len (8 - x % 8)) p true
        (fun _ => ⟨hir, hdc, by simp [hd.ndr]⟩) (by rw [hA1]; omega)
      refine ⟨u, ?_, (hd.trans hdu).congr ?_ ?_⟩
      · rw [hLine, if_neg hl, if_neg ho, inOrder_done ht, inOrder_done hu]; rfl
      · simp [hLineEventCount, hl, ho]; omega
      · intro q
        rw [hA1, hd.pixel, hA]
        by_cases h1 : 8 * (30 * y + x / 8 + 1) ≤ q ∧ q < 8 * (30 * y + x / 8 + 1) + (len - min len (8 - x % 8))
        · rw [if_pos h1, if_pos (by omega)]
        · rw [if_neg h1]
          by_cases h2 : 8 * (30 * y + x / 8) + x % 8 ≤ q ∧ q < 8 * (30 * y + x / 8) + x % 8 + min len (8 - x % 8)
          · rw [if_pos h2, if_pos (by omega)]
          · rw [if_neg h2, if_neg (by omega)]

end ready

end Sys2Proof.Machine
end

