-- ==== Sys2Proof/Laws/Draw.lean ====
section
/-! SUPPORT. From what a drawing routine draws to what a command paints; loops over rows, where the row drawn last at a pixel wins; the
vertical line, the stepper's points, the solid and the pattern fill as such loops. -/

namespace Sys2Proof.Machine

/-! ## Bytes and pixels -/

/-- Two memories with the same eight pixels in a byte read alike there. -/
theorem Memory.readAt_eq_of_pixel {m n : Memory} {a : Nat} (h : ∀ q, q / 8 = a → m.pixel q = n.pixel q) : m.readAt a = n.readAt a := by
  apply BitVec.eq_of_getLsbD_eq
  intro k hk
  have h1 := h (8 * a + k) (by omega)
  simp only [Memory.pixel, Config.SURF_BASE, Nat.zero_add] at h1
  rwa [show (8 * a + k) / 8 = a by omega, show (8 * a + k) % 8 = k by omega] at h1

/-- A routine that draws `v` where `P` holds and nothing elsewhere paints exactly that. -/
theorem Drawn.paints {s t : State} {n : Nat} {f : Nat → Bool} (h : Drawn s t n f) {P : Nat → Prop} {v : Nat → Bool}
    (hp : ∀ q, P q → f q = v q) (hn : ∀ q, ¬ P q → f q = s.dev.mem.pixel q) : Paints s t P v := by
  refine ⟨fun q hq => (h.pixel q).trans (hp q hq), fun q hq => (h.pixel q).trans (hn q hq), fun a ha => ?_⟩
  refine Memory.readAt_eq_of_pixel (fun q hq => (h.pixel q).trans (hn q (fun hP => ha q hP hq)))

/-- The parts of `Completed` that the events of a command leave to its end (R27). -/
theorem Drawn.completed {s t : State} {n : Nat} {f : Nat → Bool} (h : Drawn s t n f) (len : Nat) :
    Completed len s { t with cp := t.cp + len, activity := .idle } :=
  ⟨⟨h.frame.par, h.frame.rom, h.frame.prog, h.frame.busyRest⟩, h.busyAnswers, by rw [h.frame.cp], h.frame.err, h.frame.inited,
    h.frame.resp, rfl⟩

/-! ## Loops over rows -/

/-- The last of the rows `k` to `k + n - 1` that holds pixel index `q`, where row `j` holds the indexes of `R j`. -/
def lastOf (R : Nat → Nat → Bool) (q k : Nat) : Nat → Option Nat
  | 0 => none
  | n + 1 => (lastOf R q (k + 1) n).or (if R k q then some k else none)

theorem lastOf_eq_none {R : Nat → Nat → Bool} {q k n : Nat} (h : lastOf R q k n = none) {i : Nat} (h1 : k ≤ i) (h2 : i < k + n) :
    R i q = false := by
  induction n generalizing k with
  | zero => omega
  | succ n ih =>
    rw [lastOf, Option.or_eq_none_iff] at h
    by_cases hik : i = k
    · subst hik
      cases hv : R i q with
      | false => rfl
      | true => rw [hv] at h; cases h.2
    · exact ih h.1 (by omega) (by omega)

theorem lastOf_eq_some {R : Nat → Nat → Bool} {q k n j : Nat} (h : lastOf R q k n = some j) :
    k ≤ j ∧ j < k + n ∧ R j q = true ∧ ∀ i, j < i → i < k + n → R i q = false := by
  induction n generalizing k with
  | zero => cases h
  | succ n ih =>
    rw [lastOf] at h
    cases hl : lastOf R q (k + 1) n with
    | some i =>
      rw [hl] at h
      obtain ⟨h1, h2, h3, h4⟩ := ih (hl.trans h)
      exact ⟨by omega, by omega, h3, fun i hi hk => h4 i hi (by omega)⟩
    | none =>
      rw [hl, Option.none_or] at h
      by_cases hR : R k q = true
      · rw [if_pos hR] at h
        cases h
        exact ⟨by omega, by omega, hR, fun i hi hk => lastOf_eq_none hl (by omega) (by omega)⟩
      · rw [if_neg hR] at h; cases h

/-- A loop whose row `j` draws `v j` on the indexes of `R j` in `e` events draws, at each index, the row drawn last there. -/
theorem forRows_draws {body : Nat → Seq Unit} {R : Nat → Nat → Bool} {v : Nat → Nat → Bool} {e : Nat}
    {s : State} (hs : s.noWait) (hp : s.par.distinct) (k n : Nat)
    (hb : ∀ (j : Nat) (u : State), k ≤ j → j < k + n → u.noWait → u.par = s.par → u.rom = s.rom →
      ∃ t, body j u = .done () t ∧ Drawn u t e (fun q => if R j q then v j q else u.dev.mem.pixel q)) :
    ∃ t, forRows body k n s = .done () t ∧
      Drawn s t (n * e) (fun q => match lastOf R q k n with | some j => v j q | none => s.dev.mem.pixel q) := by
  induction n generalizing k s with
  | zero => exact ⟨s, rfl, (Drawn.nothing s).congr (by simp) (fun q => rfl)⟩
  | succ n ih =>
    obtain ⟨u, hu, hdu⟩ := hb k s (by omega) (by omega) hs rfl rfl
    obtain ⟨t, ht, hdt⟩ := ih (hdu.noWait hs) (hdu.distinct hp) (k + 1)
      (fun j w h1 h2 hw hpar hrom =>
        hb j w (by omega) (by omega) hw (hpar.trans hdu.frame.par) (hrom.trans hdu.frame.rom))
    refine ⟨t, by rw [forRows, inOrder_done hu, inOrder_done ht]; rfl, (hdu.trans hdt).congr (by rw [Nat.succ_mul]; omega) ?_⟩
    intro q
    rw [lastOf]
    cases hl : lastOf R q (k + 1) n with
    | some j => rfl
    | none =>
      simp only [Option.none_or]
      rw [hdu.pixel]
      by_cases hR : R k q = true <;> simp [hR]

/-! ## The loops of the commands -/

section ready

variable {s : State}

/-- `VLine` draws one pixel a row (R155). -/
theorem vLine_draws (h : s.noWait) (hp : s.par.distinct) (x y len : Nat) (c : Colour) (hb : 30 * (y + len) + x / 8 < 65536) :
    ∃ t, vLine x y len c s = .done () t ∧
      Drawn s t (len * 6)
        (fun q => if ∃ k < len, q = pixelIndex x (y + k) then c.bit else s.dev.mem.pixel q) := by
  obtain ⟨t, ht, hd⟩ := forRows_draws (body := fun k => pixel x (y + k) c) (R := fun k q => decide (q = pixelIndex x (y + k)))
    (v := fun _ _ => c.bit) (e := 6) h hp 0 len (fun j u _ h2 hu hpar _ => by
      obtain ⟨w, hw, hdw, -⟩ := pixel_draws hu (by rw [hpar]; exact hp) (px := x) (py := y + j) (by omega) c
      exact ⟨w, hw, hdw.congr rfl (fun q => by simp)⟩)
  refine ⟨t, ht, hd.congr rfl (fun q => ?_)⟩
  cases hl : lastOf (fun k q => decide (q = pixelIndex x (y + k))) q 0 len with
  | some j =>
    obtain ⟨-, h2, h3, -⟩ := lastOf_eq_some hl
    rw [if_pos ⟨j, by omega, by simpa using h3⟩]
  | none =>
    rw [if_neg]
    rintro ⟨j, hj, hq⟩
    have h0 := lastOf_eq_none hl (Nat.zero_le j) (by omega)
    simp [hq] at h0

/-- Horizontal lines of `w` pixels from column `x` on, one a row from row `y` on, in the pattern byte `p` gives each (R183, R185): at each
pixel index, the row drawn last there. -/
theorem hLineRows_draws (h : s.noWait) (hp : s.par.distinct) (x y w n : Nat) (p : Nat → Byte)
    (hb : pixelIndex x (y + n) + w < 8 * 65535) :
    ∃ t, forRows (fun k => hLine x (y + k) w (p k)) 0 n s = .done () t ∧
      Drawn s t (n * hLineEventCount (x % 8) w)
        (fun q =>
          match lastOf (fun k q => decide (pixelIndex x (y + k) ≤ q ∧ q < pixelIndex x (y + k) + w)) q 0 n with
          | some k => (p k).getLsbD (q % 8)
          | none => s.dev.mem.pixel q) :=
  forRows_draws (v := fun k q => (p k).getLsbD (q % 8)) h hp 0 n (fun j u _ h2 hu hpar _ => by
    have e1 := pixelIndex_eq x (y + j)
    have e2 := pixelIndex_eq x (y + n)
    obtain ⟨t, ht, hd⟩ := hLine_draws hu (by rw [hpar]; exact hp) x (y + j) w (p j) (by omega)
    exact ⟨t, ht, hd.congr rfl (fun q => by simp)⟩)

/-- The points of a line, one pixel each (R162). -/
theorem drawPoints_draws (h : s.noWait) (hp : s.par.distinct) (c : Colour) (pts : List (Nat × Nat))
    (hb : ∀ p ∈ pts, 30 * p.2 + p.1 / 8 < 65536) :
    ∃ t, drawPoints c pts s = .done () t ∧
      Drawn s t (pts.length * 6)
        (fun q => if ∃ p ∈ pts, q = pixelIndex p.1 p.2 then c.bit else s.dev.mem.pixel q) := by
  induction pts generalizing s with
  | nil => exact ⟨s, rfl, (Drawn.nothing s).congr (by simp) (fun q => by simp)⟩
  | cons p pts ih =>
    obtain ⟨u, hu, hdu, -⟩ := pixel_draws h hp (hb p (by simp)) c
    obtain ⟨t, ht, hdt⟩ := ih (hdu.noWait h) (hdu.distinct hp) (fun r hr => hb r (by simp [hr]))
    refine ⟨t, by rw [drawPoints, inOrder_done hu, inOrder_done ht]; rfl,
      (hdu.trans hdt).congr (by rw [List.length_cons, Nat.succ_mul]; omega) (fun q => ?_)⟩
    rw [hdu.pixel]
    by_cases h1 : ∃ r ∈ pts, q = pixelIndex r.1 r.2
    · rw [if_pos h1, if_pos]
      obtain ⟨r, hr, hq⟩ := h1
      exact ⟨r, by simp [hr], hq⟩
    · rw [if_neg h1]
      by_cases h2 : q = pixelIndex p.1 p.2
      · rw [if_pos h2, if_pos ⟨p, by simp, h2⟩]
      · rw [if_neg h2, if_neg]
        rintro ⟨r, hr, hq⟩
        rcases List.mem_cons.1 hr with rfl | hr
        · exact h2 hq
        · exact h1 ⟨r, hr, hq⟩

end ready

end Sys2Proof.Machine
end

