-- ==== Sys2Proof/Laws/Trace.lean ====
section
/-! SUPPORT. The events a piece of a command issues, as a function of the device it finds: closed under sequencing, and shown once for the
read-mask-merge-write step, the horizontal and the vertical line, the loops over rows and the rectangle. -/

namespace Sys2Proof.Machine

@[simp] theorem Device.afterEvents_nil (p : Params) (d : Device) : d.afterEvents p [] = d := rfl

theorem Device.afterEvents_append (p : Params) (d : Device) (es fs : List Event) :
    d.afterEvents p (es ++ fs) = (d.afterEvents p es).afterEvents p fs := by
  simp [Device.afterEvents, List.foldl_append]

/-! ## Sequencing of traces -/

@[simp] theorem eventsInOrder_nil (p : Params) (d : Device) : eventsInOrder p [] d = [] := rfl

@[simp] theorem eventsInOrder_cons (p : Params) (f : Device → List Event) (fs : List (Device → List Event)) (d : Device) :
    eventsInOrder p (f :: fs) d = f d ++ eventsInOrder p fs (d.afterEvents p (f d)) := rfl

/-- Pieces that do not depend on the device follow one another as they are. -/
theorem eventsInOrder_const (p : Params) (g : Nat → List Event) (ks : List Nat) (d : Device) :
    eventsInOrder p (ks.map (fun k _ => g k)) d = ks.flatMap g := by
  induction ks generalizing d with
  | nil => rfl
  | cons k ks ih => rw [List.map_cons, eventsInOrder_cons, ih, List.flatMap_cons]

/-! ## The device follows the events -/

/-- Without a busy-wait, the device a piece of a command leaves is what its events make of the device it finds. -/
theorem Assembled.afterEvents {α : Type} {m : Seq α} (h : Assembled m) {s t : State} {a : α} (hs : s.noWait) (hm : m s = .done a t) :
    ∃ es, t.trace = s.trace ++ es ∧ t.dev = s.dev.afterEvents s.par es := by
  induction h generalizing s t with
  | yield b => cases hm; exact ⟨[], by simp, rfl⟩
  | andThen h1 _ ih1 ih2 =>
    obtain ⟨b, u, hu, ht⟩ := (andThen_eq_done_iff _ _ _ _ _).1 hm
    have hpar := (h1.framed.done hu).par
    obtain ⟨es, e1, e2⟩ := ih1 hs hu
    obtain ⟨fs, f1, f2⟩ := ih2 b (by rw [State.noWait, hpar]; exact hs) ht
    exact ⟨es ++ fs, by rw [f1, e1, List.append_assoc], by rw [f2, e2, hpar, Device.afterEvents_append]⟩
  | select k _ _ =>
    rw [select_noWait hs] at hm; cases hm
    exact ⟨_, rfl, rfl⟩
  | data b =>
    rw [tw, andThen_done (waitBusy_noWait hs), writeTransaction] at hm
    cases hw : s.dev.write s.par .data b with
    | none => rw [hw] at hm; cases hm
    | some d =>
      rw [hw] at hm; cases hm
      exact ⟨[.write .data b], rfl, by simp [Device.afterEvents, Device.afterEvent, hw]⟩
  | read =>
    rw [tr, andThen_done (waitBusy_noWait hs), readTransaction] at hm
    cases hr : s.dev.read s.par .data with
    | none => rw [hr] at hm; cases hm
    | some vd =>
      rw [hr] at hm; cases hm
      exact ⟨[.read .data _], rfl, by simp [Device.afterEvents, Device.afterEvent, hr]⟩
  | update hf => cases hf <;> cases hm <;> exact ⟨[], by simp [State.setDummyReadNeeded, State.clearDummyReadNeeded], rfl⟩
  | ifNdr _ ih =>
    by_cases hn : s.ndr = true
    · simp only [hn, if_true] at hm; exact ih hs hm
    · simp only [hn] at hm; cases hm; exact ⟨[], by simp, rfl⟩
  | ofPar g _ _ ih => exact ih s.par hs hm

/-! ## What a piece of a command issues -/

/-- A piece of a command runs to its end on any device and issues the events `f` reads off the parameters and the device. -/
structure Issues (m : Seq Unit) (f : Params → Device → List Event) : Prop where
  assembled : Assembled m
  runs : ∀ s : State, s.noWait → s.par.distinct → ∃ t, m s = .done () t ∧ t.trace = s.trace ++ f s.par s.dev

section issues

variable {m : Seq Unit} {f g : Params → Device → List Event}

theorem Issues.congr (h : Issues m f) (hfg : ∀ p d, f p d = g p d) : Issues m g :=
  ⟨h.assembled, fun s hs hp => by rw [← hfg]; exact h.runs s hs hp⟩

/-- The trace and the device after a piece, without a busy-wait. -/
theorem Issues.done (h : Issues m f) {s : State} (hs : s.noWait) (hp : s.par.distinct) :
    ∃ t, m s = .done () t ∧ t.trace = s.trace ++ f s.par s.dev ∧ t.dev = s.dev.afterEvents s.par (f s.par s.dev) ∧
      t.par = s.par ∧ t.noWait ∧ t.par.distinct := by
  obtain ⟨t, ht, htr⟩ := h.runs s hs hp
  obtain ⟨es, e1, e2⟩ := h.assembled.afterEvents hs ht
  have hpar := (h.assembled.framed.done ht).par
  rw [htr] at e1
  rw [← List.append_cancel_left e1] at e2
  exact ⟨t, ht, htr, e2, hpar, by rw [State.noWait, hpar]; exact hs, by rw [hpar]; exact hp⟩

theorem issues_skip : Issues skip (fun _ _ => []) := ⟨assembled_skip, fun s _ _ => ⟨s, rfl, by simp⟩⟩

/-- A piece, and then others. -/
theorem Issues.cons {ms : List (Seq Unit)} {fs : Params → List (Device → List Event)} (h : Issues m f)
    (k : Issues (inOrder ms) (fun p d => eventsInOrder p (fs p) d)) :
    Issues (inOrder (m :: ms)) (fun p d => eventsInOrder p (f p :: fs p) d) := by
  refine ⟨assembled_inOrder_cons h.assembled k.assembled, fun s hs hp => ?_⟩
  obtain ⟨u, hu, h1, h2, h3, h4, h5⟩ := h.done hs hp
  obtain ⟨t, ht, k1⟩ := k.runs u h4 h5
  exact ⟨t, by rw [inOrder_done hu, ht], by rw [k1, h1, h2, h3, List.append_assoc, eventsInOrder_cons]⟩

theorem issues_inOrder_nil : Issues (inOrder []) (fun p d => eventsInOrder p [] d) := issues_skip

/-- Two pieces. -/
theorem Issues.two {n : Seq Unit} (h : Issues m f) (k : Issues n g) :
    Issues (inOrder [m, n]) (fun p d => f p d ++ g p (d.afterEvents p (f p d))) :=
  (h.cons (fs := fun p => [g p]) (k.cons (fs := fun _ => []) issues_inOrder_nil)).congr (fun p d => by
    simp only [eventsInOrder_cons, eventsInOrder_nil, List.append_nil])

theorem Issues.ite {c : Prop} [Decidable c] {n : Seq Unit} (h : Issues m f) (k : Issues n g) :
    Issues (if c then m else n) (fun p d => if c then f p d else g p d) := by
  by_cases hc : c
  · simp only [if_pos hc]; exact h
  · simp only [if_neg hc]; exact k

/-- A loop over rows issues the events of its rows, in order. -/
theorem issues_forRows {body : Nat → Seq Unit} {f : Nat → Params → Device → List Event} (h : ∀ j, Issues (body j) (f j)) (k n : Nat) :
    Issues (forRows body k n) (fun p d => eventsInOrder p ((List.range n).map (fun j => f (k + j) p)) d) := by
  induction n generalizing k with
  | zero => exact issues_skip
  | succ n ih =>
    rw [forRows]
    refine ((h k).cons (fs := fun p => [fun d => eventsInOrder p ((List.range n).map (fun j => f (k + 1 + j) p)) d])
      (((ih (k + 1)).cons (fs := fun _ => []) issues_inOrder_nil))).congr (fun p d => ?_)
    rw [List.range_succ_eq_map]
    simp only [List.map_cons, List.map_map, eventsInOrder_cons, eventsInOrder_nil, List.append_nil, Nat.add_zero]
    congr 3
    funext j
    simp only [Function.comp, Nat.succ_eq_add_one]
    rw [show k + 1 + j = k + (j + 1) by omega]

end issues

/-! ## The helpers -/

theorem issues_rmw (a : Word) (msk v : Byte) : Issues (rmw a msk v) (fun p d => rmwTraceOn p d a msk v) :=
  ⟨assembled_rmw a msk v, fun _ hs hp => ⟨_, rmw_noWait hs hp a msk v, rfl⟩⟩

theorem issues_pixel (px py : Nat) (c : Colour) : Issues (pixel px py c) (fun p _ => pixelTrace p px py c) :=
  ⟨assembled_pixel px py c, fun _ hs hp => ⟨_, pixel_noWait hs hp px py c, rfl⟩⟩

theorem issues_vLine (x y len : Nat) (c : Colour) : Issues (vLine x y len c) (fun p _ => vlineTrace p x y len c) :=
  (issues_forRows (fun k => issues_pixel x (y + k) c) 0 len).congr (fun p d => by
    simp only [Nat.zero_add]
    exact eventsInOrder_const p (fun k => pixelTrace p x (y + k) c) _ d)

theorem issues_drawPoints (c : Colour) (pts : List (Nat × Nat)) :
    Issues (drawPoints c pts) (fun p _ => pts.flatMap (fun q => pixelTrace p q.1 q.2 c)) := by
  induction pts with
  | nil => exact issues_skip
  | cons q pts ih =>
    exact ((issues_pixel q.1 q.2 c).two ih).congr (fun p d => by rw [List.flatMap_cons])

theorem issues_hLineTail (a : Word) (rem : Nat) (v : Byte) :
    Issues (hLineTail a rem v) (fun p d => if rem = 0 then [] else rmwTraceOn p d a (mask 0 rem) v) :=
  issues_skip.ite (issues_rmw a (mask 0 rem) v)

/-- The body of a horizontal line without a head. -/
theorem issues_hLineBody (a : Word) (full : Nat) (v : Byte) :
    Issues (hLineBody a full v false)
      (fun p _ => (if 0 < full then setCursorTrace p a ++ beginWriteTrace p else []) ++ List.replicate full (.write .data v)) := by
  refine ⟨assembled_hLineBody _ _ _ _, fun s hs hp => ?_⟩
  by_cases hf : full = 0
  · exact ⟨s, by rw [hLineBody, if_pos hf]; rfl, by simp [hf]⟩
  · refine ⟨_, by
      simp only [hLineBody, if_neg hf, Bool.false_eq_true, if_false]
      rw [inOrder_done (setCursorAddress_noWait hs hp a), inOrder_done (beginWrite_noWait (by exact hs)),
        inOrder_done (writeRepeated_noWait (by exact hs) (by exact hp) (by rfl) _ _)]
      rfl, ?_⟩
    simp [Nat.pos_of_ne_zero hf]

/-- The head of a horizontal line and the body that goes on in its write stream. -/
theorem issues_hLineHead (a b : Word) (msk v : Byte) (full : Nat) :
    Issues (inOrder [rmw a msk v, hLineBody b full v true])
      (fun p d => rmwTraceOn p d a msk v ++ List.replicate full (.write .data v)) := by
  refine ⟨assembled_inOrder_cons (assembled_rmw _ _ _) (assembled_inOrder_one (assembled_hLineBody _ _ _ _)), fun s hs hp => ?_⟩
  rw [inOrder_done (rmw_noWait hs hp a msk v)]
  by_cases hf : full = 0
  · exact ⟨_, by simp only [hLineBody, if_pos hf]; rfl, by simp [hf, rmwTraceOn, merge]⟩
  · refine ⟨_, by
      simp only [hLineBody, if_neg hf, if_true]
      rw [inOrder_done (writeRepeated_noWait (by exact hs) (by exact hp) (by rfl) _ _)]
      rfl, ?_⟩
    simp [rmwTraceOn, merge]

theorem inOrder_assoc (m n k : Seq Unit) : inOrder [m, inOrder [n, k]] = inOrder [inOrder [m, n], k] := by
  funext s
  simp only [inOrder, andThen, skip, yield]
  cases m s with
  | stopped e t => rfl
  | done a t =>
    dsimp only
    cases n t with
    | stopped e u => rfl
    | done b u => dsimp only; cases k u <;> rfl

/-- `HLine`: head, body and tail (R151). -/
theorem issues_hLine (x y len : Nat) (v : Byte) : Issues (hLine x y len v) (fun p d => hlineTrace p d x y len v) := by
  unfold hLine hlineTrace
  by_cases hl : len = 0
  · simp only [if_pos hl]; exact issues_skip
  by_cases ho : x % 8 = 0
  · simp only [if_neg hl, if_pos ho, hLineFrom, Nat.sub_zero]
    exact ((issues_hLineBody _ _ _).two (issues_hLineTail _ _ _)).congr (fun p d => by simp [ho])
  · simp only [if_neg hl, if_neg ho, hLineFrom]
    rw [inOrder_assoc]
    exact ((issues_hLineHead _ _ _ _ _).two (issues_hLineTail _ _ _)).congr (fun p d => by simp [ho, Device.afterEvents_append])

/-- One horizontal line a row (R183, R185). -/
theorem issues_hLineRows (x y w h : Nat) (v : Nat → Byte) :
    Issues (forRows (fun k => hLine x (y + k) w (v (y + k))) 0 h) (fun p d => rowsTrace p d x y w h v) :=
  (issues_forRows (fun k => issues_hLine x (y + k) w (v (y + k))) 0 h).congr (fun p d => by simp only [Nat.zero_add, rowsTrace])

theorem issues_onlyIf (b : Bool) {m : Seq Unit} {f : Params → Device → List Event} (h : Issues m f) :
    Issues (onlyIf b m) (fun p d => if b then f p d else []) := h.ite issues_skip

/-- The four edges of a rectangle (R181). -/
theorem issues_rectEvents (x y w h : Nat) (c : Colour) : Issues (rectEvents x y w h c) (fun p d => rectTrace p d x y w h c) := by
  refine (issues_skip.ite ((issues_hLine _ _ _ _).cons (fs := fun p => [_, _, _])
    ((issues_onlyIf _ (issues_hLine _ _ _ _)).cons (fs := fun p => [_, _])
      ((issues_onlyIf _ (issues_vLine _ _ _ _)).cons (fs := fun p => [_])
        ((issues_onlyIf _ (issues_vLine _ _ _ _)).cons (fs := fun _ => []) issues_inOrder_nil))))).congr (fun p d => ?_)
  simp only [rectTrace, Bool.and_eq_true, decide_eq_true_eq]

end Sys2Proof.Machine
end

