-- ==== Sys2Proof/Laws/Blit.lean ====
section
/-! SUPPORT. The text blitter: the chunks of a row as one stream of bits, the accumulator that packs the stream into bytes, and one
display row. -/

namespace Sys2Proof.Machine

/-! ## Chunks as a stream of bits -/

/-- How many bits a list of chunks holds. -/
def chunksLen : List (Byte × Nat) → Nat
  | [] => 0
  | c :: cs => c.2 + chunksLen cs

/-- Bit `i` of a list of chunks, the bits of each chunk from bit 0 on. -/
def chunksBit : List (Byte × Nat) → Nat → Bool
  | [], _ => false
  | c :: cs, i => if i < c.2 then c.1.getLsbD i else chunksBit cs (i - c.2)

theorem chunksLen_append (cs ds : List (Byte × Nat)) : chunksLen (cs ++ ds) = chunksLen cs + chunksLen ds := by
  induction cs with
  | nil => simp [chunksLen]
  | cons c cs ih => simp [chunksLen, ih, Nat.add_assoc]

theorem chunksBit_append (cs ds : List (Byte × Nat)) (i : Nat) :
    chunksBit (cs ++ ds) i = if i < chunksLen cs then chunksBit cs i else chunksBit ds (i - chunksLen cs) := by
  induction cs generalizing i with
  | nil => simp [chunksLen]
  | cons c cs ih =>
    have hl : chunksLen (c :: cs) = c.2 + chunksLen cs := rfl
    simp only [List.cons_append, chunksBit]
    by_cases h1 : i < c.2
    · rw [if_pos h1, if_pos h1, if_pos (by omega)]
    · rw [if_neg h1, if_neg h1, ih]
      by_cases h2 : i - c.2 < chunksLen cs
      · rw [if_pos h2, if_pos (by omega)]
      · rw [if_neg h2, if_neg (by omega), hl, Nat.sub_sub]

/-! ## The chunks of a glyph row (R202) -/

theorem wholeChunks_stream (rom : Memory) (base : Word) (bi n : Nat) :
    chunksLen (wholeChunks rom base bi n) = 8 * n ∧ (∀ c ∈ wholeChunks rom base bi n, c.2 ≤ 8) ∧
      ∀ i < 8 * n, chunksBit (wholeChunks rom base bi n) i = (romRead rom (base + BitVec.ofNat 16 (bi + i / 8))).getLsbD (i % 8) := by
  induction n generalizing bi with
  | zero => exact ⟨rfl, by simp [wholeChunks], fun i hi => by omega⟩
  | succ n ih =>
    obtain ⟨h1, h2, h3⟩ := ih (bi + 1)
    refine ⟨by simp only [wholeChunks, chunksLen, h1]; omega, ?_, fun i hi => ?_⟩
    · intro c hc
      rcases List.mem_cons.1 hc with rfl | hc
      · exact Nat.le_refl 8
      · exact h2 c hc
    · simp only [wholeChunks, chunksBit]
      by_cases hlt : i < 8
      · rw [if_pos hlt, show i / 8 = 0 by omega, show i % 8 = i by omega, Nat.add_zero]
      · rw [if_neg hlt, h3 (i - 8) (by omega), show bi + 1 + (i - 8) / 8 = bi + i / 8 by omega, show (i - 8) % 8 = i % 8 by omega]

theorem wideChunks_stream (rom : Memory) (base : Word) (gw r : Nat) (hg : 8 < gw) :
    chunksLen (wideChunks rom base gw r) = gw ∧ (∀ c ∈ wideChunks rom base gw r, c.2 ≤ 8) ∧
      ∀ k < gw, chunksBit (wideChunks rom base gw r) k =
        (romRead rom (base + BitVec.ofNat 16 ((r * gw + k) / 8))).getLsbD ((r * gw + k) % 8) := by
  have ho : r * gw % 8 < 8 := Nat.mod_lt _ (by omega)
  have hdm : 8 * (r * gw / 8) + r * gw % 8 = r * gw := Nat.div_add_mod _ _
  generalize hO : r * gw % 8 = o at ho hdm
  generalize hB : r * gw / 8 = bi at hdm
  obtain ⟨h1, h2, h3⟩ := wholeChunks_stream rom base (bi + 1) ((gw - (8 - o)) / 8)
  have hll : chunksLen (lastChunk rom base (bi + 1 + (gw - (8 - o)) / 8) ((gw - (8 - o)) % 8)) = (gw - (8 - o)) % 8 := by
    unfold lastChunk
    split
    · rename_i h0; rw [h0]; rfl
    · simp [chunksLen]
  have hw : wideChunks rom base gw r = (romRead rom (base + BitVec.ofNat 16 bi) >>> o, 8 - o)
      :: (wholeChunks rom base (bi + 1) ((gw - (8 - o)) / 8)
        ++ lastChunk rom base (bi + 1 + (gw - (8 - o)) / 8) ((gw - (8 - o)) % 8)) := by
    simp only [wideChunks, hO, hB, List.cons_append]
  rw [hw]
  refine ⟨?_, ?_, ?_⟩
  · simp only [chunksLen, chunksLen_append, h1, hll]; omega
  · intro c hc
    rcases List.mem_cons.1 hc with rfl | hc
    · show 8 - o ≤ 8; omega
    · rcases List.mem_append.1 hc with hc | hc
      · exact h2 c hc
      · unfold lastChunk at hc
        split at hc
        · cases hc
        · rw [List.mem_singleton] at hc; subst hc; show (gw - (8 - o)) % 8 ≤ 8; omega
  · intro k hk
    simp only [chunksBit]
    by_cases hf : k < 8 - o
    · rw [if_pos hf, BitVec.getLsbD_ushiftRight, show (r * gw + k) / 8 = bi by omega, show (r * gw + k) % 8 = o + k by omega]
    · rw [if_neg hf, chunksBit_append, h1]
      by_cases hm : k - (8 - o) < 8 * ((gw - (8 - o)) / 8)
      · rw [if_pos hm, h3 _ hm, show bi + 1 + (k - (8 - o)) / 8 = (r * gw + k) / 8 by omega,
          show (k - (8 - o)) % 8 = (r * gw + k) % 8 by omega]
      · rw [if_neg hm, lastChunk, if_neg (by omega)]
        simp only [chunksBit]
        rw [if_pos (by omega), show bi + 1 + (gw - (8 - o)) / 8 = (r * gw + k) / 8 by omega,
          show k - (8 - o) - 8 * ((gw - (8 - o)) / 8) = (r * gw + k) % 8 by omega]

/-- The chunks of one glyph row hold its bits, column 0 first (R75, R76, R202). -/
theorem glyphRowChunks_stream (rom : Memory) (fp sp : Word) (j r : Nat) :
    let cs := glyphRowChunks rom fp (glyphWidth rom fp) (glyphHeight rom fp) (glyphIndex rom sp j) r
    chunksLen cs = glyphWidth rom fp ∧ (∀ c ∈ cs, c.2 ≤ 8) ∧ ∀ k < glyphWidth rom fp, chunksBit cs k = glyphBit rom fp sp j r k := by
  simp only [glyphRowChunks]
  by_cases hg : glyphWidth rom fp ≤ 8
  · simp only [if_pos hg]
    refine ⟨by simp [chunksLen], fun c hc => ?_, fun k hk => ?_⟩
    · rw [List.mem_singleton] at hc; subst hc; exact hg
    · simp only [chunksBit, glyphBit]
      rw [if_pos hk, if_pos hg]
  · simp only [if_neg hg]
    obtain ⟨h1, h2, h3⟩ := wideChunks_stream rom
      (glyphBase fp (glyphWidth rom fp) (glyphHeight rom fp) (glyphIndex rom sp j)) (glyphWidth rom fp) r (by omega)
    refine ⟨h1, h2, fun k hk => ?_⟩
    simp only [glyphBit]
    rw [h3 k hk, if_neg hg]

/-- The chunks of row `r` of a string hold, at `J * GW + k`, bit `k` of that row of character `J` (R205, R207). -/
theorem stringRowChunks_stream (rom : Memory) (fp sp : Word) (r j n : Nat) :
    let cs := stringRowChunks rom fp sp (glyphWidth rom fp) (glyphHeight rom fp) r j n
    chunksLen cs = n * glyphWidth rom fp ∧ (∀ c ∈ cs, c.2 ≤ 8) ∧
      ∀ i < n * glyphWidth rom fp, chunksBit cs i = glyphBit rom fp sp (j + i / glyphWidth rom fp) r (i % glyphWidth rom fp) := by
  induction n generalizing j with
  | zero => exact ⟨by simp [stringRowChunks, chunksLen], by simp [stringRowChunks], fun i hi => by omega⟩
  | succ n ih =>
    obtain ⟨h1, h2, h3⟩ := ih (j + 1)
    obtain ⟨g1, g2, g3⟩ := glyphRowChunks_stream rom fp sp j r
    refine ⟨?_, ?_, fun i hi => ?_⟩
    · simp only [stringRowChunks, chunksLen_append, h1, g1, Nat.succ_mul]; omega
    · intro c hc
      rcases List.mem_append.1 hc with hc | hc
      · exact g2 c hc
      · exact h2 c hc
    · simp only [stringRowChunks, chunksBit_append, g1]
      rw [Nat.succ_mul] at hi
      by_cases hf : i < glyphWidth rom fp
      · rw [if_pos hf, g3 i hf, Nat.div_eq_of_lt hf, Nat.mod_eq_of_lt hf, Nat.add_zero]
      · have hle : glyphWidth rom fp ≤ i := by omega
        have hpos : 0 < glyphWidth rom fp := by
          rcases Nat.eq_zero_or_pos (glyphWidth rom fp) with h0 | h0
          · rw [h0] at hi; omega
          · exact h0
        rw [if_neg hf, h3 _ (by omega), Nat.mod_eq_sub_mod hle, Nat.div_eq_sub_div hpos hle,
          show j + 1 + (i - glyphWidth rom fp) / glyphWidth rom fp = j + ((i - glyphWidth rom fp) / glyphWidth rom fp + 1) by omega]

/-! ## The accumulator (R203) -/

/-- The accumulator holds nothing above the pending bits, of which there are at most seven. -/
structure Packer.Ok (k : Packer) : Prop where
  pend : k.pend ≤ 7
  above : ∀ i, k.pend ≤ i → k.acc.getLsbD i = false

theorem foldedAcc_getLsbD {k : Packer} (hk : k.Ok) (value : Byte) {nb : Nat} (hn : nb ≤ 8) (i : Nat) :
    (foldedAcc k value nb).getLsbD i =
      if i < k.pend then k.acc.getLsbD i else if i < k.pend + nb then value.getLsbD (i - k.pend) else false := by
  have hp := hk.pend
  simp only [foldedAcc, BitVec.getLsbD_or, BitVec.getLsbD_shiftLeft, BitVec.getLsbD_setWidth, BitVec.getLsbD_and]
  by_cases h1 : i < k.pend
  · simp [h1]
  · rw [if_neg h1, hk.above i (by omega)]
    by_cases h2 : i < k.pend + nb
    · rw [if_pos h2, mask_getLsbD (by omega)]
      have e1 : i < 16 := by omega
      have e2 : i - k.pend < 16 := by omega
      have e3 : i - k.pend < nb := by omega
      simp [h1, e1, e2, e3]
    · rw [if_neg h2]
      by_cases h8 : i - k.pend < 8
      · rw [mask_getLsbD h8]
        have e3 : ¬ i - k.pend < nb := by omega
        simp [e3]
      · have : value.getLsbD (i - k.pend) = false := BitVec.getLsbD_of_ge _ _ (by omega)
        simp [this]

theorem byteOf_getLsbD (f : Nat → Bool) {k : Nat} (hk : k < 8) : (byteOf f).getLsbD k = f k := by
  rw [byteOf, BitVec.getLsbD_ofFnLE, dif_pos hk]

/-- A byte is the byte of its bits. -/
theorem byteOf_eq {f : Nat → Bool} {b : Byte} (h : ∀ k < 8, f k = b.getLsbD k) : byteOf f = b := by
  apply BitVec.eq_of_getLsbD_eq
  intro k hk
  rw [byteOf_getLsbD f hk, h k hk]

section ready

variable {s : State}

/-- One data write in an open write stream draws the eight bits of its byte. -/
theorem writeData_draws (h : s.noWait) (hp : s.par.distinct) (hir : s.dev.ir = some s.par.cmdWrite) (hndr : s.ndr = true) (b : Byte) :
    ∃ t, writeData b s = .done () t ∧ t.trace = s.trace ++ [.write .data b] ∧
      Drawn s t 1 (fun q => if s.dev.dc.toNat = q / 8 then b.getLsbD (q % 8) else s.dev.mem.pixel q) ∧
      t.dev.ir = s.dev.ir ∧ t.dev.dc = s.dev.dc + 1 := by
  have hr := writeData_noWait h hp hir b
  refine ⟨_, hr, rfl, ⟨(assembled_writeData _).framed.done hr, rfl, by simp, by simp [hndr], by simp, fun q => ?_⟩, rfl, rfl⟩
  simp only [Device.store_mem, Memory.pixel_write]

/-- The bits that a packer and the chunks to come hold together, from the packer's address on. -/
def packedBit (k : Packer) (cs : List (Byte × Nat)) (i : Nat) : Bool :=
  if i < k.pend then k.acc.getLsbD i else chunksBit cs (i - k.pend)

/-- Folding chunks streams their bits, after the pending ones, byte by byte from the packer's address on; the last bits stay pending. -/
theorem foldChunks_draws (cs : List (Byte × Nat)) (k : Packer) (h : s.noWait) (hp : s.par.distinct)
    (hir : s.dev.ir = some s.par.cmdWrite) (hndr : s.ndr = true) (hdc : s.dev.dc = k.a) (hk : k.Ok) (hcs : ∀ c ∈ cs, c.2 ≤ 8)
    (hlen : 8 * k.a.toNat + k.pend + chunksLen cs < 8 * 65536) :
    ∃ k' t, foldChunks cs k s = .done k' t ∧ k'.Ok ∧ k'.pend = (k.pend + chunksLen cs) % 8 ∧
      k'.a.toNat = k.a.toNat + (k.pend + chunksLen cs) / 8 ∧
      (∀ i < k'.pend, k'.acc.getLsbD i = packedBit k cs (8 * ((k.pend + chunksLen cs) / 8) + i)) ∧
      t.trace = s.trace ++
        (List.range ((k.pend + chunksLen cs) / 8)).map (fun j => .write .data (byteOf (fun i => packedBit k cs (8 * j + i)))) ∧
      Drawn s t ((k.pend + chunksLen cs) / 8)
        (fun q => if 8 * k.a.toNat ≤ q ∧ q < 8 * k'.a.toNat then packedBit k cs (q - 8 * k.a.toNat) else s.dev.mem.pixel q) := by
  induction cs generalizing s k with
  | nil =>
    have hpk := hk.pend
    refine ⟨k, s, rfl, hk, by simp only [chunksLen]; omega, by simp only [chunksLen]; omega, fun i hi => ?_,
      by rw [show (k.pend + chunksLen []) / 8 = 0 by simp only [chunksLen]; omega]; simp,
      (Drawn.nothing s).congr (by simp only [chunksLen]; omega) (fun q => ?_)⟩
    · rw [packedBit, show 8 * ((k.pend + chunksLen []) / 8) + i = i by simp only [chunksLen]; omega, if_pos hi]
    · rw [if_neg (by omega)]
  | cons c cs ih =>
    obtain ⟨value, nb⟩ := c
    have hpk := hk.pend
    have hnb : nb ≤ 8 := hcs (value, nb) (by simp)
    have hcs' : ∀ d ∈ cs, d.2 ≤ 8 := fun d hd => hcs d (by simp [hd])
    have hL : chunksLen ((value, nb) :: cs) = nb + chunksLen cs := rfl
    rw [hL] at hlen
    -- what the accumulator holds after the bits are put in
    have hacc := foldedAcc_getLsbD hk value hnb
    have hmerge : ∀ i, (if i < k.pend + nb then (foldedAcc k value nb).getLsbD i else chunksBit cs (i - (k.pend + nb))) =
        packedBit k ((value, nb) :: cs) i := by
      intro i
      simp only [packedBit, chunksBit, hacc]
      by_cases h1 : i < k.pend
      · rw [if_pos (by omega), if_pos h1, if_pos h1]
      · rw [if_neg h1]
        by_cases h2 : i < k.pend + nb
        · rw [if_pos h2, if_neg h1, if_pos h2, if_pos (by omega)]
        · rw [if_neg h2, if_neg h1, if_neg (by omega), show i - k.pend - nb = i - (k.pend + nb) by omega]
    rw [foldChunks]
    by_cases h8 : 8 ≤ k.pend + nb
    · obtain ⟨u, hu, hut, hdu, huir, hudc⟩ := writeData_draws h hp hir hndr ((foldedAcc k value nb).extractLsb' 0 8)
      have hf : fold k value nb s = .done ⟨k.a + 1, foldedAcc k value nb >>> 8, k.pend + nb - 8⟩ u := by
        rw [fold, if_pos h8, andThen_done hu]; rfl
      have ha1 : (k.a + 1).toNat = k.a.toNat + 1 := by
        rw [BitVec.toNat_add]; simp; omega
      have hok : (⟨k.a + 1, foldedAcc k value nb >>> 8, k.pend + nb - 8⟩ : Packer).Ok :=
        ⟨by show k.pend + nb - 8 ≤ 7; omega, fun i hi => by
          have hi : k.pend + nb - 8 ≤ i := hi
          rw [BitVec.getLsbD_ushiftRight, hacc, if_neg (by omega), if_neg (by omega)]⟩
      obtain ⟨k', t, ht, h1, h2, h3, h4, htr, h5⟩ := ih ⟨k.a + 1, foldedAcc k value nb >>> 8, k.pend + nb - 8⟩ (hdu.noWait h)
        (hdu.distinct hp) (by rw [huir, hir, hdu.frame.par]) (by rw [hdu.ndr]; rfl) (by rw [hudc, hdc]) hok hcs'
        (by show 8 * (k.a + 1).toNat + (k.pend + nb - 8) + chunksLen cs < 8 * 65536; rw [ha1]; omega)
      simp only [ha1] at h2 h3 h4 htr h5
      have hpb : ∀ i, packedBit ⟨k.a + 1, foldedAcc k value nb >>> 8, k.pend + nb - 8⟩ cs i =
          packedBit k ((value, nb) :: cs) (8 + i) := by
        intro i
        rw [← hmerge]
        simp only [packedBit, BitVec.getLsbD_ushiftRight]
        by_cases h1 : i < k.pend + nb - 8
        · rw [if_pos h1, if_pos (by omega)]
        · rw [if_neg h1, if_neg (by omega), show 8 + i - (k.pend + nb) = i - (k.pend + nb - 8) by omega]
      refine ⟨k', t, by rw [andThen_done hf, ht], h1, by rw [h2, hL]; omega, by rw [h3, hL]; omega, fun i hi => ?_, ?_,
        (hdu.trans h5).congr (by rw [hL]; omega) (fun q => ?_)⟩
      · rw [h4 i hi, hpb, hL]
        congr 1; omega
      · rw [htr, hut, hL, show (k.pend + (nb + chunksLen cs)) / 8 = (k.pend + nb - 8 + chunksLen cs) / 8 + 1 by omega,
          List.range_succ_eq_map, List.map_cons, List.map_map, List.append_assoc, List.singleton_append]
        congr 3
        · refine (byteOf_eq (fun i hi => ?_)).symm
          rw [← hmerge, if_pos (by omega), BitVec.getLsbD_extractLsb']
          simp [hi]
        · funext j
          simp only [Function.comp, hpb]
          congr 2
          funext i
          congr 1
          omega
      · simp only [hpb]
        rw [hdu.pixel, hdc]
        by_cases hq1 : 8 * (k.a.toNat + 1) ≤ q ∧ q < 8 * k'.a.toNat
        · rw [if_pos hq1, if_pos (by omega)]; congr 1; omega
        · rw [if_neg hq1]
          by_cases hq2 : k.a.toNat = q / 8
          · rw [if_pos hq2, if_pos (by omega), ← hmerge, if_pos (by omega), BitVec.getLsbD_extractLsb',
              show q - 8 * k.a.toNat = q % 8 by omega]
            simp [Nat.mod_lt]
          · rw [if_neg hq2, if_neg (by omega)]
    · have hf : fold k value nb s = .done ⟨k.a, foldedAcc k value nb, k.pend + nb⟩ s := by rw [fold, if_neg h8]; rfl
      have hok : (⟨k.a, foldedAcc k value nb, k.pend + nb⟩ : Packer).Ok :=
        ⟨by show k.pend + nb ≤ 7; omega, fun i hi => by
          have hi : k.pend + nb ≤ i := hi
          show (foldedAcc k value nb).getLsbD i = false
          rw [hacc, if_neg (by omega), if_neg (by omega)]⟩
      obtain ⟨k', t, ht, h1, h2, h3, h4, htr, h5⟩ := ih ⟨k.a, foldedAcc k value nb, k.pend + nb⟩ h hp hir hndr hdc hok hcs'
        (by show 8 * k.a.toNat + (k.pend + nb) + chunksLen cs < 8 * 65536; omega)
      simp only at h2 h3 h4 htr h5
      have hpb : ∀ i, packedBit ⟨k.a, foldedAcc k value nb, k.pend + nb⟩ cs i = packedBit k ((value, nb) :: cs) i := hmerge
      refine ⟨k', t, by rw [andThen_done hf, ht], h1, by rw [h2, hL]; congr 1; omega, by rw [h3, hL]; congr 2; omega,
        fun i hi => ?_, by rw [htr, hL, Nat.add_assoc]; simp only [hpb], h5.congr (by rw [hL]; congr 1; omega) (fun q => ?_)⟩
      · rw [h4 i hi, hpb, hL, Nat.add_assoc]
      · simp only [hpb]

/-! ## One display row (R205) -/

/-- The number of transport events of a display row of `n` pixels at bit offset `off` (R206). -/
def textRowEventCount (off n : Nat) : Nat :=
  (if off = 0 then 0 else 8) + 5 + (off + n) / 8 + (if (off + n) % 8 = 0 then 0 else 14)

/-- The state after a row's set cursor and begin write. -/
def State.streaming (s : State) (a : Word) : State :=
  { s with
    trace := s.trace ++ setCursorTrace s.par a ++ beginWriteTrace s.par, cur := a, ndr := true,
    dev := { s.dev with dc := a, ir := some s.par.cmdWrite } }

/-- The head of a row, its set cursor and its begin write draw nothing; the packer then holds the background left of the text. -/
theorem textStart_draws (h : s.noWait) (hp : s.par.distinct) (a : Word) {off : Nat} (ho : off < 8) :
    ∃ k u, (∀ f : Packer → Seq Unit,
        andThen (textHead a off) (fun k => inOrder [setCursorAddress a, beginWrite, f k]) s = inOrder [f k] u) ∧
      u.trace = s.trace ++
        ((if off = 0 then []
          else setCursorTrace s.par a ++ beginReadTrace s.par true s.dev.latch ++ [.read .data (s.dev.mem.read a)])
          ++ (setCursorTrace s.par a ++ beginWriteTrace s.par)) ∧
      k.a = a ∧ k.pend = off ∧ k.Ok ∧ (∀ i < off, k.acc.getLsbD i = s.dev.mem.pixel (8 * a.toNat + i)) ∧
      Drawn s u ((if off = 0 then 0 else 8) + 5) s.dev.mem.pixel ∧ u.dev.ir = some u.par.cmdWrite ∧ u.dev.dc = a := by
  -- set cursor and begin write
  have hstart : ∀ w : State, w.noWait → w.par.distinct → ∀ (k : Packer) (f : Packer → Seq Unit),
      inOrder [setCursorAddress a, beginWrite, f k] w = inOrder [f k] (w.streaming a) := by
    intro w hw hpw k f
    rw [inOrder_done (setCursorAddress_noWait hw hpw a), inOrder_done (beginWrite_noWait (by exact hw))]
    rfl
  by_cases h0 : off = 0
  · refine ⟨⟨a, 0, 0⟩, s.streaming a, fun f => by rw [textHead, if_pos h0, andThen_done (yield_eq _ _)]; exact hstart s h hp _ f,
      by simp [h0, State.streaming], rfl, h0.symm,
      ⟨Nat.zero_le 7, fun i _ => by simp⟩, fun i hi => by omega, ⟨?_, rfl, ?_, rfl, fun hc => by omega, fun q => rfl⟩, rfl, rfl⟩
    · have h1 := (assembled_setCursorAddress a).framed.done (setCursorAddress_noWait h hp a)
      have h2 := assembled_beginWrite.framed.done (beginWrite_noWait
        (s := { s with
          trace := s.trace ++ setCursorTrace s.par a, cur := a, ndr := true,
          dev := { s.dev with dc := a, ir := some s.par.cmdCurHi } }) (by exact h))
      exact h1.trans h2
    · simp [h0, State.streaming, setCursorTrace, beginWriteTrace]
  · have hr := readByteAt_noWait h hp a
    refine ⟨⟨a, (s.dev.mem.read a &&& mask 0 off).setWidth 16, off⟩, (State.streaming
      { s with
        trace := s.trace ++ (setCursorTrace s.par a ++ beginReadTrace s.par true s.dev.latch
          ++ [.read .data (s.dev.mem.read a)]),
        cur := a, ndr := false,
        dev := { s.dev with ir := some s.par.cmdRead, latch := s.dev.mem.read (a + 1), dc := a + 1 + 1 } } a), fun f => ?_,
      by simp [h0, State.streaming], rfl, rfl, ⟨by show off ≤ 7; omega, fun i hi => ?_⟩,
      fun i hi => ?_, ⟨?_, rfl, ?_, rfl, fun hc => by simp [h0] at hc, fun q => rfl⟩, rfl, rfl⟩
    · rw [textHead, if_neg h0, andThen_done (by rw [andThen_done hr]; exact yield_eq _ _)]
      exact hstart _ (by exact h) (by exact hp) _ f
    · have hi : off ≤ i := hi
      rw [BitVec.getLsbD_setWidth, BitVec.getLsbD_and]
      by_cases h8 : i < 8
      · rw [mask_getLsbD h8]
        have : ¬ i < off := by omega
        simp [this]
      · rw [BitVec.getLsbD_of_ge (s.dev.mem.read a) i (by omega)]; simp
    · have h8 : i < 8 := by omega
      rw [BitVec.getLsbD_setWidth, BitVec.getLsbD_and, mask_getLsbD h8, Memory.read_getLsbD _ _ _ h8]
      have : i < 16 := by omega
      simp [this, hi]
    · have h1 := (assembled_readByteAt a).framed.done hr
      have h2 := (assembled_setCursorAddress a).framed.done (setCursorAddress_noWait
        (s := { s with
          trace := s.trace ++ (setCursorTrace s.par a ++ beginReadTrace s.par true s.dev.latch
            ++ [.read .data (s.dev.mem.read a)]),
          cur := a, ndr := false,
          dev := { s.dev with ir := some s.par.cmdRead, latch := s.dev.mem.read (a + 1), dc := a + 1 + 1 } })
        (by exact h) (by exact hp) a)
      exact (h1.trans h2).trans (assembled_beginWrite.framed.done (beginWrite_noWait (by exact h)))
    · simp [h0, State.streaming, setCursorTrace, beginReadTrace, beginWriteTrace]

/-- One display row draws exactly the bits of its chunks, from bit `off` of byte address `a` on, in the events of R206. -/
theorem textRow_draws (h : s.noWait) (hp : s.par.distinct) (a : Word) {off : Nat} (ho : off < 8) (cs : List (Byte × Nat))
    (hcs : ∀ c ∈ cs, c.2 ≤ 8) (hlen : 8 * a.toNat + off + chunksLen cs < 8 * 65535) :
    ∃ t, textRow a off cs s = .done () t ∧
      Drawn s t (textRowEventCount off (chunksLen cs))
        (fun q =>
          if 8 * a.toNat + off ≤ q ∧ q < 8 * a.toNat + off + chunksLen cs then chunksBit cs (q - (8 * a.toNat + off))
          else s.dev.mem.pixel q) := by
  obtain ⟨k, u, hu, -, hka, hkp, hok, hbg, hdu, hir, hdc⟩ := textStart_draws h hp a ho
  obtain ⟨k', w, hw, hok', hp', ha', hb', -, hdw⟩ := foldChunks_draws cs k (hdu.noWait h) (hdu.distinct hp) hir
    (by rw [hdu.ndr]; simp) (by rw [hdc, hka]) hok hcs (by rw [hka, hkp]; omega)
  simp only [hka, hkp] at hp' ha' hb' hdw
  have hpix : ∀ i, off ≤ i → packedBit k cs i = chunksBit cs (i - off) := by
    intro i hi; rw [packedBit, hkp, if_neg (by omega)]
  have hbg' : ∀ i < off, packedBit k cs i = s.dev.mem.pixel (8 * a.toNat + i) := by
    intro i hi; rw [packedBit, hkp, if_pos hi, hbg i hi]
  have hrow : textRow a off cs s = inOrder [andThen (foldChunks cs k) textTail] u := hu _
  by_cases h0 : k'.pend = 0
  · have ht : textTail k' w = .done () w := by rw [textTail, if_pos h0]; rfl
    refine ⟨w, by rw [hrow, inOrder_done (by rw [andThen_done hw, ht])]; rfl, (hdu.trans hdw).congr ?_ (fun q => ?_)⟩
    · unfold textRowEventCount; rw [if_pos (by omega : (off + chunksLen cs) % 8 = 0)]; omega
    · rw [hdu.pixel, ha']
      by_cases h1 : 8 * a.toNat ≤ q ∧ q < 8 * (a.toNat + (off + chunksLen cs) / 8)
      · rw [if_pos h1]
        by_cases h2 : 8 * a.toNat + off ≤ q
        · rw [if_pos (by omega), hpix _ (by omega)]; congr 1; omega
        · rw [if_neg (by omega), hbg' _ (by omega)]; congr 1; omega
      · rw [if_neg h1, if_neg (by omega)]
  · obtain ⟨t, ht, hdt, -⟩ := rmw_draws (hdw.noWait (hdu.noWait h)) (hdw.distinct (hdu.distinct hp)) k'.a (off := 0) (n := k'.pend)
      (by have := hok'.pend; omega) (k'.acc.extractLsb' 0 8)
    have htail : textTail k' w = .done () t := by rw [textTail, if_neg h0]; exact ht
    refine ⟨t, by rw [hrow, inOrder_done (by rw [andThen_done hw, htail])]; rfl,
      ((hdu.trans hdw).trans hdt).congr ?_ (fun q => ?_)⟩
    · unfold textRowEventCount; rw [if_neg (by omega : ¬ (off + chunksLen cs) % 8 = 0)]
    · rw [ha', hp']
      by_cases h1 : 8 * (a.toNat + (off + chunksLen cs) / 8) + 0 ≤ q ∧
          q < 8 * (a.toNat + (off + chunksLen cs) / 8) + 0 + (off + chunksLen cs) % 8
      · have hq8 : q % 8 < k'.pend := by omega
        have e1 : (k'.acc.extractLsb' 0 8).getLsbD (q % 8) = k'.acc.getLsbD (q % 8) := by
          rw [BitVec.getLsbD_extractLsb']; simp [Nat.mod_lt]
        rw [if_pos h1, e1, hb' _ hq8]
        by_cases h2 : 8 * a.toNat + off ≤ q
        · rw [if_pos (by omega), hpix _ (by omega)]; congr 1; omega
        · rw [if_neg (by omega), hbg' _ (by omega)]; congr 1; omega
      · rw [if_neg h1, hdw.pixel, ha', hdu.pixel]
        by_cases h3 : 8 * a.toNat ≤ q ∧ q < 8 * (a.toNat + (off + chunksLen cs) / 8)
        · rw [if_pos h3]
          by_cases h2 : 8 * a.toNat + off ≤ q
          · rw [if_pos (by omega), hpix _ (by omega)]; congr 1; omega
          · rw [if_neg (by omega), hbg' _ (by omega)]; congr 1; omega
        · rw [if_neg h3, if_neg (by omega)]

end ready

/-- The events of one display row: head, body and tail (R205, R206). -/
theorem issues_textRow (a : Word) {off : Nat} (ho : off < 8) (cs : List (Byte × Nat)) (hcs : ∀ c ∈ cs, c.2 ≤ 8)
    (hlen : 8 * a.toNat + off + chunksLen cs < 8 * 65535) {bit : Nat → Bool} (hbit : ∀ i < chunksLen cs, chunksBit cs i = bit i) :
    Issues (textRow a off cs) (fun p d => textRowTrace p d a off (chunksLen cs) bit) := by
  refine ⟨assembled_textRow _ _ _, fun s h hp => ?_⟩
  obtain ⟨k, u, hu, hut, hka, hkp, hok, hbg, hdu, hir, hdc⟩ := textStart_draws h hp a ho
  obtain ⟨k', w, hw, hok', hp', ha', hb', hwt, hdw⟩ := foldChunks_draws cs k (hdu.noWait h) (hdu.distinct hp) hir
    (by rw [hdu.ndr]; simp) (by rw [hdc, hka]) hok hcs (by rw [hka, hkp]; omega)
  simp only [hka, hkp] at hp' ha' hb' hwt
  have hrow : textRow a off cs s = inOrder [andThen (foldChunks cs k) textTail] u := hu _
  -- the packed bits are the stream
  have hstream : ∀ i < off + chunksLen cs, packedBit k cs i = if i < off then (s.dev.mem.read a).getLsbD i else bit (i - off) := by
    intro i hi
    rw [packedBit, hkp]
    by_cases h1 : i < off
    · rw [if_pos h1, if_pos h1, hbg i h1, Memory.read_getLsbD _ _ _ (by omega)]
    · rw [if_neg h1, if_neg h1, hbit _ (by omega)]
  have hbytes : (List.range ((off + chunksLen cs) / 8)).map
      (fun j => Event.write .data (byteOf (fun i => packedBit k cs (8 * j + i)))) =
      (List.range ((off + chunksLen cs) / 8)).map (fun j => Event.write .data (byteOf (fun i =>
        if 8 * j + i < off then (s.dev.mem.read a).getLsbD (8 * j + i) else bit (8 * j + i - off)))) := by
    refine List.map_congr_left (fun j hj => ?_)
    rw [List.mem_range] at hj
    refine congrArg _ (byteOf_eq (fun i hi => ?_))
    rw [byteOf_getLsbD _ hi, hstream _ (by omega)]
  -- head and body
  have hpar : u.par = s.par := hdu.frame.par
  have hhb : Assembled (andThen (textHead a off)
      (fun k => inOrder [setCursorAddress a, beginWrite, andThen (foldChunks cs k) (fun _ => skip)])) :=
    .andThen (assembled_textHead _ _) (fun k => assembled_inOrder_cons (assembled_setCursorAddress a)
      (assembled_inOrder_cons assembled_beginWrite
        (assembled_inOrder_one (.andThen (assembled_foldChunks cs k) (fun _ => assembled_skip)))))
  obtain ⟨es, e1, e2⟩ := hhb.afterEvents h
    ((hu (fun k => andThen (foldChunks cs k) (fun _ => skip))).trans (inOrder_done (by rw [andThen_done hw]; rfl)))
  have hes := e1.symm.trans (hwt.trans (by rw [hut, hbytes]))
  rw [List.append_assoc] at hes
  have hes := List.append_cancel_left hes
  have hwd : w.dev = (s.dev.afterEvents s.par (if off = 0 then []
      else setCursorTrace s.par a ++ beginReadTrace s.par true s.dev.latch ++ [.read .data (s.dev.mem.read a)])).afterEvents s.par
        (setCursorTrace s.par a ++ beginWriteTrace s.par ++ (List.range ((off + chunksLen cs) / 8)).map (fun j =>
          .write .data (byteOf (fun i =>
            if 8 * j + i < off then (s.dev.mem.read a).getLsbD (8 * j + i) else bit (8 * j + i - off))))) := by
    rw [← Device.afterEvents_append, e2, hes, List.append_assoc, List.append_assoc, List.append_assoc]
  have hwp : w.par = s.par := hdw.frame.par.trans hpar
  have hwn : w.noWait := hdw.noWait (hdu.noWait h)
  have hwq : w.par.distinct := hdw.distinct (hdu.distinct hp)
  simp only [textRowTrace, eventsInOrder_cons, eventsInOrder_nil, List.append_nil, ← hwd]
  by_cases h0 : k'.pend = 0
  · have ht : textTail k' w = .done () w := by rw [textTail, if_pos h0]; rfl
    refine ⟨w, by rw [hrow, inOrder_done (by rw [andThen_done hw, ht])]; rfl, ?_⟩
    rw [if_pos (by omega : (off + chunksLen cs) % 8 = 0), List.append_nil, hwt, hut, hbytes]
    simp only [List.append_assoc]
  · have ht := rmw_noWait hwn hwq k'.a (mask 0 k'.pend) (k'.acc.extractLsb' 0 8)
    refine ⟨_, by rw [hrow, inOrder_done (by rw [andThen_done hw, textTail, if_neg h0]; exact ht)]; rfl, ?_⟩
    have hka' : k'.a = a + BitVec.ofNat 16 ((off + chunksLen cs) / 8) := by
      apply BitVec.eq_of_toNat_eq
      rw [ha', BitVec.toNat_add, BitVec.toNat_ofNat]
      omega
    have hv : k'.acc.extractLsb' 0 8 &&& mask 0 k'.pend = byteOf (fun i =>
        if 8 * ((off + chunksLen cs) / 8) + i < off then (s.dev.mem.read a).getLsbD (8 * ((off + chunksLen cs) / 8) + i)
        else bit (8 * ((off + chunksLen cs) / 8) + i - off)) &&& mask 0 ((off + chunksLen cs) % 8) := by
      rw [hp']
      apply BitVec.eq_of_getLsbD_eq
      intro i hi
      rw [BitVec.getLsbD_and, BitVec.getLsbD_and, mask_getLsbD hi, byteOf_getLsbD _ hi]
      by_cases h1 : i < (off + chunksLen cs) % 8
      · rw [← hstream _ (by omega), ← hb' i (by omega), BitVec.getLsbD_extractLsb']
        simp [hi]
      · have : ¬ (0 ≤ i ∧ i < 0 + (off + chunksLen cs) % 8) := by omega
        rw [decide_eq_false this, Bool.and_false, Bool.and_false]
    rw [if_neg (by omega : ¬ (off + chunksLen cs) % 8 = 0), rmwTraceOn, ← hv, ← hka', ← hp', hwt, hut, hbytes, hwp, merge]
    simp only [List.append_assoc]

end Sys2Proof.Machine
end

