-- ==== Sys2Proof/Laws/PerInstr.lean ====
section
/-! SUPPORT. The statements made command by command: the length of each command's encoding is the one its opcode byte fixes (R94). -/

namespace Sys2Proof.Laws.EncodeLength

/-- The first byte of the encoding of a command is its opcode, and the opcode map gives the encoding's length (R90, R94). -/
def Statement (i : Instr) : Prop := ∃ op rest, encode i = op :: rest ∧ opLength op = some (encode i).length

theorem init : Statement .init := ⟨_, _, rfl, rfl⟩

theorem setcur (a : Word) : Statement (.setcur a) := ⟨_, _, rfl, rfl⟩

theorem wrbegin : Statement .wrbegin := ⟨_, _, rfl, rfl⟩

theorem wrbyte (b : Byte) : Statement (.wrbyte b) := ⟨_, _, rfl, rfl⟩

theorem rdbegin : Statement .rdbegin := ⟨_, _, rfl, rfl⟩

theorem rdbyte : Statement .rdbyte := ⟨_, _, rfl, rfl⟩

theorem bitclr (n : Byte) : Statement (.bitclr n) := ⟨_, _, rfl, rfl⟩

theorem bitset (n : Byte) : Statement (.bitset n) := ⟨_, _, rfl, rfl⟩

theorem pixclr (x y : Byte) : Statement (.pixclr x y) := ⟨_, _, rfl, rfl⟩

theorem pixset (x y : Byte) : Statement (.pixset x y) := ⟨_, _, rfl, rfl⟩

theorem hline (x y len pat : Byte) : Statement (.hline x y len pat) := ⟨_, _, rfl, rfl⟩

theorem vline (c : Colour) (x y len : Byte) : Statement (.vline c x y len) := by
  cases c <;> exact ⟨_, _, rfl, rfl⟩

theorem line (c : Colour) (x0 y0 x1 y1 : Byte) : Statement (.line c x0 y0 x1 y1) := by
  cases c <;> exact ⟨_, _, rfl, rfl⟩

theorem rect (c : Colour) (x y w h : Byte) : Statement (.rect c x y w h) := by
  cases c <;> exact ⟨_, _, rfl, rfl⟩

theorem fillrect (c : Colour) (x y w h : Byte) : Statement (.fillrect c x y w h) := by
  cases c <;> exact ⟨_, _, rfl, rfl⟩

theorem patfill (x y w h : Byte) (pp : Word) : Statement (.patfill x y w h pp) := ⟨_, _, rfl, rfl⟩

theorem text (x y : Byte) (fp sp : Word) (nch : Byte) : Statement (.text x y fp sp nch) := ⟨_, _, rfl, rfl⟩

end Sys2Proof.Laws.EncodeLength
end

