-- ==== Sys2Proof/Tests/Slice0.lean ====
section
/-! SUPPORT. The model's own tests. Expected values are those of spec/95_test_vectors.md (the vector is named in each comment) or of the
rule named; then, for every obligation with hypotheses, a witness that meets them all together. -/

namespace Sys2Proof.Tests

open Sys2Proof Sys2Proof.Machine

/-! The few theorems marked `Elab.async false` wait for those before them, so that few kernel evaluations are under way at once. -/

/-! ## Well-formedness: the one operand check of the encoding (R95 (b)) -/

theorem test_wellFormed_bitclr_refuses_8 : (Instr.bitclr 8).wellFormed = false := by decide

theorem test_wellFormed_bitset_refuses_255 : (Instr.bitset 255).wellFormed = false := by decide

theorem test_wellFormed_bit_index_7 : (Instr.bitset 7).wellFormed = true ∧ (Instr.bitclr 7).wellFormed = true := by decide

theorem test_wellFormed_coordinate_off_surface : (Instr.pixset 255 255).wellFormed = true := by decide

/-! ## Decoding: E1 to E21 -/

theorem test_decode_E1 : decode [0x01] = .ok (.init, []) := rfl

theorem test_decode_E2 : decode [0x10, 0xFF, 0x0E] = .ok (.setcur 0x0EFF, []) := rfl

theorem test_decode_E3 : decode [0x11] = .ok (.wrbegin, []) := rfl

theorem test_decode_E4 : decode [0x12, 0xA5] = .ok (.wrbyte 0xA5, []) := rfl

theorem test_decode_E5 : decode [0x13] = .ok (.rdbegin, []) := rfl

theorem test_decode_E6 : decode [0x14] = .ok (.rdbyte, []) := rfl

theorem test_decode_E7 : decode [0x16, 0x03] = .ok (.bitclr 3, []) := rfl

theorem test_decode_E8 : decode [0x17, 0x07] = .ok (.bitset 7, []) := rfl

theorem test_decode_E9 : decode [0x20, 0x09, 0x02] = .ok (.pixclr 9 2, []) := rfl

theorem test_decode_E10 : decode [0x21, 0xEF, 0x7F] = .ok (.pixset 239 127, []) := rfl

theorem test_decode_E11 : decode [0x30, 0x03, 0x00, 0x0A, 0xFF] = .ok (.hline 3 0 10 0xFF, []) := rfl

theorem test_decode_E12 : decode [0x32, 0x04, 0x01, 0x02] = .ok (.vline .white 4 1 2, []) := rfl

theorem test_decode_E13 : decode [0x33, 0x04, 0x01, 0x02] = .ok (.vline .black 4 1 2, []) := rfl

theorem test_decode_E14 : decode [0x34, 0x00, 0x00, 0x02, 0x01] = .ok (.line .white 0 0 2 1, []) := rfl

theorem test_decode_E15 : decode [0x35, 0x00, 0x00, 0x02, 0x01] = .ok (.line .black 0 0 2 1, []) := rfl

theorem test_decode_E16 : decode [0x36, 0x02, 0x01, 0x06, 0x04] = .ok (.rect .white 2 1 6 4, []) := rfl

theorem test_decode_E17 : decode [0x37, 0x02, 0x01, 0x06, 0x04] = .ok (.rect .black 2 1 6 4, []) := rfl

theorem test_decode_E18 : decode [0x38, 0x00, 0x00, 0xF0, 0x80] = .ok (.fillrect .white 0 0 240 128, []) := rfl

theorem test_decode_E19 : decode [0x39, 0x08, 0x00, 0x10, 0x02] = .ok (.fillrect .black 8 0 16 2, []) := rfl

theorem test_decode_E20 :
    decode [0x3A, 0x00, 0x01, 0x10, 0x02, 0x34, 0x12] = .ok (.patfill 0 1 16 2 0x1234, []) := rfl

theorem test_decode_E21 :
    decode [0x40, 0x05, 0x00, 0x00, 0x01, 0x00, 0x02, 0x02] = .ok (.text 5 0 0x0100 0x0200 2, []) := rfl

/-- The illegal first bytes listed after E21. -/
theorem test_decode_illegal_first_bytes :
    ∀ op ∈ ([0x00, 0x02, 0x15, 0x18, 0x22, 0x31, 0x3B, 0x41, 0xFF] : List Byte), opLength op = none := by decide

theorem test_decode_illegal_first_byte_named : decode [0x15, 0x01] = .error (.unknownOpcode 0x15) := rfl

theorem test_decode_truncated : decode [0x10, 0x23] = .error (.truncated 0x10) := rfl

/-- The table's numbering of bits: byte 0 is bits 7 to 0; the bytes above `nbits` are zero. -/
theorem test_decodeTableWord :
    decodeTableWord 24 0x012310 = some (.setcur 0x0123) ∧ decodeTableWord 8 0x40 = some (.text 0 0 0 0 0) := by decide +kernel

/-- `CLS` of R99 is E18. -/
theorem test_encode_cls : encode (.fillrect .white 0 0 240 128) = [0x38, 0x00, 0x00, 0xF0, 0x80] := by decide

/-! ## States and outcomes -/

/-- After reset and INIT, with the given parameters, ROM and display memory. -/
def after (par : Params) (rom mem : Memory) : State :=
  { State.resetWith par rom [] [] false { Device.powerUp with mem := mem } with inited := true }

/-- After reset and INIT with the parameter values of the vectors, every byte of MEM and ROM 0x00. -/
def readyState : State := after Params.reference [] []

/-- The same with STRICT false. -/
def readyLoose : State := after { Params.reference with strict := false } [] []

/-- The same with busy-waits and a device busy for ever. -/
def readyBusy (limit : Option Nat) : State :=
  { after { Params.reference with waitBusy := true, busyPollLimit := limit } [] [] with busyRest := true }

/-- The state an outcome holds. -/
def nextOf : Host.Outcome State Fault Refusal → Option State
  | .next s => some s
  | .fault _ => none
  | .refused _ => none

/-- What `f` shows of the state a command leaves. -/
def shows {α : Type} (i : Instr) (s : State) (f : State → α) : Option α := (nextOf (exec i s)).map f

/-- An outcome that holds a state with property `p`. -/
theorem next_with {o : Host.Outcome State Fault Refusal} (p : State → Bool) (h : (nextOf o).any p = true) :
    ∃ t, o = .next t ∧ p t = true := by
  cases o with
  | next t => exact ⟨t, rfl, h⟩
  | fault f => cases h
  | refused r => cases h

/-- An outcome that is a next state. -/
theorem next_exists {o : Host.Outcome State Fault Refusal} (h : (nextOf o).isSome = true) : ∃ t, o = .next t := by
  cases o with
  | next t => exact ⟨t, rfl⟩
  | fault f => cases h
  | refused r => cases h

/-! ## One command each -/

set_option Elab.async false in
/-- V20: the mode-setup pairs are sent; NDR and INITED are 1. -/
theorem test_init_V20 :
    shows .init (State.resetWith { Params.reference with modeSetup := [(0x00, 0x32), (0x01, 0x07)] } [] [] [] false Device.powerUp)
      (fun t => (t.trace, t.inited, t.ndr, t.cp)) =
    some ([.init, .write .command 0x00, .write .data 0x32, .write .command 0x01, .write .data 0x07], true, true, 1) := by
  decide +kernel

/-- V53: a second INIT is illegal and issues nothing. -/
theorem test_init_twice : shows .init readyState (fun t => (t.err, t.trace, t.inited)) = some (4, [], true) := by decide +kernel

/-- V21. -/
theorem test_setcur_V21 :
    shows (.setcur 0x0123) readyState (fun t => (t.trace, t.cur, t.ndr, t.dev.dc)) =
    some ([.write .command 0x0A, .write .data 0x23, .write .command 0x0B, .write .data 0x01], 0x0123, true, 0x0123) := by
  decide +kernel

set_option Elab.async false in
/-- R122, R129: one event; NDR stays as it was. -/
theorem test_wrbegin :
    shows .wrbegin { readyState with ndr := false } (fun t => (t.trace, t.ndr)) = some ([.write .command 0x0C], false) := by
  decide +kernel

/-- The write stream of V22 at the top of memory: the cursor wraps mod 65536 (R63, R69). -/
theorem test_wrbyte_wraps :
    shows (.wrbyte 0xA5) { readyState with dev := ⟨[], 0xFFFF, some 0x0C, 0⟩ } (fun t => (t.dev.mem, t.dev.dc)) =
    some ([(65535, 0xA5)], 0) := by
  decide +kernel

/-- U4, R66: data with no command selected has no meaning. -/
theorem test_wrbyte_out_of_order : exec (.wrbyte 0xA5) readyState = .fault .dataWriteNoMeaning := rfl

/-- The memory of V23. -/
def memV23 : Memory := [(5, 0x11), (6, 0x22), (7, 0x33)]

set_option Elab.async false in
/-- V23, first RDBEGIN: with NDR 1 a discarded read comes first. -/
theorem test_rdbegin_with_dummy_V23 :
    shows .rdbegin { readyState with dev := ⟨memV23, 5, some 0x0B, 0x99⟩ } (fun t => (t.trace, t.ndr, t.dev.latch, t.dev.dc)) =
    some ([.write .command 0x0D, .read .data 0x99, .write .command 0x0D], false, 0x11, 6) := by
  decide +kernel

/-- V23, second RDBEGIN: with NDR 0 no read is discarded. -/
theorem test_rdbegin_without_dummy_V23 :
    shows .rdbegin { readyState with ndr := false, dev := ⟨memV23, 7, some 0x0D, 0x22⟩ } (fun t => (t.trace, t.dev.latch, t.dev.dc)) =
    some ([.write .command 0x0D], 0x22, 7) := by
  decide +kernel

/-- V23, second RDBYTE: the byte answered is the latch, not the byte at the device cursor. -/
theorem test_rdbyte_V23 :
    shows .rdbyte { readyState with ndr := false, dev := ⟨memV23, 7, some 0x0D, 0x22⟩ }
      (fun t => (t.resp, t.dev.latch, t.dev.dc, t.ndr)) =
    some ([0x22], 0x33, 8, false) := by
  decide +kernel

set_option Elab.async false in
/-- V24, last command: MEM[30] goes from 0x81 to 0x80. -/
theorem test_bitclr_V24 :
    shows (.bitclr 0) { readyState with dev := ⟨[(30, 0x81)], 0x1E, some 0x0B, 0⟩ } (fun t => (t.dev.mem, t.dev.dc, t.trace)) =
    some ([(30, 0x80)], 0x1F, [.write .command 0x0E, .write .data 0x00]) := by
  decide +kernel

/-- V24, second BITSET: MEM[30] goes from 0x01 to 0x81. -/
theorem test_bitset_V24 :
    shows (.bitset 7) { readyState with dev := ⟨[(30, 0x01)], 0x1E, some 0x0B, 0⟩ } (fun t => (t.dev.mem, t.dev.dc, t.trace)) =
    some ([(30, 0x81)], 0x1F, [.write .command 0x0F, .write .data 0x07]) := by
  decide +kernel

/-- V25, second command: MEM[61] goes from 0xFF to 0xFD. -/
theorem test_pixclr_V25 :
    shows (.pixclr 9 2) (after Params.reference [] [(61, 0xFF)]) (fun t => (t.dev.mem, t.cur, t.ndr)) =
    some ([(61, 0xFD)], 0x003D, true) := by
  decide +kernel

set_option Elab.async false in
/-- V25, first command, on a white background: the last pixel of the surface is bit 7 of byte 3839 (R16). -/
theorem test_pixset_last_pixel :
    shows (.pixset 239 127) readyState (fun t => (t.dev.mem, t.cur)) = some ([(3839, 0x80)], 0x0EFF) := by
  decide +kernel

/-- V1 (W1, corrected by C1): ten pixels from pixel 3. -/
theorem test_hline_V1 :
    shows (.hline 3 0 10 0xFF) readyState (fun t => (t.dev.mem, t.cur, t.trace.length)) =
    some ([(0, 0xF8), (1, 0x1F)], 0x0001, 28) := by
  decide +kernel

/-- V5: head, one streamed byte, tail; the pattern is not shifted. -/
theorem test_hline_V5 :
    shows (.hline 5 2 14 0x55) (after Params.reference [] [(60, 0xFF), (61, 0xFF), (62, 0xFF)])
      (fun t => (t.dev.mem, t.cur, t.trace.length)) =
    some ([(60, 0x5F), (61, 0x55), (62, 0xFD)], 0x003E, 29) := by
  decide +kernel

set_option Elab.async false in
/-- V30 (R156): bit 4 of bytes 30 and 60. -/
theorem test_vline_V30 :
    shows (.vline .black 4 1 2) readyState (fun t => (t.dev.mem, t.cur, t.trace.length)) =
    some ([(30, 0x10), (60, 0x10)], 0x003C, 12) := by
  decide +kernel

/-- V35: the end points given from the right; the points of V32. -/
theorem test_line_V35 :
    shows (.line .black 2 1 0 0) readyState (fun t => (t.dev.mem, t.cur, t.trace.length)) =
    some ([(0, 0x01), (30, 0x06)], 0x001E, 18) := by
  decide +kernel

/-- V38: a vertical LINE with LINE_DX0_INVERT, asked for black, draws white. -/
theorem test_line_V38 :
    shows (.line .black 4 2 4 1) (after { Params.reference with lineDx0Invert := true } [] [(30, 0xFF), (60, 0xFF)])
      (fun t => t.dev.mem) =
    some [(30, 0xEF), (60, 0xEF)] := by
  decide +kernel

/-- V39 (R163 (g)): slope 4:2, where the non-strict tests differ from the textbook. -/
theorem test_stepper_V39 : linePoints 0 0 4 2 = [(0, 0), (1, 1), (2, 1), (3, 2), (4, 2)] := by decide +kernel

set_option Elab.async false in
/-- V34 (R166): the rising line. -/
theorem test_stepper_V34 : linePoints 0 3 3 0 = [(0, 3), (1, 2), (2, 1), (3, 0)] := by decide +kernel

/-- V41: the outline 6 by 4. -/
theorem test_rect_V41 :
    shows (.rect .black 2 1 6 4) readyState (fun t => (t.dev.mem, t.cur, t.trace.length)) =
    some ([(30, 0xFC), (60, 0x84), (90, 0x84), (120, 0xFC)], 0x005A, 52) := by
  decide +kernel

set_option Elab.async false in
/-- V42, third command: one column. -/
theorem test_rect_one_column_V42 :
    shows (.rect .black 16 0 1 4) readyState (fun t => (t.dev.mem, t.trace.length)) =
    some ([(2, 0x01), (32, 0x01), (62, 0x01), (92, 0x01)], 40) := by
  decide +kernel

/-- V46: the unaligned fill of two rows. -/
theorem test_fillrect_V46 :
    shows (.fillrect .black 3 0 10 2) readyState (fun t => (t.dev.mem, t.cur, t.trace.length)) =
    some ([(0, 0xF8), (1, 0x1F), (30, 0xF8), (31, 0x1F)], 0x001F, 56) := by
  decide +kernel

/-- V49: a four-row pattern, the row chosen by the absolute row (R185; 90_conflicts and R186). -/
theorem test_patfill_V49 :
    shows (.patfill 4 6 8 3 0x0510)
      (after Params.reference [(0x510, 0x03), (0x511, 0xAA), (0x512, 0x55), (0x513, 0xFF), (0x514, 0x11)] [])
      (fun t => (t.dev.mem, t.cur)) =
    some ([(180, 0xF0), (181, 0x0F), (210, 0x10), (211, 0x01), (240, 0xA0), (241, 0x0A)], 0x00F1) := by
  decide +kernel

set_option Elab.async false in
/-- V50: a non-conforming mask with STRICT false. -/
theorem test_patfill_V50 :
    shows (.patfill 0 0 8 4 0x0520)
      (after { Params.reference with strict := false } [(0x520, 0x02), (0x521, 0x11), (0x522, 0x22), (0x523, 0x33)] [])
      (fun t => t.dev.mem) =
    some [(0, 0x11), (30, 0x11), (60, 0x33), (90, 0x33)] := by
  decide +kernel

/-- V9: a narrow font at offset 5 on a black background (R209). -/
theorem test_text_V9 :
    shows (.text 5 0 0x0100 0x0200 2)
      (after Params.reference
        [(0x100, 0x05), (0x101, 0x02), (0x104, 0x1F), (0x105, 0x11), (0x106, 0x0A), (0x107, 0x15), (0x200, 0x21), (0x201, 0x22)]
        [(0, 0xFF), (1, 0xFF), (30, 0xFF), (31, 0xFF)])
      (fun t => (t.dev.mem, t.cur, t.trace.length)) =
    some ([(0, 0xFF), (1, 0xAB), (30, 0x3F), (31, 0xD6)], 0x001F, 56) := by
  decide +kernel

set_option Elab.async false in
/-- V10: a wide font at offset 0 (R210). -/
theorem test_text_V10 :
    shows (.text 0 0 0x0300 0x0400 1)
      (after Params.reference [(0x300, 0x0C), (0x301, 0x02), (0x305, 0xA5), (0x306, 0xF3), (0x307, 0x0C), (0x400, 0x21)] [])
      (fun t => (t.dev.mem, t.cur, t.trace.length)) =
    some ([(0, 0xA5), (1, 0x03), (30, 0xCF)], 0x001F, 40) := by
  decide +kernel

/-- V54 (R231): `232 + 8 = 240` passes, `236 + 8 = 244` raises. -/
theorem test_bounds_V54 :
    shows (.hline 232 0 8 0xFF) readyState (fun t => t.err) = some 0 ∧
    shows (.hline 236 0 8 0xFF) readyState (fun t => (t.err, t.trace, t.cp)) = some (1, [], 5) := by
  decide +kernel

set_option Elab.async false in
/-- V58: a poll limit of 2, reached before the fourth write; `CUR` is not yet written. -/
theorem test_timeout_V58 :
    shows (.setcur 0x0123) { readyBusy (some 2) with busyAnswers := [false, false, true, false, true, true], busyRest := false }
      (fun t => (t.err, t.trace, t.cp, t.cur)) =
    some (3,
      [.busy false, .write .command 0x0A, .busy false, .write .data 0x23, .busy true, .busy false, .write .command 0x0B, .busy true,
        .busy true],
      3, 0) := by
  decide +kernel

/-! ## Witnesses of the obligations' hypotheses -/

/-- A stream at its position `cp`. -/
def streaming (s : State) (prog : List Byte) (cp : Nat) : State := { s with prog := prog, cp := cp }

theorem witness_EncodingIsUnique : decode [0x20, 0x09, 0x02, 0x14] = .ok (.pixclr 9 2, [0x14]) := rfl

theorem witness_LengthFromOpcode : opLength 0x10 = some 3 ∧ [(0x23 : Byte)].length + 1 < 3 ∧ 3 ≤ [(0x23 : Byte), 0x01].length + 1 := by
  decide

theorem witness_StepRunsTheDecodedCommand :
    (streaming readyState [0x01, 0x14, 0x11] 1).activity = .idle ∧ (streaming readyState [0x01, 0x14, 0x11] 1).err = 0 ∧
      decode ((streaming readyState [0x01, 0x14, 0x11] 1).prog.drop 1) = .ok (.rdbyte, [0x11]) := ⟨rfl, rfl, rfl⟩

theorem witness_StepWithoutACommand_end :
    (streaming readyState [0x14] 1).activity = .idle ∧ (streaming readyState [0x14] 1).prog.length ≤ (streaming readyState [0x14] 1).cp := by
  decide

theorem witness_StepWithoutACommand_unknown :
    (streaming readyState [0x14, 0x15] 1).activity = .idle ∧ (streaming readyState [0x14, 0x15] 1).err = 0 ∧
      (streaming readyState [0x14, 0x15] 1).prog[1]? = some 0x15 ∧ opLength 0x15 = none := by
  decide

theorem witness_StepWithoutACommand_truncated :
    (streaming readyState [0x14, 0x10, 0x23] 1).activity = .idle ∧ (streaming readyState [0x14, 0x10, 0x23] 1).err = 0 ∧
      (streaming readyState [0x14, 0x10, 0x23] 1).prog[1]? = some 0x10 ∧ opLength 0x10 = some 3 ∧
      (streaming readyState [0x14, 0x10, 0x23] 1).prog.length < 1 + 3 := by
  decide

theorem witness_FaultStateDiscardsTheStream :
    (streaming { readyState with err := 1 } [0x14, 0x10, 0x23] 1).activity = .idle ∧
      (streaming { readyState with err := 1 } [0x14, 0x10, 0x23] 1).err ≠ 0 ∧
      (streaming { readyState with err := 1 } [0x14, 0x10, 0x23] 1).cp + 2 ≤
        (streaming { readyState with err := 1 } [0x14, 0x10, 0x23] 1).prog.length := by
  decide

theorem witness_HangGoesOnForEver : ({ readyBusy none with activity := .busyWait } : State).activity = .busyWait := rfl

set_option Elab.async false in
theorem witness_CpAdvancesByTheLength : ∃ t, exec (.setcur 5) readyState = .next t ∧ decide (t.activity = .idle) = true :=
  next_with _ (by decide +kernel)

theorem witness_IllegalCommandErrors :
    (streaming readyState [0x14, 0x15] 1).activity = .idle ∧ (streaming readyState [0x14, 0x15] 1).err = 0 ∧
      (streaming readyState [0x14, 0x15] 1).prog[1]? = some 0x15 ∧ opLength 0x15 = none ∧
      decide (Instr.init = .init) = readyState.inited ∧ decide (Instr.rdbyte = .init) = State.reset.inited ∧
      readyState.inited = true ∧ 8 ≤ (8 : Byte).toNat ∧ readyState.err ≠ 4 ∧
      ∃ t, exec .init readyState = .next t ∧ decide (t.err = 4) = true :=
  ⟨rfl, rfl, rfl, rfl, rfl, rfl, rfl, by decide, by decide, next_with _ (by decide +kernel)⟩

/-- Each condition of R231 one past its limit, in a state with STRICT. -/
theorem witness_BoundsErrors :
    readyState.inited = true ∧ readyState.par.strict = true ∧ ¬ inBounds [] (.pixclr 240 127) ∧ ¬ inBounds [] (.pixset 239 128) ∧
      ¬ inBounds [] (.hline 230 127 11 0) ∧ ¬ inBounds [] (.vline .black 239 127 2) ∧ ¬ inBounds [] (.line .black 239 127 240 127) ∧
      ¬ inBounds [] (.rect .black 230 120 10 9) ∧ ¬ inBounds [] (.fillrect .black 0 1 1 128) ∧
      ¬ inBounds [] (.patfill 230 120 11 8 0) ∧ ¬ inBounds [(0, 241)] (.text 0 0 0 0 1) ∧
      (∃ t, exec (.pixset 239 128) readyState = .next t ∧ decide (t.err = 1) = true) ∧ readyState.err ≠ 1 := by
  refine ⟨rfl, rfl, ?_, ?_, ?_, ?_, ?_, ?_, ?_, ?_, ?_, next_with _ (by decide +kernel), by decide⟩ <;>
    simp only [inBounds] <;> decide

/-- The ROM of V56. -/
def readyV56 : State := after Params.reference [(0x520, 0x02), (0x521, 0x11), (0x522, 0x22), (0x523, 0x33)] []

theorem witness_InvalidPatternErrors :
    readyV56.inited = true ∧ readyV56.par.strict = true ∧ inBounds readyV56.rom (.patfill 230 120 10 8 0x520) ∧
      ((romRead readyV56.rom 0x520).toNat + 1) &&& (romRead readyV56.rom 0x520).toNat ≠ 0 ∧ readyV56.err ≠ 2 ∧
      ∃ t, exec (.patfill 0 0 8 4 0x520) readyV56 = .next t ∧ decide (t.err = 2) = true :=
  ⟨rfl, rfl, by simp only [inBounds]; decide, by decide, by decide, next_with _ (by decide +kernel)⟩

set_option Elab.async false in
theorem witness_NonStrictRaisesNoRangeError :
    readyLoose.par.strict = false ∧ ∃ t, exec .init readyLoose = .next t ∧ decide (t.err ≠ readyLoose.err) = true :=
  ⟨rfl, next_with _ (by decide +kernel)⟩

theorem witness_FirstErrorStays :
    ({ readyState with err := 2 } : State).err ≠ 0 ∧ (∃ t, exec (.pixset 240 0) { readyState with err := 2 } = .next t) ∧
      ∃ t, step { readyState with err := 2 } = .next t :=
  ⟨by decide, next_exists (by decide +kernel), next_exists (by decide +kernel)⟩

theorem witness_RangeErrorsArePrecise :
    readyState.err = 0 ∧ (∃ t, exec (.pixset 240 0) readyState = .next t ∧ decide (t.err = 1) = true) ∧
      (∃ t, exec (.patfill 0 0 8 1 0) (after Params.reference [(0, 2)] []) = .next t ∧ decide (t.err = 2) = true) ∧
      ∃ t, exec .init readyState = .next t ∧ decide (t.err = 4) = true :=
  ⟨rfl, next_with _ (by decide +kernel), next_with _ (by decide +kernel), next_with _ (by decide +kernel)⟩

/-- A SETCUR of four events, reset after two of them and after the last. -/
theorem witness_ResetDuringAStep :
    (streaming readyState [0x10, 0x23, 0x01] 0).hangJustified ∧
      (∃ t, step (streaming readyState [0x10, 0x23, 0x01] 0) = .next t ∧ decide (t.trace.length ≤ 0 + 4) = true) ∧
      ∃ u, resetDuring 2 (streaming readyState [0x10, 0x23, 0x01] 0) = .next u ∧ decide (u.dev.dc = 0x0023) = true :=
  ⟨by decide, next_with _ (by decide +kernel), next_with _ (by decide +kernel)⟩

/-- After reset, with the mode-setup list of V20. -/
def resetV20 : State :=
  State.resetWith { Params.reference with modeSetup := [(0x00, 0x32), (0x01, 0x07)] } [] [] [] false Device.powerUp

theorem witness_InitCompletes :
    resetV20.inited = false ∧ resetV20.noWait ∧ ∀ kd ∈ resetV20.par.modeSetup, kd.1 ∉ resetV20.par.deviceCommands := by
  refine ⟨rfl, rfl, ?_⟩
  simp [resetV20, State.resetWith, Params.reference, Params.deviceCommands]

theorem witness_SetcurAndWrbeginComplete : readyState.ready := by decide

/-- Ready, with a device command selected. -/
def selected (k : Byte) : State := { readyState with dev := { Device.powerUp with ir := some k } }

theorem witness_WrbyteStores : (selected 0x0C).ready ∧ (selected 0x0C).dev.ir = some (selected 0x0C).par.cmdWrite := by decide

theorem witness_WrbyteToTheSelectedCommand :
    (∀ k ∈ ([0x0A, 0x0B, 0x0F, 0x0E] : List Byte), (selected k).ready ∧ (selected k).dev.ir = some k ∧
      k ∈ [(selected k).par.cmdCurLo, (selected k).par.cmdCurHi, (selected k).par.cmdBitSet, (selected k).par.cmdBitClr]) ∧
    ({ resetV20 with inited := true, dev := { Device.powerUp with ir := some 0x00 } } : State).ready ∧
    (0x00 : Byte) ∉ resetV20.par.deviceCommands ∧ (0x00 : Byte) ∈ resetV20.par.modeSetup.map Prod.fst := by
  decide

theorem witness_RawDataOutOfOrderFaults :
    readyState.ready ∧ readyState.dev.ir = none ∧ (selected 0x0D).ready ∧ (selected 0x0D).dev.ir = some (selected 0x0D).par.cmdRead ∧
      (0x0D : Byte) ∉ (selected 0x0D).par.modeSetup.map Prod.fst ∧ (selected 0x77).ready ∧
      (0x77 : Byte) ∉ (selected 0x77).par.deviceCommands ∧ (0x77 : Byte) ∉ (selected 0x77).par.modeSetup.map Prod.fst ∧
      (selected 0x0C).dev.ir ≠ some (selected 0x0C).par.cmdRead := by
  decide

theorem witness_RdbeginAndRdbyteComplete : (selected 0x0D).ready ∧ (selected 0x0D).dev.ir = some (selected 0x0D).par.cmdRead := by
  decide

theorem witness_BitCommandsComplete : readyState.ready ∧ (7 : Byte).toNat < 8 := by decide

theorem witness_RawReadReturnsTheBytes : readyState.ready := by decide

theorem witness_RawWriteFills : readyState.ready ∧ ([0xA5, 0x5A] : List Byte).length ≤ 65536 := by decide

theorem witness_TurningRoundWithoutSetcur : readyState.ready ∧ ([0xA5, 0x5A] : List Byte).length < 65536 := by decide

theorem witness_PixelCommandsComplete :
    readyState.ready ∧ readyState.whenStrict ((239 : Byte).toNat < 240 ∧ (127 : Byte).toNat < 128) ∧ readyLoose.ready ∧
      readyLoose.whenStrict ((255 : Byte).toNat < 240 ∧ (255 : Byte).toNat < 128) := by
  decide

theorem witness_RmwGuarantee : readyState.noWait ∧ readyState.par.distinct := by decide

theorem witness_HlineCompletes :
    readyState.ready ∧ readyState.whenStrict ((230 : Byte).toNat + (10 : Byte).toNat ≤ 240 ∧ (127 : Byte).toNat < 128) ∧
      readyLoose.ready ∧ readyLoose.whenStrict ((255 : Byte).toNat + (255 : Byte).toNat ≤ 240 ∧ (255 : Byte).toNat < 128) := by
  decide

/-- How many transport events HLINE on row 0 issues. -/
def hlineEvents (x len : Byte) : Option Nat := shows (.hline x 0 len 0xFF) readyState (fun t => (readyState.eventsSince t).length)

/-- One operand for each of the seven cases of R154, each at an end of its range. -/
theorem witness_HlineEventCounts :
    readyState.ready ∧ readyState.whenStrict ((3 : Byte).toNat + (13 : Byte).toNat ≤ 240 ∧ (0 : Byte).toNat < 128) ∧
      hlineEvents 3 0 = some 0 ∧ hlineEvents 0 8 = some 6 ∧ hlineEvents 0 7 = some 14 ∧ hlineEvents 0 9 = some 20 ∧
      hlineEvents 3 5 = some 14 ∧ hlineEvents 3 13 = some 15 ∧ hlineEvents 3 6 = some 28 :=
  ⟨by decide, by decide, by decide +kernel, by decide +kernel, by decide +kernel, by decide +kernel, by decide +kernel,
    by decide +kernel, by decide +kernel⟩

theorem witness_VlineCompletes :
    readyState.ready ∧ readyState.whenStrict ((239 : Byte).toNat < 240 ∧ (0 : Byte).toNat + (128 : Byte).toNat ≤ 128) := by decide

theorem witness_LineHorizontal :
    readyState.ready ∧ readyState.whenStrict ((239 : Byte).toNat < 240 ∧ (0 : Byte).toNat < 240 ∧ (127 : Byte).toNat < 128) := by
  decide

theorem witness_LineVertical :
    (127 : Byte) ≠ 0 ∧ readyState.ready ∧
      readyState.whenStrict ((239 : Byte).toNat < 240 ∧ (127 : Byte).toNat < 128 ∧ (0 : Byte).toNat < 128) := by
  decide

theorem witness_LineDiagonal :
    (2 : Byte) ≠ 0 ∧ (1 : Byte) ≠ 0 ∧ readyState.ready ∧
      readyState.whenStrict ((2 : Byte).toNat < 240 ∧ (0 : Byte).toNat < 240 ∧ (1 : Byte).toNat < 128 ∧ (0 : Byte).toNat < 128) := by
  decide

set_option Elab.async false in
/-- Two falling lines and a rising one, with the points the spec lists (R163 (g), R166). -/
theorem witness_StepperProperties :
    0 < 2 ∧ 0 ≠ 1 ∧ linePoints 0 0 2 1 = [(0, 0), (1, 1), (2, 1)] ∧ 0 < 3 ∧ 3 ≠ 0 ∧
      linePoints 0 3 3 0 = [(0, 3), (1, 2), (2, 1), (3, 0)] ∧ linePoints 0 0 4 2 = [(0, 0), (1, 1), (2, 1), (3, 2), (4, 2)] := by
  decide +kernel

theorem witness_RectCompletes :
    readyState.ready ∧ readyState.whenStrict ((0 : Byte).toNat + (240 : Byte).toNat ≤ 240 ∧ (0 : Byte).toNat + (128 : Byte).toNat ≤ 128) := by
  decide

theorem witness_FillrectCompletes :
    readyState.ready ∧ readyState.whenStrict ((0 : Byte).toNat + (240 : Byte).toNat ≤ 240 ∧ (0 : Byte).toNat + (128 : Byte).toNat ≤ 128) ∧
      readyLoose.ready ∧
      readyLoose.whenStrict ((255 : Byte).toNat + (255 : Byte).toNat ≤ 240 ∧ (255 : Byte).toNat + (255 : Byte).toNat ≤ 128) := by
  decide

/-- The ROM of V48. -/
def readyV48 : State := after Params.reference [(0x500, 0x01), (0x501, 0xAA), (0x502, 0x55)] []

theorem witness_PatfillCompletes :
    readyV48.ready ∧ readyV48.whenStrict ((0 : Byte).toNat + (240 : Byte).toNat ≤ 240 ∧ (1 : Byte).toNat + (127 : Byte).toNat ≤ 128 ∧
      (romRead readyV48.rom 0x500).toNat ∈ [0, 1, 3, 7, 15, 31, 63, 127, 255]) := by
  decide

theorem witness_PatternProperties :
    (romRead readyV48.rom 0x500).toNat ∈ [0, 1, 3, 7, 15, 31, 63, 127, 255] ∧
      ∀ r ≤ (romRead [(0, 1), (1, 0xFF), (2, 0xFF)] 0).toNat,
        romRead [(0, 1), (1, 0xFF), (2, 0xFF)] (0 + 1 + BitVec.ofNat 16 r) = solid .black := by
  decide

/-- A 5 by 2 font, strings at its limits of the surface. -/
def readyFont : State := after Params.reference [(0x100, 0x05), (0x101, 0x02), (0x104, 0x1F)] []

theorem witness_TextCompletes :
    readyFont.ready ∧ readyFont.whenStrict ((235 : Byte).toNat + (1 : Byte).toNat * (romRead readyFont.rom 0x100).toNat ≤ 240 ∧
      (126 : Byte).toNat + (romRead readyFont.rom (0x100 + 1)).toNat ≤ 128) := by
  decide

theorem witness_TextEventCount :
    0 < (1 : Byte).toNat * (romRead readyFont.rom 0x100).toNat ∧
      shows (.text 235 126 0x100 0x200 1) readyFont (fun t => (readyFont.eventsSince t).length) = some 28 := by
  decide +kernel

theorem witness_FoldInvariant :
    (selected 0x0C).noWait ∧ (selected 0x0C).par.distinct ∧ (selected 0x0C).dev.ir = some (selected 0x0C).par.cmdWrite ∧
      (⟨0, 0x7F, 7⟩ : Packer).pend ≤ 7 ∧ (⟨0, 0x7F, 7⟩ : Packer).acc.toNat < 2 ^ 7 ∧ 8 ≤ 8 := by
  decide

theorem witness_NothingToDraw :
    readyState.inited = true ∧ readyState.whenStrict ((240 : Byte).toNat ≤ 240 ∧ (127 : Byte).toNat < 128) ∧
      readyState.whenStrict ((239 : Byte).toNat < 240 ∧ (128 : Byte).toNat ≤ 128) ∧
      readyState.whenStrict ((240 : Byte).toNat + (0 : Byte).toNat ≤ 240 ∧ (128 : Byte).toNat + (0 : Byte).toNat ≤ 128) ∧
      readyV48.whenStrict ((240 : Byte).toNat + (0 : Byte).toNat ≤ 240 ∧ (0 : Byte).toNat + (128 : Byte).toNat ≤ 128 ∧
        (romRead readyV48.rom 0x500).toNat ∈ [0, 1, 3, 7, 15, 31, 63, 127, 255]) ∧
      readyFont.whenStrict ((240 : Byte).toNat + (0 : Byte).toNat * (romRead readyFont.rom 0x100).toNat ≤ 240 ∧
        (126 : Byte).toNat + (romRead readyFont.rom (0x100 + 1)).toNat ≤ 128) := by
  decide

/-- After reset, with a stream that starts with INIT. -/
def resetStream : State := State.resetWith Params.reference [] [0x01, 0x14] [] false Device.powerUp

theorem witness_EveryStepKeepsTheInvariant : resetStream.Inv ∧ ∃ t, step resetStream = .next t :=
  ⟨by decide +kernel, next_exists (by decide +kernel)⟩

theorem witness_InvariantAtReset : Memory.wf [(5, 0x11), (65535, 1)] = true ∧ memV23.wf = true := by decide

set_option Elab.async false in
theorem witness_StepsKeepTheInputsOfTheRun : ∃ t, step resetStream = .next t := next_exists (by decide +kernel)

/-- An RDBYTE that completes and one that times out. -/
theorem witness_OnlyRdbyteAppendsToResp :
    (∃ t, exec (.pixset 0 0) readyState = .next t) ∧ (selected 0x0D).err = 0 ∧
      (∃ t, exec .rdbyte (selected 0x0D) = .next t ∧ decide (t.activity = .idle ∧ t.err = 0 ∧ t.resp = [0]) = true) ∧
      (readyBusy (some 2)).err = 0 ∧ ∃ t, exec .rdbyte (readyBusy (some 2)) = .next t ∧ decide (t.err = 3 ∧ t.resp = []) = true :=
  ⟨next_exists (by decide +kernel), rfl, next_with _ (by decide +kernel), rfl, next_with _ (by decide +kernel)⟩

set_option Elab.async false in
theorem witness_TransportProtocol :
    ∃ t, exec .wrbegin readyState = .next t ∧ decide (Event.write .command 0x0C ∈ readyState.eventsSince t) = true :=
  next_with _ (by decide +kernel)

theorem witness_DummyReadDiscipline :
    (∃ t, exec .wrbegin readyState = .next t ∧ decide (t.ndr = true) = true) ∧
      (∃ t, exec .rdbegin readyState = .next t) ∧
      ∃ t, exec (.pixset 0 0) readyState = .next t ∧ decide (t.activity = .idle ∧ t.err = readyState.err ∧ readyState.err = 0) = true :=
  ⟨next_with _ (by decide +kernel), next_exists (by decide +kernel), next_with _ (by decide +kernel)⟩

/-- Events with a set-cursor sequence and events without one. -/
theorem witness_DummyReadDiscipline_cursor :
    readyState.par.distinct ∧ Instr.pixset 9 0 ≠ .init ∧
      (∃ t, exec (.pixset 9 0) readyState = .next t ∧
        decide (withoutPolls (readyState.eventsSince t) = pixelTrace readyState.par 9 0 .black ∧ t.cur = 1) = true) ∧
      LastCursor readyState.par (pixelTrace readyState.par 9 0 .black) 1 ∧
      (∃ t, exec .wrbegin readyState = .next t ∧
        decide (withoutPolls (readyState.eventsSince t) = beginWriteTrace readyState.par) = true) ∧
      ∀ a, ¬ setCursorTrace readyState.par a <:+: beginWriteTrace readyState.par := by
  refine ⟨by decide, nofun, next_with _ (by decide +kernel), ⟨[], bitOpTrace readyState.par 1 .black, by decide, fun b h => ?_⟩,
    next_with _ (by decide +kernel), fun a h => ?_⟩
  · have := h.length_le; simp [setCursorTrace, bitOpTrace] at this
  · have := h.length_le; simp [setCursorTrace, beginWriteTrace] at this

theorem witness_OnlyRawDataCanFault : (∀ b, Instr.rdbegin ≠ .wrbyte b) ∧ Instr.rdbegin ≠ .rdbyte := ⟨nofun, nofun⟩

theorem witness_NeverBusyOnlyAddsPolls :
    ({ readyBusy none with busyRest := false } : State).par.waitBusy = true ∧ ({ readyBusy none with busyRest := false } : State).neverBusy := by
  decide

/-- A device busy twice and then never. -/
def busyTwice : State := { readyBusy none with busyAnswers := [true, true], busyRest := false }

theorem witness_EventuallyReadyOnlyDelays :
    busyTwice.par.waitBusy = true ∧ busyTwice.par.busyPollLimit = none ∧ busyTwice.busyRest = false ∧
      ∃ t, exec (.setcur 5) busyTwice.withoutWait = .next t :=
  ⟨rfl, rfl, rfl, next_exists (by decide +kernel)⟩

theorem witness_BusyBeforeTheFirstEvent_limit :
    let s : State := { readyBusy (some 2) with busyAnswers := [true, true, false] }
    s.par.waitBusy = true ∧ s.par.busyPollLimit = some 2 ∧ s.busyAnswers = List.replicate 2 true ++ [false] ∧
      ∃ t, exec (.setcur 5) s.withoutWait = .next t ∧ decide (t.trace ≠ s.trace) = true :=
  ⟨rfl, rfl, rfl, next_with _ (by decide +kernel)⟩

theorem witness_BusyBeforeTheFirstEvent_noLimit :
    (readyBusy none).par.waitBusy = true ∧ (readyBusy none).par.busyPollLimit = none ∧ (readyBusy none).busyAnswers = [] ∧
      (readyBusy none).busyRest = true ∧
      ∃ t, exec (.setcur 5) (readyBusy none).withoutWait = .next t ∧ decide (t.trace ≠ (readyBusy none).trace) = true :=
  ⟨rfl, rfl, rfl, rfl, next_with _ (by decide +kernel)⟩

theorem witness_WaitingOnlyCutsShort :
    (∃ t, exec (.setcur 5) (readyBusy (some 2)).withoutWait = .next t) ∧ ∃ u, exec (.setcur 5) (readyBusy (some 2)) = .next u :=
  ⟨next_exists (by decide +kernel), next_exists (by decide +kernel)⟩

/-- A command that reads, before and after a change of the latch: the byte of the discarded read, the sixth event, differs. -/
theorem witness_DeviceHistoryIsInvisible :
    let d : Device := ⟨[], 0x1234, some 0x0D, 0x99⟩
    readyState.par.distinct ∧ isComposite (.hline 3 0 2 0xFF) = true ∧ d.mem = readyState.dev.mem ∧
      (∃ t, exec (.hline 3 0 2 0xFF) readyState = .next t ∧ decide ((readyState.eventsSince t)[5]? = some (.read .data 0)) = true) ∧
      ∃ u, exec (.hline 3 0 2 0xFF) { readyState with dev := d } = .next u ∧
        decide ((readyState.eventsSince u)[5]? = some (.read .data 0x99)) = true :=
  ⟨by decide, rfl, rfl, next_with _ (by decide +kernel), next_with _ (by decide +kernel)⟩

theorem witness_TheTraceDeterminesTheDevice : ∃ t, exec (.hline 3 0 10 0xFF) readyState = .next t := next_exists (by decide +kernel)

end Sys2Proof.Tests
end

section
/-! PROOFS. Facts about every outcome of a piece of a command: a relation between the state it starts from and the state it ends or
stops in, closed under sequencing, and so shown for all commands from the transport operations and the register updates. -/

namespace Sys2Proof.Machine

/-! ## Every outcome of a piece -/

/-- Every outcome of a piece, from every state: `R` relates the states when it runs to its end, `Q` when it stops. -/
structure Obeys (R : State → State → Prop) (Q : Halt → State → State → Prop) {α : Type} (m : Seq α) : Prop where
  done : ∀ {s t : State} {a : α}, m s = .done a t → R s t
  stopped : ∀ {s t : State} {e : Halt}, m s = .stopped e t → Q e s t

/-- What makes `Obeys` closed under sequencing. -/
structure Composes (R : State → State → Prop) (Q : Halt → State → State → Prop) : Prop where
  refl : ∀ s, R s s
  trans : ∀ {s t u}, R s t → R t u → R s u
  stop : ∀ {s t u e}, R s t → Q e t u → Q e s u

/-- A fact about the stops other than faults, after which there is no next state. -/
def UnlessFault (P : State → State → Prop) (e : Halt) (s t : State) : Prop := (∀ f, e ≠ .fault f) → P s t

theorem composes_unlessFault {R : State → State → Prop} (refl : ∀ s, R s s) (trans : ∀ {s t u}, R s t → R t u → R s u) :
    Composes R (UnlessFault R) :=
  ⟨refl, trans, fun h k hf => trans h (k hf)⟩

section closure

variable {R : State → State → Prop} {Q : Halt → State → State → Prop} {α β : Type}

theorem Obeys.andThen {R₁ R₂ : State → State → Prop} {m : Seq α} {f : α → Seq β} (hm : Obeys R₁ Q m) (hf : ∀ a, Obeys R₂ Q (f a))
    (trans : ∀ {s t u}, R₁ s t → R₂ t u → R s u) (stop : ∀ {s t u e}, R₁ s t → Q e t u → Q e s u) : Obeys R Q (andThen m f) where
  done := by
    intro s t b h
    obtain ⟨a, u, hu, ht⟩ := (andThen_eq_done_iff _ _ _ _ _).1 h
    exact trans (hm.done hu) ((hf a).done ht)
  stopped := by
    intro s t e h
    rcases (andThen_eq_stopped_iff _ _ _ _ _).1 h with h | ⟨a, u, hu, ht⟩
    · exact hm.stopped h
    · exact stop (hm.done hu) ((hf a).stopped ht)

theorem Obeys.mono {R' : State → State → Prop} {Q' : Halt → State → State → Prop} {m : Seq α} (h : Obeys R Q m)
    (done : ∀ {s t}, R s t → R' s t) (stopped : ∀ {s t e}, Q e s t → Q' e s t) : Obeys R' Q' m :=
  ⟨fun hm => done (h.done hm), fun hm => stopped (h.stopped hm)⟩

/-- A weaker fact, of every end but faults. -/
theorem Obeys.unlessFault {P R' : State → State → Prop} {m : Seq α} (h : Obeys R (UnlessFault P) m)
    (done : ∀ {s t}, R s t → R' s t) (stopped : ∀ {s t}, P s t → R' s t) : Obeys R' (UnlessFault R') m :=
  h.mono done (fun hQ hf => stopped (hQ hf))

theorem Composes.andThen (c : Composes R Q) {m : Seq α} {f : α → Seq β} (hm : Obeys R Q m) (hf : ∀ a, Obeys R Q (f a)) :
    Obeys R Q (andThen m f) := hm.andThen hf c.trans c.stop

theorem Composes.yield (c : Composes R Q) (a : α) : Obeys R Q (yield a) where
  done := by rintro s _ _ ⟨⟩; exact c.refl s
  stopped := nofun

theorem Composes.inOrder (c : Composes R Q) {ms : List (Seq Unit)} (h : ∀ m ∈ ms, Obeys R Q m) : Obeys R Q (inOrder ms) := by
  induction ms with
  | nil => exact c.yield ()
  | cons m ms ih => exact c.andThen (h m (by simp)) (fun _ => ih (fun n hn => h n (by simp [hn])))

theorem obeys_update {f : State → State} (h : ∀ s, R s (f s)) : Obeys R Q (update f) where
  done := by rintro s _ _ ⟨⟩; exact h s
  stopped := nofun

/-- A piece that is chosen by looking at the state. -/
theorem obeys_of_state {m : Seq α} (g : State → Seq α) (hm : ∀ s, m s = g s s) (h : ∀ s, Obeys R Q (g s)) : Obeys R Q m where
  done := fun {s _ _} hs => (h s).done ((hm s).symm.trans hs)
  stopped := fun {s _ _} hs => (h s).stopped ((hm s).symm.trans hs)

/-- What the transport operations and the updates of NDR and CUR obey, every assembled piece obeys. -/
theorem Composes.assembled (c : Composes R Q) (htw : ∀ r b, Obeys R Q (tw r b)) (htr : Obeys R Q (tr .data))
    (hup : ∀ f, RegisterUpdate f → Obeys R Q (update f)) {m : Seq α} (h : Assembled m) : Obeys R Q m := by
  induction h with
  | yield a => exact c.yield a
  | andThen _ _ ihm ihf => exact c.andThen ihm ihf
  | select k _ _ => exact obeys_of_state (fun s => tw .command (k s.par)) (fun _ => rfl) (fun _ => htw _ _)
  | data b => exact htw .data b
  | read => exact htr
  | update hf => exact hup _ hf
  | @ifNdr m _ ih =>
    refine obeys_of_state (fun s => if s.ndr then m else skip) (fun s => by split <;> rfl) (fun s => ?_)
    split
    · exact ih
    · exact c.yield ()
  | ofPar g _ _ ih => exact obeys_of_state (fun s => g s.par) (fun _ => rfl) (fun s => ih s.par)

theorem Composes.sendModeSetup (c : Composes R Q) (htw : ∀ r b, Obeys R Q (tw r b)) (l : List (Byte × Byte)) :
    Obeys R Q (sendModeSetup l) := by
  induction l with
  | nil => exact c.yield ()
  | cons kd l ih => exact c.inOrder (by simpa using ⟨htw _ _, htw _ _, ih⟩)

theorem Composes.modeSetup (c : Composes R Q) (htw : ∀ r b, Obeys R Q (tw r b)) : Obeys R Q modeSetup :=
  obeys_of_state (fun s => Machine.sendModeSetup s.par.modeSetup) (fun _ => rfl) (fun _ => c.sendModeSetup htw _)

/-- What the transport operations and the two register writes of INIT obey, INIT obeys (R127). -/
theorem Composes.initEvents (c : Composes R Q) (hin : Obeys R Q tInit) (htw : ∀ r b, Obeys R Q (tw r b))
    (hndr : ∀ s, R s s.setDummyReadNeeded) (hinited : ∀ s : State, R s { s with inited := true }) : Obeys R Q initEvents :=
  c.inOrder (by simpa using ⟨hin, c.modeSetup htw, obeys_update hndr, obeys_update hinited⟩)

/-- What a read and the response obey, RDBYTE obeys (R132). -/
theorem Composes.readByteEvents (c : Composes R Q) (htr : Obeys R Q (tr .data))
    (hresp : ∀ (s : State) (b : Byte), R s { s with resp := s.resp ++ [b] }) : Obeys R Q readByteEvents :=
  c.andThen htr (fun b => obeys_update (fun s => hresp s b))

end closure

/-- What the frame implies, a piece that keeps the frame obeys. -/
theorem Framed.obeys {R : State → State → Prop} {α : Type} {m : Seq α} (h : Framed m) (hR : ∀ {s t}, Frame s t → R s t) :
    Obeys R (UnlessFault R) m :=
  ⟨fun hm => hR (h.done hm), fun hm _ => hR (h.stopped hm).1⟩

/-! ## What the events of a command do -/

/-- The events issued between two states account for the device and for the busy answers used (R51, R56, R78). -/
def Logged (s t : State) : Prop :=
  ∃ es, t.trace = s.trace ++ es ∧ t.dev = s.dev.afterEvents s.par es ∧
    t.busyAnswers = s.busyAnswers.drop (es.filter Event.isPoll).length

/-- What the events of any command keep, INIT and RDBYTE included, and that their trace accounts for the rest. -/
structure Ran (s t : State) : Prop where
  inputs : SameRun s t
  cp : t.cp = s.cp
  err : t.err = s.err
  activity : t.activity = s.activity
  resp : s.resp <+: t.resp
  log : Logged s t

theorem Logged.refl (s : State) : Logged s s := ⟨[], by simp⟩

theorem Logged.trans {s t u : State} (hpar : t.par = s.par) (h : Logged s t) (k : Logged t u) : Logged s u := by
  obtain ⟨es, htr, hdev, hba⟩ := h
  obtain ⟨fs, ktr, kdev, kba⟩ := k
  refine ⟨es ++ fs, by rw [ktr, htr, List.append_assoc], by rw [kdev, hdev, hpar, Device.afterEvents_append], ?_⟩
  rw [kba, hba, List.drop_drop, List.filter_append, List.length_append]

theorem Frame.ran {s t : State} (h : Frame s t) (hlog : Logged s t) : Ran s t where
  inputs := ⟨h.par, h.rom, h.prog, h.busyRest⟩
  cp := h.cp
  err := h.err
  activity := h.activity
  resp := by rw [h.resp]
  log := hlog

theorem Ran.refl (s : State) : Ran s s := (Frame.refl s).ran (Logged.refl s)

theorem Ran.trans {s t u : State} (h : Ran s t) (k : Ran t u) : Ran s u := by
  obtain ⟨hpar, hrom, hprog, hrest⟩ := h.inputs
  obtain ⟨kpar, krom, kprog, krest⟩ := k.inputs
  exact
    { inputs := ⟨kpar.trans hpar, krom.trans hrom, kprog.trans hprog, krest.trans hrest⟩
      cp := k.cp.trans h.cp
      err := k.err.trans h.err
      activity := k.activity.trans h.activity
      resp := h.resp.trans k.resp
      log := h.log.trans hpar k.log }

/-- A piece that only runs and stops for cause. -/
abbrev Runs {α : Type} (m : Seq α) : Prop := Obeys Ran (fun e s t => Ran s t ∧ StopJustified t e) m

theorem composes_ran : Composes Ran (fun e s t => Ran s t ∧ StopJustified t e) where
  refl := Ran.refl
  trans := Ran.trans
  stop := fun h k => ⟨h.trans k.1, k.2⟩

theorem Framed.runs {α : Type} {m : Seq α} (h : Framed m) (hlog : Obeys Logged (fun _ => Logged) m) : Runs m where
  done := fun hm => (h.done hm).ran (hlog.done hm)
  stopped := fun hm => ⟨(h.stopped hm).1.ran (hlog.stopped hm), (h.stopped hm).2⟩

/-! ### The busy-wait -/

/-- The polls of a busy-wait use up the listed answers in order (R56). -/
theorem pollBusy_left (limit : Option Nat) (rest : Bool) (polls : Nat) (as : List Bool) :
    (pollBusy limit rest polls as).left = as.drop (pollBusy limit rest polls as).polled.length := by
  induction as generalizing polls with
  | nil =>
    rw [List.drop_nil, pollBusy.eq_def]
    dsimp only
    split
    · split
      · rfl
      · split <;> rfl
    · rfl
  | cons a as ih =>
    cases a with
    | false => rfl
    | true =>
      rw [pollBusy]
      split
      · rfl
      · exact ih (polls + 1)

theorem Device.afterEvents_polls (p : Params) (d : Device) (bs : List Bool) : d.afterEvents p (bs.map Event.busy) = d := by
  induction bs with
  | nil => rfl
  | cons b bs ih => exact ih

theorem filter_isPoll_polls (bs : List Bool) : (bs.map Event.busy).filter Event.isPoll = bs.map Event.busy :=
  List.filter_eq_self.2 (fun e he => by obtain ⟨b, -, rfl⟩ := List.mem_map.1 he; rfl)

/-- A busy-wait only polls, and uses up the answers it polls (R56). -/
def Polled (s t : State) : Prop :=
  ∃ bs : List Bool, t = { s with trace := s.trace ++ bs.map Event.busy, busyAnswers := s.busyAnswers.drop bs.length }

theorem obeys_waitBusy : Obeys Polled (fun _ => Polled) waitBusy := by
  have hpolled (s : State) : Polled s
      { s with
        busyAnswers := (pollBusy s.par.busyPollLimit s.busyRest 0 s.busyAnswers).left,
        trace := s.trace ++ (pollBusy s.par.busyPollLimit s.busyRest 0 s.busyAnswers).polled.map Event.busy } :=
    ⟨_, by rw [pollBusy_left]⟩
  constructor
  · intro s t a h
    simp only [waitBusy] at h
    split at h
    · split at h <;> cases h
      exact hpolled s
    · cases h; exact ⟨[], by simp⟩
  · intro s t e h
    simp only [waitBusy] at h
    split at h
    · split at h <;> cases h <;> exact hpolled s
    · cases h

theorem Polled.logged {s t : State} (h : Polled s t) : Logged s t := by
  obtain ⟨bs, rfl⟩ := h
  exact ⟨bs.map Event.busy, rfl, (Device.afterEvents_polls _ _ _).symm, by simp [filter_isPoll_polls]⟩

theorem runs_waitBusy : Runs waitBusy :=
  framed_waitBusy.runs ⟨fun h => (obeys_waitBusy.done h).logged, fun h => (obeys_waitBusy.stopped h).logged⟩

/-! ### Transactions and updates -/

/-- One transaction: some polls, then the event, and nothing else but the device and the busy answers. -/
def Accessed (e : Event) (s t : State) : Prop :=
  ∃ bs : List Bool, t = { s with trace := s.trace ++ (bs.map Event.busy ++ [e]), busyAnswers := t.busyAnswers, dev := t.dev }

theorem Polled.accessed {e : Event} {s t u : State} (h : Polled s t)
    (hu : u = { t with trace := t.trace ++ [e], dev := u.dev }) : Accessed e s u := by
  obtain ⟨bs, rfl⟩ := h
  rw [hu]
  exact ⟨bs, by rw [List.append_assoc]⟩

theorem tw_done {r : Reg} {b : Byte} {s t : State} {a : Unit} (h : tw r b s = .done a t) : Accessed (.write r b) s t := by
  obtain ⟨_, u, hu, ht⟩ := (andThen_eq_done_iff _ _ _ _ _).1 h
  refine (obeys_waitBusy.done hu).accessed ?_
  unfold writeTransaction at ht
  split at ht <;> cases ht
  rfl

/-- A write that stops without a fault has stopped in its busy-wait. -/
theorem tw_stopped {r : Reg} {b : Byte} {s t : State} {e : Halt} (h : tw r b s = .stopped e t) (hf : ∀ f, e ≠ .fault f) :
    Polled s t := by
  rcases (andThen_eq_stopped_iff _ _ _ _ _).1 h with h | ⟨_, u, -, ht⟩
  · exact obeys_waitBusy.stopped h
  · unfold writeTransaction at ht
    split at ht <;> cases ht
    exact absurd rfl (hf _)

theorem tr_done {r : Reg} {v : Byte} {s t : State} (h : tr r s = .done v t) : Accessed (.read r v) s t := by
  obtain ⟨_, u, hu, ht⟩ := (andThen_eq_done_iff _ _ _ _ _).1 h
  refine (obeys_waitBusy.done hu).accessed ?_
  unfold readTransaction at ht
  split at ht <;> cases ht
  rfl

theorem tr_stopped {r : Reg} {s t : State} {e : Halt} (h : tr r s = .stopped e t) : Polled s t := by
  rcases (andThen_eq_stopped_iff _ _ _ _ _).1 h with h | ⟨_, u, hu, ht⟩
  · exact obeys_waitBusy.stopped h
  · unfold readTransaction at ht
    split at ht <;> cases ht
    exact obeys_waitBusy.done hu

theorem tInit_done {s t : State} {a : Unit} (h : tInit s = .done a t) : Accessed .init s t := by
  obtain ⟨_, u, hu, ht⟩ := (andThen_eq_done_iff _ _ _ _ _).1 h
  cases ht
  exact (obeys_waitBusy.done hu).accessed rfl

theorem tInit_stopped {s t : State} {e : Halt} (h : tInit s = .stopped e t) : Polled s t := by
  rcases (andThen_eq_stopped_iff _ _ _ _ _).1 h with h | ⟨_, u, -, ht⟩
  · exact obeys_waitBusy.stopped h
  · cases ht

theorem runs_writeTransaction (r : Reg) (b : Byte) : Runs (writeTransaction r b) := by
  refine (framed_writeTransaction r b).runs ⟨?_, ?_⟩
  · intro s t a h
    unfold writeTransaction at h
    split at h
    · rename_i d hd
      cases h
      exact ⟨[.write r b], rfl, by simp [Device.afterEvents, Device.afterEvent, hd], rfl⟩
    · cases h
  · intro s t e h
    unfold writeTransaction at h
    split at h
    · cases h
    · rename_i hd
      cases h
      exact ⟨[.write r b], rfl, by simp [Device.afterEvents, Device.afterEvent, hd], rfl⟩

theorem runs_readTransaction (r : Reg) : Runs (readTransaction r) := by
  refine (framed_readTransaction r).runs ⟨?_, ?_⟩
  · intro s t a h
    unfold readTransaction at h
    split at h
    · rename_i v d hd
      cases h
      exact ⟨[.read r _], rfl, by simp [Device.afterEvents, Device.afterEvent, hd], rfl⟩
    · cases h
  · intro s t e h
    unfold readTransaction at h
    split at h <;> cases h
    exact Logged.refl s

theorem runs_tw (r : Reg) (b : Byte) : Runs (tw r b) := composes_ran.andThen runs_waitBusy (fun _ => runs_writeTransaction r b)

theorem runs_tr (r : Reg) : Runs (tr r) := composes_ran.andThen runs_waitBusy (fun _ => runs_readTransaction r)

theorem runs_tInit : Runs tInit := by
  refine composes_ran.andThen runs_waitBusy (fun _ => ⟨?_, nofun⟩)
  rintro s _ _ ⟨⟩
  exact { Ran.refl s with log := ⟨[.init], rfl, rfl, rfl⟩ }

/-- A change of registers that the frame of R96 does not see. -/
theorem runs_registerUpdate {f : State → State} (h : RegisterUpdate f) : Runs (update f) :=
  (framed_registerUpdate h).runs
    (obeys_update (fun s => by cases h <;> exact Logged.refl s))

/-! ### Commands -/

/-- The events of every command keep the inputs of the run, CP, ERR and the activity; the trace accounts for the device and the busy
answers; RESP only grows; and they stop only for cause. -/
theorem runs_commandEvents (rom : Memory) (fast : Bool) (i : Instr) : Runs (commandEvents rom fast i) := by
  by_cases hi : i = .init
  · subst hi
    exact composes_ran.initEvents runs_tInit runs_tw (fun s => { Ran.refl s with }) (fun s => { Ran.refl s with })
  by_cases hr : i = .rdbyte
  · subst hr
    exact composes_ran.readByteEvents (runs_tr .data) (fun s b => { Ran.refl s with resp := List.prefix_append _ _ })
  exact composes_ran.assembled runs_tw (runs_tr .data) (fun _ => runs_registerUpdate) (assembled_commandEvents rom fast i hi hr)

end Sys2Proof.Machine
end

section
/-! PROOFS. What a command that answers a next state has done, once for all commands; what a step can do; and the command the decoder
reads, as the bytes it consumes. -/

namespace Sys2Proof.Machine

variable {i : Instr} {s t u : State}

/-! ## A command -/

/-- A command that answers a next state has run some of its events, to a state `u`, and then changed CP, ERR and the activity at most. A
fact `P` about the state its events reach, which also holds when none is issued, holds of `u`. -/
theorem exec_leaves {P : State → State → Prop} (h : Obeys P (UnlessFault P) (commandEvents s.rom s.par.fastPath8x16 i)) (refl : P s s)
    (hx : exec i s = .next t) : ∃ u, P s u ∧ t = { u with cp := t.cp, err := t.err, activity := t.activity } := by
  rw [exec_eq_runCommand] at hx
  rcases runCommand_next hx with ⟨e, rfl⟩ | ⟨-, -, ⟨u, hu, rfl⟩ | ⟨e, u, hu, rfl⟩ | ⟨u, hu, rfl⟩⟩
  · exact ⟨s, refl, rfl⟩
  · exact ⟨u, h.done hu, rfl⟩
  · exact ⟨u, h.stopped hu nofun, rfl⟩
  · exact ⟨u, h.stopped hu nofun, rfl⟩

/-- How a command that answers a next state ends: done, raised or hung, in a state its events have reached. -/
theorem exec_ends (hx : exec i s = .next t) :
    ∃ u, Ran s u ∧
      (t = { u with cp := u.cp + (encode i).length, activity := .idle } ∨
        (∃ e, t = u.raise e (encode i).length) ∨
        (t = { u with activity := .busyWait } ∧ StopJustified u .hang)) := by
  have hruns := runs_commandEvents s.rom s.par.fastPath8x16 i
  rw [exec_eq_runCommand] at hx
  rcases runCommand_next hx with ⟨e, rfl⟩ | ⟨-, -, ⟨u, hu, rfl⟩ | ⟨e, u, hu, rfl⟩ | ⟨u, hu, rfl⟩⟩
  · exact ⟨s, Ran.refl s, .inr (.inl ⟨e, rfl⟩)⟩
  · exact ⟨u, hruns.done hu, .inl rfl⟩
  · exact ⟨u, (hruns.stopped hu).1, .inr (.inl ⟨e, rfl⟩)⟩
  · exact ⟨u, (hruns.stopped hu).1, .inr (.inr ⟨rfl, (hruns.stopped hu).2⟩)⟩

/-- A command that ends without an error has run all its events. -/
theorem exec_completed (hx : exec i s = .next t) (hidle : t.activity = .idle) (ht : t.err = 0) :
    ∃ u, commandEvents s.rom s.par.fastPath8x16 i s = .done () u ∧
      t = { u with cp := u.cp + (encode i).length, activity := .idle } := by
  rw [exec_eq_runCommand] at hx
  rcases runCommand_next hx with ⟨e, rfl⟩ | ⟨-, -, ⟨u, hu, rfl⟩ | ⟨e, u, hu, rfl⟩ | ⟨u, hu, rfl⟩⟩
  · exact absurd ht (errAfter_ne_zero _ _)
  · exact ⟨u, hu, rfl⟩
  · exact absurd ht (errAfter_ne_zero _ _)
  · cases hidle

/-- After a command: the inputs of the run, RESP, and the trace, which accounts for the device and the busy answers. -/
theorem exec_ran (hx : exec i s = .next t) : SameRun s t ∧ s.resp <+: t.resp ∧ Logged s t := by
  obtain ⟨u, hu, ht⟩ := exec_leaves ((runs_commandEvents _ _ i).mono id (fun h _ => h.1)) (Ran.refl s) hx
  rw [ht]
  exact ⟨hu.inputs, hu.resp, hu.log⟩

/-- CP after a command: past its encoding when it has ended, and where it was while it hangs (R27, R249). -/
theorem exec_cp (hx : exec i s = .next t) :
    t.cp = s.cp + (encode i).length ∨ (t.activity = .busyWait ∧ t.cp = s.cp) := by
  obtain ⟨u, hu, rfl | ⟨e, rfl⟩ | ⟨rfl, -⟩⟩ := exec_ends hx
  · exact .inl (by simp only [hu.cp])
  · exact .inl (by rw [State.raise_cp, hu.cp])
  · exact .inr ⟨rfl, hu.cp⟩

/-- ERR after a command: as it was, or as raising an error leaves it (R26, R236). -/
theorem exec_err (hx : exec i s = .next t) : t.err = s.err ∨ ∃ e, t.err = errAfter s.err e := by
  obtain ⟨u, hu, rfl | ⟨e, rfl⟩ | ⟨rfl, -⟩⟩ := exec_ends hx
  · exact .inl hu.err
  · exact .inr ⟨e, by rw [State.raise_err, hu.err]⟩
  · exact .inl hu.err

/-- A command hangs only for cause (R249). -/
theorem exec_hangJustified (hx : exec i s = .next t) : t.hangJustified := by
  intro hb
  obtain ⟨u, -, rfl | ⟨e, rfl⟩ | ⟨rfl, hj⟩⟩ := exec_ends hx
  · cases hb
  · cases hb
  · exact hj

/-! ## A step -/

/-- Everything a step can do when it answers a next state (R96, R238, R248, R249). -/
theorem step_next (h : step s = .next t) :
    (s.activity = .busyWait ∧ t = s.pollAgain) ∨
    (s.activity = .idle ∧
      (t = s ∨
        (s.cp < s.prog.length ∧
          ((s.err ≠ 0 ∧ t = s.discardByte) ∨
            (s.err = 0 ∧ (t = s.unknownOpcode ∨ ∃ i rest, s.fetch = .ok (i, rest) ∧ exec i s = .next t)))))) := by
  unfold step at h
  split at h
  · rename_i ha
    cases h; exact .inl ⟨ha, rfl⟩
  · rename_i ha
    refine .inr ⟨ha, ?_⟩
    split at h
    · cases h; exact .inl rfl
    · rename_i hend
      have hcp : s.cp < s.prog.length := by simpa [State.streamEnded] using hend
      split at h
      · rename_i herr
        cases h; exact .inr ⟨hcp, .inl ⟨herr, rfl⟩⟩
      · rename_i herr
        have herr : s.err = 0 := not_not.1 herr
        split at h
        · rename_i j rest hf
          exact .inr ⟨hcp, .inr ⟨herr, .inr ⟨j, rest, hf, h⟩⟩⟩
        · cases h; exact .inr ⟨hcp, .inr ⟨herr, .inl rfl⟩⟩
        · cases h
        · cases h; exact .inl rfl

/-- A step in the fault state, while the stream lasts (R238). -/
theorem step_discards (ha : s.activity = .idle) (herr : s.err ≠ 0) (hcp : s.cp < s.prog.length) : step s = .next s.discardByte := by
  have hend : ¬ s.streamEnded = true := by simpa [State.streamEnded] using hcp
  simp only [step, ha, if_neg hend, if_pos herr]

end Sys2Proof.Machine

namespace Sys2Proof

/-! ## The bytes of the decoded command -/

variable {op : Byte} {bs rest : List Byte} {i : Instr}

theorem decode1_ok {k : Byte → Instr} (h : decode1 op k bs = .ok (i, rest)) : ∃ b, i = k b ∧ bs = b :: rest := by
  match bs with
  | _ :: _ => cases h; exact ⟨_, rfl, rfl⟩

theorem decode2_ok {k : Byte → Byte → Instr} (h : decode2 op k bs = .ok (i, rest)) : ∃ a b, i = k a b ∧ bs = a :: b :: rest := by
  match bs with
  | _ :: _ :: _ => cases h; exact ⟨_, _, rfl, rfl⟩

theorem decode3_ok {k : Byte → Byte → Byte → Instr} (h : decode3 op k bs = .ok (i, rest)) :
    ∃ a b c, i = k a b c ∧ bs = a :: b :: c :: rest := by
  match bs with
  | _ :: _ :: _ :: _ => cases h; exact ⟨_, _, _, rfl, rfl⟩

theorem decode4_ok {k : Byte → Byte → Byte → Byte → Instr} (h : decode4 op k bs = .ok (i, rest)) :
    ∃ a b c d, i = k a b c d ∧ bs = a :: b :: c :: d :: rest := by
  match bs with
  | _ :: _ :: _ :: _ :: _ => cases h; exact ⟨_, _, _, _, rfl, rfl⟩

theorem decodeF_ok (h : decodeF op bs = .ok (i, rest)) :
    ∃ x y w h lo hi, i = .patfill x y w h (le16 lo hi) ∧ bs = x :: y :: w :: h :: lo :: hi :: rest := by
  match bs with
  | _ :: _ :: _ :: _ :: _ :: _ :: _ => cases h; exact ⟨_, _, _, _, _, _, rfl, rfl⟩

theorem decodeT_ok (h : decodeT op bs = .ok (i, rest)) :
    ∃ x y flo fhi slo shi n, i = .text x y (le16 flo fhi) (le16 slo shi) n ∧
      bs = x :: y :: flo :: fhi :: slo :: shi :: n :: rest := by
  match bs with
  | _ :: _ :: _ :: _ :: _ :: _ :: _ :: _ => cases h; exact ⟨_, _, _, _, _, _, _, rfl, rfl⟩

/-- The command the decoder reads consumes the bytes of its encoding (R90, R94). -/
theorem decodeOp_length (h : decodeOp op bs = .ok (i, rest)) : bs.length + 1 = (encode i).length + rest.length := by
  unfold decodeOp at h
  split at h
  case h_1 | h_3 | h_5 | h_6 => cases h; exact Nat.add_comm _ _
  case h_4 | h_7 | h_8 => obtain ⟨b, rfl, rfl⟩ := decode1_ok h; exact Nat.add_comm _ 2
  case h_2 | h_9 | h_10 => obtain ⟨a, b, rfl, rfl⟩ := decode2_ok h; exact Nat.add_comm _ 3
  case h_12 | h_13 => obtain ⟨a, b, c, rfl, rfl⟩ := decode3_ok h; exact Nat.add_comm _ 4
  case h_11 | h_14 | h_15 | h_16 | h_17 | h_18 | h_19 =>
    obtain ⟨a, b, c, d, rfl, rfl⟩ := decode4_ok h; exact Nat.add_comm _ 5
  case h_20 => obtain ⟨x, y, w, h, lo, hi, rfl, rfl⟩ := decodeF_ok h; exact Nat.add_comm _ 7
  case h_21 => obtain ⟨x, y, flo, fhi, slo, shi, n, rfl, rfl⟩ := decodeT_ok h; exact Nat.add_comm _ 8
  case h_22 => cases h

theorem decode_length (h : decode bs = .ok (i, rest)) : bs.length = (encode i).length + rest.length := by
  cases bs with
  | nil => cases h
  | cons op bs => exact decodeOp_length h

end Sys2Proof

namespace Sys2Proof.Machine

/-- The stream holds the whole of the command that is fetched (R94). -/
theorem State.fetch_length {s : State} {i : Instr} {rest : List Byte} (hcp : s.cp < s.prog.length) (h : s.fetch = .ok (i, rest)) :
    s.cp + (encode i).length ≤ s.prog.length := by
  have := decode_length h
  rw [List.length_drop] at this
  omega

end Sys2Proof.Machine
end

section
/-! PROOFS. INIT on the transport: at most once, and before every other event but polls (R52). -/

namespace Sys2Proof.Machine

variable {s t u : State} {i : Instr}

theorem withoutPolls_append (es fs : List Event) : withoutPolls (es ++ fs) = withoutPolls es ++ withoutPolls fs :=
  List.filter_append ..

theorem withoutPolls_polls (bs : List Bool) : withoutPolls (bs.map Event.busy) = [] :=
  List.filter_eq_nil_iff.2 (fun e he => by obtain ⟨b, -, rfl⟩ := List.mem_map.1 he; exact Bool.false_ne_true)

/-- Polls, then INIT, then no further INIT. -/
def InitOnceFirst (tr : List Event) : Prop := ∃ (bs : List Bool) (es : List Event), tr = bs.map Event.busy ++ .init :: es ∧ Event.init ∉ es

/-- Such a trace meets R52, and nothing is claimed of it that needs a fresh sequencer. -/
theorem InitOnceFirst.initFirst (h : InitOnceFirst t.trace) (hfresh : ¬ (t.inited = false ∧ t.err = 0 ∧ t.activity = .idle)) :
    t.initFirst := by
  obtain ⟨bs, es, htr, hes⟩ := h
  have hcount : t.initCount = 1 := by
    rw [State.initCount, htr, List.count_append, List.count_cons_self, List.count_eq_zero.2 hes, List.count_eq_zero.2 (by simp)]
  refine ⟨hcount.le, fun _ => hcount, .inr ?_, fun hf => absurd hf hfresh⟩
  rw [htr, withoutPolls_append, withoutPolls_polls]
  rfl

/-- Further events without INIT keep R52, where INIT has come before them or they are polls. -/
theorem initFirst_append {es : List Event} (hs : s.initFirst) (hin : t.inited = s.inited) (htr : t.trace = s.trace ++ es)
    (hes : Event.init ∉ es) (hw : s.inited = true ∨ withoutPolls es = [])
    (hfresh : ¬ (t.inited = false ∧ t.err = 0 ∧ t.activity = .idle)) : t.initFirst := by
  obtain ⟨hle, hone, hhead, -⟩ := hs
  have hcount : t.initCount = s.initCount := by
    rw [State.initCount, htr, List.count_append, List.count_eq_zero.2 hes, Nat.add_zero, State.initCount]
  refine ⟨hcount ▸ hle, fun ht => hcount ▸ hone (hin ▸ ht), ?_, fun hf => absurd hf hfresh⟩
  rw [htr, withoutPolls_append]
  rcases hw with hinited | hpolls
  · have hmem : Event.init ∈ s.trace := List.count_pos_iff.1 (by have := hone hinited; unfold State.initCount at this; omega)
    have hmem : Event.init ∈ withoutPolls s.trace := List.mem_filter.2 ⟨hmem, rfl⟩
    rcases hhead with hnil | hhead
    · rw [hnil] at hmem; cases hmem
    · exact .inr (by rw [List.head?_append, hhead]; rfl)
  · rw [hpolls, List.append_nil]; exact hhead

/-! ## The events of the commands -/

/-- Nothing of INIT: INITED stays, and the events have no INIT among them. -/
def Initless (s t : State) : Prop := t.inited = s.inited ∧ ∃ es, t.trace = s.trace ++ es ∧ Event.init ∉ es

theorem Frame.initless (h : Frame s t) : Initless s t := ⟨h.inited, h.trace⟩

theorem composes_initless : Composes Initless (UnlessFault Initless) := by
  refine composes_unlessFault (fun s => (Frame.refl s).initless) ?_
  rintro s t u ⟨hin, es, htr, hes⟩ ⟨kin, fs, ktr, hfs⟩
  exact ⟨kin.trans hin, es ++ fs, by rw [ktr, htr, List.append_assoc], by simp [hes, hfs]⟩

/-- The commands but INIT issue no INIT (R52). -/
theorem initless_commandEvents (rom : Memory) (fast : Bool) (hi : i ≠ .init) :
    Obeys Initless (UnlessFault Initless) (commandEvents rom fast i) := by
  by_cases hr : i = .rdbyte
  · subst hr
    exact composes_initless.readByteEvents ((framed_tr .data).obeys Frame.initless) (fun s b => ⟨rfl, [], by simp, by simp⟩)
  · exact (assembled_commandEvents rom fast i hi hr).framed.obeys Frame.initless

theorem initOnceFirst_of_accessed (hs : s.trace = []) (hu : Accessed .init s u) (h : Initless u t) : InitOnceFirst t.trace := by
  obtain ⟨bs, hu⟩ := hu
  obtain ⟨-, es, htr, hes⟩ := h
  exact ⟨bs, es, by rw [htr, hu, hs]; simp, hes⟩

/-- INIT that runs to its end has set INITED (R127). -/
theorem initEvents_done {a : Unit} (hs : s.trace = []) (h : initEvents s = .done a t) : t.inited = true ∧ InitOnceFirst t.trace := by
  obtain ⟨u, hu, h⟩ := (inOrder_cons_eq_done_iff _ _ _ _).1 h
  obtain ⟨v, hv, h⟩ := (inOrder_cons_eq_done_iff _ _ _ _).1 h
  cases h
  exact ⟨rfl, initOnceFirst_of_accessed (t := v) hs (tInit_done hu) (framed_modeSetup.done hv).initless⟩

/-- INIT that stops has stopped in its first wait, or in the mode setup. -/
theorem initEvents_stopped {e : Halt} (hs : s.trace = []) (h : initEvents s = .stopped e t) :
    Polled s t ∨ InitOnceFirst t.trace := by
  rcases (andThen_eq_stopped_iff _ _ _ _ _).1 h with h | ⟨_, u, hu, h⟩
  · exact .inl (tInit_stopped h)
  · rcases (andThen_eq_stopped_iff _ _ _ _ _).1 h with h | ⟨_, v, -, h⟩
    · exact .inr (initOnceFirst_of_accessed hs (tInit_done hu) (framed_modeSetup.stopped h).1.initless)
    · cases h

/-! ## The commands -/

theorem exec_initFirst_of_ne_init (hi : i ≠ .init) (hs : s.initFirst) (hx : exec i s = .next t) : t.initFirst := by
  rw [exec_eq_runCommand] at hx
  rcases runCommand_next hx with ⟨e, rfl⟩ | ⟨hrun, -, hends⟩
  · exact initFirst_append (es := []) hs rfl (by simp) (by simp) (.inr rfl) (fun hf => errAfter_ne_zero _ _ hf.2.1)
  · have hinited : s.inited = true := by simpa [hi] using hrun.symm
    have hkeeps := initless_commandEvents s.rom s.par.fastPath8x16 hi
    obtain ⟨u, ⟨hin, es, htr, hes⟩, htin, httr⟩ : ∃ u, Initless s u ∧ t.inited = u.inited ∧ t.trace = u.trace := by
      rcases hends with ⟨u, hu, rfl⟩ | ⟨e, u, hu, rfl⟩ | ⟨u, hu, rfl⟩
      · exact ⟨u, hkeeps.done hu, rfl, rfl⟩
      · exact ⟨u, hkeeps.stopped hu nofun, rfl, rfl⟩
      · exact ⟨u, hkeeps.stopped hu nofun, rfl, rfl⟩
    refine initFirst_append hs (htin.trans hin) (httr.trans htr) hes (.inl hinited) (fun hf => ?_)
    rw [htin, hin, hinited] at hf
    exact absurd hf.1 nofun

/-- INIT cut short on a fresh sequencer keeps R52, in a state that is no longer fresh. -/
theorem initEvents_stopped_initFirst {e : Halt} (hs : s.initFirst) (htr : s.trace = []) (hu : initEvents s = .stopped e u)
    (hin : t.inited = u.inited) (httr : t.trace = u.trace) (ht : t.err ≠ 0 ∨ t.activity ≠ .idle) : t.initFirst := by
  have hfresh : ¬ (t.inited = false ∧ t.err = 0 ∧ t.activity = .idle) := fun hf => ht.elim (· hf.2.1) (· hf.2.2)
  rcases initEvents_stopped htr hu with ⟨bs, rfl⟩ | hinit
  · exact initFirst_append hs hin httr (by simp) (.inr (withoutPolls_polls bs)) hfresh
  · exact InitOnceFirst.initFirst (httr ▸ hinit) hfresh

theorem exec_init_initFirst (hs : s.initFirst) (herr : s.err = 0) (ha : s.activity = .idle) (hx : exec .init s = .next t) :
    t.initFirst := by
  rw [exec_eq_runCommand] at hx
  rcases runCommand_next hx with ⟨e, rfl⟩ | ⟨hrun, -, hends⟩
  · exact initFirst_append (es := []) hs rfl (by simp) (by simp) (.inr rfl) (fun hf => errAfter_ne_zero _ _ hf.2.1)
  · have hin : s.inited = false := by simpa using hrun.symm
    obtain ⟨-, -, -, hfresh⟩ := id hs
    have htr : s.trace = [] := (hfresh ⟨hin, herr, ha⟩).1
    rcases hends with ⟨u, hu, rfl⟩ | ⟨e, u, hu, rfl⟩ | ⟨u, hu, rfl⟩
    · obtain ⟨huin, hinit⟩ := initEvents_done htr hu
      exact InitOnceFirst.initFirst hinit (fun hf => absurd (huin.symm.trans hf.1) nofun)
    · exact initEvents_stopped_initFirst hs htr hu rfl rfl (.inl (errAfter_ne_zero _ _))
    · exact initEvents_stopped_initFirst hs htr hu rfl rfl (.inr nofun)

end Sys2Proof.Machine
end

section
/-! PROOFS. The whole machine: the invariant, the inputs of the run, the fault state, CP, the first error, and reset. -/

namespace Sys2Proof.Machine

variable {s t : State} {i : Instr}

/-! ## The parts of the invariant -/

theorem Device.afterEvent_wf (p : Params) (d : Device) (e : Event) (h : d.mem.wf = true) : (d.afterEvent p e).mem.wf = true := by
  cases e with
  | write r b =>
    rw [Device.afterEvent]
    cases hd : d.write p r b with
    | none => exact h
    | some d' => exact Device.write_wf hd h
  | read r b =>
    rw [Device.afterEvent]
    cases hd : d.read p r with
    | none => exact h
    | some vd =>
      obtain ⟨-, -, -, hd'⟩ := Device.read_cases hd
      rw [Option.map_some, Option.getD_some, hd']
      exact h
  | init => exact h
  | busy b => exact h

theorem Device.afterEvents_wf (p : Params) (d : Device) (es : List Event) (h : d.mem.wf = true) :
    (d.afterEvents p es).mem.wf = true := by
  induction es generalizing d with
  | nil => exact h
  | cons e es ih => exact ih (d.afterEvent p e) (d.afterEvent_wf p e h)

theorem Logged.wf (h : Logged s t) (hw : s.dev.mem.wf = true) : t.dev.mem.wf = true := by
  obtain ⟨es, -, hdev, -⟩ := h
  rw [hdev]
  exact Device.afterEvents_wf _ _ es hw

/-- A step keeps the inputs of the run, and its events account for the device and the busy answers used. In the endless wait this needs
the wait to be for cause: only then is no listed answer left. -/
theorem step_logged (hj : s.hangJustified) (h : step s = .next t) : SameRun s t ∧ Logged s t := by
  rcases step_next h with ⟨ha, rfl⟩ | ⟨-, rfl | ⟨-, ⟨-, rfl⟩ | ⟨-, rfl | ⟨i, rest, -, hx⟩⟩⟩⟩
  · obtain ⟨-, -, hba, -⟩ := hj ha
    exact ⟨⟨rfl, rfl, rfl, rfl⟩, [.busy true], rfl, rfl, by simp [hba]⟩
  · exact ⟨⟨rfl, rfl, rfl, rfl⟩, Logged.refl t⟩
  · exact ⟨⟨rfl, rfl, rfl, rfl⟩, Logged.refl s⟩
  · exact ⟨⟨rfl, rfl, rfl, rfl⟩, Logged.refl s⟩
  · obtain ⟨hrun, -, hlog⟩ := exec_ran hx
    exact ⟨hrun, hlog⟩

theorem step_memoryCanonical (hj : s.hangJustified) (hs : s.memoryCanonical) (h : step s = .next t) : t.memoryCanonical := by
  obtain ⟨⟨-, hrom, -, -⟩, hlog⟩ := step_logged hj h
  exact ⟨hlog.wf hs.1, hrom ▸ hs.2⟩

theorem exec_errLegal (hs : s.errLegal) (hx : exec i s = .next t) : t.errLegal := by
  rcases exec_err hx with h | ⟨e, h⟩
  · rw [State.errLegal, h]; exact hs
  · rw [State.errLegal, h]; exact errAfter_legal hs e

theorem step_errLegal (hs : s.errLegal) (h : step s = .next t) : t.errLegal := by
  rcases step_next h with ⟨-, rfl⟩ | ⟨-, rfl | ⟨-, ⟨-, rfl⟩ | ⟨-, rfl | ⟨i, rest, -, hx⟩⟩⟩⟩
  · exact hs
  · exact hs
  · exact hs
  · exact errAfter_legal hs .illegalCommand
  · exact exec_errLegal hs hx

theorem step_cpInStream (hs : s.cpInStream) (h : step s = .next t) : t.cpInStream := by
  rcases step_next h with ⟨-, rfl⟩ | ⟨-, rfl | ⟨hcp, ⟨-, rfl⟩ | ⟨-, rfl | ⟨i, rest, hf, hx⟩⟩⟩⟩
  · exact hs
  · exact hs
  · exact hcp
  · exact hcp
  · obtain ⟨⟨-, -, hprog, -⟩, -, -⟩ := exec_ran hx
    rw [State.cpInStream, hprog]
    rcases exec_cp hx with hcp' | ⟨-, hcp'⟩
    · rw [hcp']; exact State.fetch_length hcp hf
    · rw [hcp']; exact hs

theorem step_hangJustified (hs : s.hangJustified) (h : step s = .next t) : t.hangJustified := by
  rcases step_next h with ⟨-, rfl⟩ | ⟨ha, rfl | ⟨-, ⟨-, rfl⟩ | ⟨-, rfl | ⟨i, rest, -, hx⟩⟩⟩⟩
  · exact hs
  · exact hs
  · exact hs
  · nofun
  · exact exec_hangJustified hx

theorem step_initFirst (hs : s.initFirst) (h : step s = .next t) : t.initFirst := by
  rcases step_next h with ⟨ha, rfl⟩ | ⟨ha, rfl | ⟨-, ⟨herr, rfl⟩ | ⟨herr, rfl | ⟨i, rest, -, hx⟩⟩⟩⟩
  · exact initFirst_append hs rfl rfl (by simp) (.inr rfl) (fun hf => absurd (ha.symm.trans hf.2.2) nofun)
  · exact hs
  · exact initFirst_append (es := []) hs rfl (by simp) (by simp) (.inr rfl) (fun hf => herr hf.2.1)
  · exact initFirst_append (es := []) hs rfl (by simp) (by simp) (.inr rfl) (fun hf => errAfter_ne_zero _ _ hf.2.1)
  · by_cases hi : i = .init
    · subst hi; exact exec_init_initFirst hs herr ha hx
    · exact exec_initFirst_of_ne_init hi hs hx

/-- Settles O48: each part of the invariant by the cases of a step. -/
theorem everyStepKeepsTheInvariant : Obligations.EveryStepKeepsTheInvariant := by
  unfold Obligations.EveryStepKeepsTheInvariant
  rintro s t ⟨hmem, herr, hcp, hhang, hinit⟩ h
  exact ⟨step_memoryCanonical hhang hmem h, step_errLegal herr h, step_cpInStream hcp h, step_hangJustified hhang h,
    step_initFirst hinit h⟩

/-! ## Reset -/

/-- Settles O17: each register is read off the reset state. -/
theorem resetValues : Obligations.ResetValues :=
  fun _ _ _ _ _ _ => ⟨rfl, rfl, rfl, rfl, rfl, rfl, rfl, rfl, rfl, rfl, rfl⟩

/-- Right after reset nothing has been issued, so only the memories are in question. -/
theorem resetWith_inv (par : Params) (rom : Memory) (prog : List Byte) (ba : List Bool) (br : Bool) (dev : Device)
    (hrom : rom.wf = true) (hmem : dev.mem.wf = true) : (State.resetWith par rom prog ba br dev).Inv :=
  ⟨⟨hmem, hrom⟩, Nat.zero_le 4, Nat.zero_le _, nofun, Nat.zero_le 1, nofun, .inl rfl, fun _ => ⟨rfl, rfl⟩⟩

/-- Settles O49: `State.reset` is one of the states after reset, with empty memories. -/
theorem invariantAtReset : Obligations.InvariantAtReset :=
  ⟨resetWith_inv _ _ _ _ _ _ Memory.wf_nil Memory.wf_nil, resetWith_inv⟩

theorem State.eventsSince_of_append {es : List Event} (h : t.trace = s.trace ++ es) : s.eventsSince t = es := by
  rw [State.eventsSince, h, List.drop_left]

theorem resetDuring_of_next (h : step s = .next t) (n : Nat) : resetDuring n s = .next (s.abandonAfter n t) := by
  simp only [resetDuring, h]

/-- Before the first event of a step, reset is the reset between steps. -/
theorem abandonAfter_zero (s t : State) : s.abandonAfter 0 t = s.applyReset := rfl

/-- After all events of a step, reset is the reset after the step. -/
theorem abandonAfter_all {n : Nat} (hrun : SameRun s t) (hlog : Logged s t) (hn : t.trace.length ≤ s.trace.length + n) :
    s.abandonAfter n t = t.applyReset := by
  obtain ⟨hpar, hrom, hprog, hrest⟩ := hrun
  obtain ⟨es, htr, hdev, hba⟩ := hlog
  have hes : (s.eventsSince t).take n = es := by
    rw [State.eventsSince_of_append htr]
    rw [htr, List.length_append] at hn
    exact List.take_of_length_le (by omega)
  simp only [State.abandonAfter, hes, ← hdev, ← hba, State.applyReset, State.resetWith, hpar, hrom, hprog, hrest]

/-- Settles O18: the device and the busy answers follow the events of the step, so after all of them reset finds what the step left. -/
theorem resetDuringAStep : Obligations.ResetDuringAStep := by
  unfold Obligations.ResetDuringAStep
  intro s t hj h
  obtain ⟨hrun, hlog⟩ := step_logged hj h
  refine ⟨?_, fun n hn => ?_, fun n u hu => ?_⟩
  · rw [resetDuring_of_next h, abandonAfter_zero]
  · rw [resetDuring_of_next h, abandonAfter_all hrun hlog hn]
  · rw [resetDuring_of_next h] at hu
    cases hu
    exact ⟨rfl, rfl, rfl, rfl, rfl, rfl, rfl, ⟨rfl, rfl, rfl, rfl⟩, rfl⟩

/-! ## The fault state, CP and ERR -/

/-- Settles O8, by induction on the number of steps. -/
theorem faultStateDiscardsTheStream : Obligations.FaultStateDiscardsTheStream := by
  unfold Obligations.FaultStateDiscardsTheStream
  intro s k
  induction k generalizing s with
  | zero => intros; rfl
  | succ k ih =>
    intro ha herr hcp
    rw [runSteps, step_discards ha herr (by omega)]
    refine (ih s.discardByte ha herr (by rw [State.discardByte_cp, State.discardByte_prog]; omega)).trans ?_
    rw [State.discardByte_cp, Nat.add_assoc, Nat.add_comm 1 k]
    rfl

/-- Settles O10: of the two ends of `exec_cp`, the hang is not idle. -/
theorem cpAdvancesByTheLength : Obligations.CpAdvancesByTheLength := by
  unfold Obligations.CpAdvancesByTheLength
  intro i s t hx hidle
  rcases exec_cp hx with hcp | ⟨hbusy, -⟩
  · exact hcp
  · rw [hidle] at hbusy; cases hbusy

theorem exec_err_of_ne_zero (hs : s.err ≠ 0) (hx : exec i s = .next t) : t.err = s.err := by
  rcases exec_err hx with h | ⟨e, h⟩
  · exact h
  · rw [h, errAfter_of_ne hs]

/-- Settles O15: an error is recorded only where none stands. -/
theorem firstErrorStays : Obligations.FirstErrorStays := by
  unfold Obligations.FirstErrorStays
  refine ⟨fun i s t hs hx => exec_err_of_ne_zero hs hx, fun s t hs h => ?_⟩
  rcases step_next h with ⟨-, rfl⟩ | ⟨-, rfl | ⟨-, ⟨-, rfl⟩ | ⟨herr, -⟩⟩⟩
  · rfl
  · rfl
  · rfl
  · exact absurd herr hs

/-! ## The inputs of the run -/

theorem exec_cp_le (hx : exec i s = .next t) : s.cp ≤ t.cp := by
  rcases exec_cp hx with h | ⟨-, h⟩ <;> omega

/-- Settles O50, by the cases of a step. -/
theorem stepsKeepTheInputsOfTheRun : Obligations.StepsKeepTheInputsOfTheRun := by
  unfold Obligations.StepsKeepTheInputsOfTheRun
  intro s t h
  rcases step_next h with ⟨-, rfl⟩ | ⟨-, rfl | ⟨-, ⟨-, rfl⟩ | ⟨-, rfl | ⟨i, rest, -, hx⟩⟩⟩⟩
  · exact ⟨rfl, rfl, rfl, rfl, List.prefix_append _ _, List.prefix_rfl, le_rfl⟩
  · exact ⟨rfl, rfl, rfl, rfl, List.prefix_rfl, List.prefix_rfl, le_rfl⟩
  · exact ⟨rfl, rfl, rfl, rfl, List.prefix_rfl, List.prefix_rfl, Nat.le_succ _⟩
  · exact ⟨rfl, rfl, rfl, rfl, List.prefix_rfl, List.prefix_rfl, Nat.le_succ _⟩
  · obtain ⟨⟨hpar, hrom, hprog, hrest⟩, hresp, es, htr, -⟩ := exec_ran hx
    exact ⟨hpar, hrom, hprog, hrest, ⟨es, htr.symm⟩, hresp, exec_cp_le hx⟩

end Sys2Proof.Machine
end

section
/-! PROOFS. The response stream: only RDBYTE appends to it, one byte, the one it read (R32, R132). -/

namespace Sys2Proof.Machine

variable {s t u : State} {i : Instr}

/-- RESP stays. -/
def SameResp (s t : State) : Prop := t.resp = s.resp

theorem composes_sameResp : Composes SameResp (UnlessFault SameResp) :=
  composes_unlessFault (fun _ => rfl) (fun h k => Eq.trans k h)

theorem Accessed.resp {e : Event} (h : Accessed e s t) : t.resp = s.resp := by
  obtain ⟨bs, h⟩ := h
  rw [h]

theorem Polled.resp (h : Polled s t) : t.resp = s.resp := by
  obtain ⟨bs, rfl⟩ := h
  rfl

theorem sameResp_commandEvents (rom : Memory) (fast : Bool) (hr : i ≠ .rdbyte) :
    Obeys SameResp (UnlessFault SameResp) (commandEvents rom fast i) := by
  by_cases hi : i = .init
  · subst hi
    exact composes_sameResp.initEvents ⟨fun h => (tInit_done h).resp, fun h _ => (tInit_stopped h).resp⟩
      (fun r b => (framed_tw r b).obeys Frame.resp) (fun _ => rfl) (fun _ => rfl)
  · exact (assembled_commandEvents rom fast i hi hr).framed.obeys Frame.resp

/-- One byte is appended to RESP: the one the last event since `s`, a read of the Data register, returned. -/
def Responded (s t : State) : Prop := ∃ v, t.resp = s.resp ++ [v] ∧ (s.eventsSince t).getLast? = some (.read .data v)

theorem readByteEvents_done {a : Unit} (h : readByteEvents s = .done a t) : Responded s t := by
  obtain ⟨v, u, hu, ht⟩ := (andThen_eq_done_iff _ _ _ _ _).1 h
  cases ht
  obtain ⟨bs, hu⟩ := tr_done hu
  refine ⟨v, by rw [hu], ?_⟩
  rw [State.eventsSince_of_append (s := s) (es := bs.map Event.busy ++ [.read .data v]) (by rw [hu])]
  exact List.getLast?_concat

theorem readByteEvents_stopped {e : Halt} (h : readByteEvents s = .stopped e t) : t.resp = s.resp := by
  rcases (andThen_eq_stopped_iff _ _ _ _ _).1 h with h | ⟨v, u, -, ht⟩
  · exact (tr_stopped h).resp
  · cases ht

/-- RDBYTE: completed with the byte it read, or cut short, with an error or in the endless wait, and no byte. -/
theorem rdbyte_resp (hx : exec .rdbyte s = .next t) :
    (t.activity = .idle ∧ t.err = s.err ∧ Responded s t) ∨ (¬ (t.activity = .idle ∧ t.err = 0) ∧ t.resp = s.resp) := by
  rw [exec_eq_runCommand] at hx
  rcases runCommand_next hx with ⟨e, rfl⟩ | ⟨-, -, ⟨u, hu, rfl⟩ | ⟨e, u, hu, rfl⟩ | ⟨u, hu, rfl⟩⟩
  · exact .inr ⟨fun h => errAfter_ne_zero _ _ h.2, rfl⟩
  · exact .inl ⟨rfl, ((runs_commandEvents s.rom s.par.fastPath8x16 .rdbyte).done hu).err, readByteEvents_done (t := u) hu⟩
  · exact .inr ⟨fun h => errAfter_ne_zero _ _ h.2, readByteEvents_stopped (t := u) hu⟩
  · exact .inr ⟨nofun, readByteEvents_stopped (t := u) hu⟩

/-- Settles O51: every other command keeps RESP, and RDBYTE has the two ends of `rdbyte_resp`. -/
theorem onlyRdbyteAppendsToResp : Obligations.OnlyRdbyteAppendsToResp := by
  unfold Obligations.OnlyRdbyteAppendsToResp
  intro i s t hx
  refine ⟨fun hr => ?_, ?_, ?_⟩
  · obtain ⟨u, hu, ht⟩ := exec_leaves (sameResp_commandEvents s.rom s.par.fastPath8x16 hr) rfl hx
    rw [ht]
    exact hu
  · rintro rfl herr
    rcases rdbyte_resp hx with ⟨hidle, herr', hresp⟩ | ⟨hcut, hresp⟩
    · rw [if_pos ⟨hidle, herr'.trans herr⟩]; exact hresp
    · rw [if_neg hcut]; exact hresp
  · rintro rfl
    rcases rdbyte_resp hx with ⟨-, -, hresp⟩ | ⟨-, hresp⟩
    · exact .inr hresp
    · exact .inl hresp

end Sys2Proof.Machine
end

section
/-! PROOFS. The cursor shadow as a function of the events: a run of events read off set-cursor sequence by set-cursor sequence, and what
such a run says of the last sequence among them (R25, R100). -/

namespace Sys2Proof.Machine

/-- `CursorRun p c es c'`: the events `es` are whole set-cursor sequences and events that begin none, and they take CUR from `c` to
`c'`. -/
inductive CursorRun (p : Params) : Word → List Event → Word → Prop
  | nil (c : Word) : CursorRun p c [] c
  | setCursor {c v c' : Word} {es : List Event} : CursorRun p v es c' → CursorRun p c (setCursorTrace p v ++ es) c'
  | other {c c' : Word} {e : Event} {es : List Event} : e ≠ .write .command p.cmdCurLo → CursorRun p c es c' →
      CursorRun p c (e :: es) c'

variable {p : Params} {c c' a : Word} {es fs cut : List Event}

theorem CursorRun.append {c'' : Word} (h : CursorRun p c es c') (k : CursorRun p c' fs c'') : CursorRun p c (es ++ fs) c'' := by
  induction h with
  | nil c => exact k
  | setCursor _ ih => rw [List.append_assoc]; exact .setCursor (ih k)
  | other he _ ih => exact .other he (ih k)

/-- Events among which there is no set-cursor sequence leave CUR. -/
theorem CursorRun.eq_of_no_setCursor (h : CursorRun p c es c') (hno : ∀ a, ¬ setCursorTrace p a <:+: es ++ cut) : c' = c := by
  induction h with
  | nil c => rfl
  | @setCursor c v c' es _ _ =>
    exact absurd ⟨[], es ++ cut, by simp⟩ (hno v)
  | other _ _ ih => exact ih (fun a ha => hno a (ha.trans (List.suffix_cons _ _).isInfix))

theorem setCursorTrace_inj {v w : Word} (h : setCursorTrace p v = setCursorTrace p w) : v = w := by
  simp only [setCursorTrace, List.cons.injEq, Event.write.injEq, true_and, and_true] at h
  rw [← le16_lo8_hi8 v, ← le16_lo8_hi8 w, h.1, h.2]

/-- Where two set-cursor sequences stand in one list, they coincide or the second lies behind the first: it does not begin inside, since
only the first of the four events selects the low byte. -/
theorem setCursorTrace_append_eq (hp : p.distinct) {v w : Word} {before later rest : List Event}
    (h : setCursorTrace p v ++ rest = before ++ setCursorTrace p w ++ later) :
    (before = [] ∧ v = w ∧ rest = later) ∨ ∃ b, rest = b ++ setCursorTrace p w ++ later := by
  have hne : p.cmdCurHi ≠ p.cmdCurLo := by
    simp [Params.distinct, Params.deviceCommands] at hp
    exact Ne.symm hp.1.1
  match before with
  | [] =>
    have h : setCursorTrace p v ++ rest = setCursorTrace p w ++ later := h
    obtain ⟨hvw, hrest⟩ := List.append_inj h rfl
    exact .inl ⟨rfl, setCursorTrace_inj hvw, hrest⟩
  | [_] => simp [setCursorTrace] at h
  | [_, _] => simp [setCursorTrace, hne] at h
  | [_, _, _] => simp [setCursorTrace] at h
  | _ :: _ :: _ :: _ :: b =>
    simp only [setCursorTrace, List.cons_append, List.nil_append, List.cons.injEq] at h
    exact .inr ⟨b, by simpa [setCursorTrace] using h.2.2.2.2⟩

/-- CUR after a run is the address of its last set-cursor sequence, also when a sequence is cut short behind it. -/
theorem CursorRun.eq_of_last (hp : p.distinct) (h : CursorRun p c es c') (hcut : cut.length < 4) (hlast : LastCursor p (es ++ cut) a) :
    c' = a := by
  obtain ⟨before, later, heq, hno⟩ := hlast
  induction h generalizing before with
  | nil c =>
    have := congrArg List.length heq
    simp [setCursorTrace] at this
    omega
  | setCursor h ih =>
    rw [List.append_assoc] at heq
    rcases setCursorTrace_append_eq hp heq with ⟨-, rfl, rfl⟩ | ⟨b, hb⟩
    · exact h.eq_of_no_setCursor hno
    · exact ih b hb
  | other he _ ih =>
    cases before with
    | nil => exact absurd (List.cons.inj heq).1 he
    | cons b before => exact ih before (List.cons.inj heq).2

end Sys2Proof.Machine
end

section
/-! PROOFS. What the pieces of the commands do with CUR and NDR (R24, R25): CUR follows the set-cursor sequences issued, and a drawing
routine that issues a write ends with NDR set. -/

namespace Sys2Proof.Machine

variable {s t u : State}

/-! ## Events issued, polls aside -/

/-- The events `es`, and polls, are issued, and nothing else changes but the device and the busy answers. -/
def Issued (es : List Event) (s t : State) : Prop :=
  ∃ fs, t = { s with trace := s.trace ++ fs, busyAnswers := t.busyAnswers, dev := t.dev } ∧ withoutPolls fs = es

theorem Issued.trans {es fs : List Event} (h : Issued es s t) (k : Issued fs t u) : Issued (es ++ fs) s u := by
  obtain ⟨es', ht, rfl⟩ := h
  obtain ⟨fs', hu, rfl⟩ := k
  refine ⟨es' ++ fs', ?_, withoutPolls_append _ _⟩
  rw [ht] at hu
  rw [hu, List.append_assoc]

theorem Issued.par {es : List Event} (h : Issued es s t) : t.par = s.par := by
  obtain ⟨_, h, -⟩ := h
  rw [h]

theorem Polled.issued (h : Polled s t) : Issued [] s t := by
  obtain ⟨bs, rfl⟩ := h
  exact ⟨_, rfl, withoutPolls_polls bs⟩

theorem Accessed.issued {e : Event} (h : Accessed e s t) (he : e.isPoll = false) : Issued [e] s t := by
  obtain ⟨bs, h⟩ := h
  refine ⟨_, h, ?_⟩
  rw [withoutPolls_append, withoutPolls_polls, List.nil_append]
  simp [withoutPolls, he]

theorem inOrder_cons_eq_stopped_iff (m : Seq Unit) (ms : List (Seq Unit)) (s t : State) (e : Halt) :
    inOrder (m :: ms) s = .stopped e t ↔ m s = .stopped e t ∨ ∃ u, m s = .done () u ∧ inOrder ms u = .stopped e t := by
  rw [inOrder, andThen_eq_stopped_iff]
  exact or_congr_right ⟨fun ⟨_, u, h⟩ => ⟨u, h⟩, fun ⟨u, h⟩ => ⟨(), u, h⟩⟩

/-- The set-cursor sequence, whole: its four events, then CUR and NDR (R121). -/
theorem setCursorAddress_done {v : Word} {a : Unit} (h : setCursorAddress v s = .done a t) :
    ∃ u, Issued (setCursorTrace s.par v) s u ∧ t = { u with cur := v, ndr := true } := by
  obtain ⟨s1, h1, h⟩ := (inOrder_cons_eq_done_iff _ _ _ _).1 h
  obtain ⟨s2, h2, h⟩ := (inOrder_cons_eq_done_iff _ _ _ _).1 h
  obtain ⟨s3, h3, h⟩ := (inOrder_cons_eq_done_iff _ _ _ _).1 h
  obtain ⟨s4, h4, h⟩ := (inOrder_cons_eq_done_iff _ _ _ _).1 h
  cases h
  have i2 := ((tw_done h1).issued rfl).trans ((tw_done h2).issued rfl)
  have i4 := (i2.trans ((tw_done h3).issued rfl)).trans ((tw_done h4).issued rfl)
  rw [i2.par] at i4
  exact ⟨s4, i4, rfl⟩

/-- The set-cursor sequence, cut short: fewer than its four events, and CUR as it was. -/
theorem setCursorAddress_stopped {v : Word} {e : Halt} (h : setCursorAddress v s = .stopped e t) (hf : ∀ f, e ≠ .fault f) :
    ∃ es, Issued es s t ∧ es.length < 4 := by
  rcases (inOrder_cons_eq_stopped_iff _ _ _ _ _).1 h with h | ⟨s1, h1, h⟩
  · exact ⟨_, (tw_stopped h hf).issued, by simp⟩
  have i1 := (tw_done h1).issued rfl
  rcases (inOrder_cons_eq_stopped_iff _ _ _ _ _).1 h with h | ⟨s2, h2, h⟩
  · exact ⟨_, i1.trans (tw_stopped h hf).issued, by simp⟩
  have i2 := i1.trans ((tw_done h2).issued rfl)
  rcases (inOrder_cons_eq_stopped_iff _ _ _ _ _).1 h with h | ⟨s3, h3, h⟩
  · exact ⟨_, i2.trans (tw_stopped h hf).issued, by simp⟩
  have i3 := i2.trans ((tw_done h3).issued rfl)
  rcases (inOrder_cons_eq_stopped_iff _ _ _ _ _).1 h with h | ⟨s4, h4, h⟩
  · exact ⟨_, i3.trans (tw_stopped h hf).issued, by simp⟩
  · cases h

/-! ## CUR follows the events -/

/-- The events issued take CUR where they say. -/
def CursorDone (s t : State) : Prop :=
  t.par = s.par ∧ ∃ es, t.trace = s.trace ++ es ∧ (s.par.distinct → CursorRun s.par s.cur (withoutPolls es) t.cur)

/-- The same, with a set-cursor sequence cut short behind them. -/
def CursorCut (s t : State) : Prop :=
  ∃ es, t.trace = s.trace ++ es ∧
    (s.par.distinct → ∃ whole cut, withoutPolls es = whole ++ cut ∧ cut.length < 4 ∧ CursorRun s.par s.cur whole t.cur)

theorem CursorDone.trans (h : CursorDone s t) (k : CursorDone t u) : CursorDone s u := by
  obtain ⟨hpar, es, htr, hrun⟩ := h
  obtain ⟨kpar, fs, ktr, krun⟩ := k
  refine ⟨kpar.trans hpar, es ++ fs, by rw [ktr, htr, List.append_assoc], fun hp => ?_⟩
  rw [withoutPolls_append]
  rw [hpar] at krun
  exact (hrun hp).append (krun hp)

theorem CursorDone.trans_cut (h : CursorDone s t) (k : CursorCut t u) : CursorCut s u := by
  obtain ⟨hpar, es, htr, hrun⟩ := h
  obtain ⟨fs, ktr, krun⟩ := k
  refine ⟨es ++ fs, by rw [ktr, htr, List.append_assoc], fun hp => ?_⟩
  rw [hpar] at krun
  obtain ⟨whole, cut, hfs, hcut, hwhole⟩ := krun hp
  exact ⟨withoutPolls es ++ whole, cut, by rw [withoutPolls_append, hfs, List.append_assoc], hcut, (hrun hp).append hwhole⟩

theorem CursorDone.cut (h : CursorDone s t) : CursorCut s t := by
  obtain ⟨-, es, htr, hrun⟩ := h
  exact ⟨es, htr, fun hp => ⟨_, [], (List.append_nil _).symm, by simp, hrun hp⟩⟩

theorem cursorDone_of_same (hpar : t.par = s.par) (htr : t.trace = s.trace) (hcur : t.cur = s.cur) : CursorDone s t :=
  ⟨hpar, [], by rw [htr, List.append_nil], fun _ => hcur ▸ .nil _⟩

theorem Issued.cursorDone {e : Event} (h : Issued [e] s t) (he : s.par.distinct → e ≠ .write .command s.par.cmdCurLo) :
    CursorDone s t := by
  obtain ⟨fs, ht, hfs⟩ := h
  refine ⟨by rw [ht], fs, by rw [ht], fun hp => ?_⟩
  rw [hfs, ht]
  exact .other (he hp) (.nil _)

theorem Issued.cursorCut {es : List Event} (h : Issued es s t) (hlen : es.length < 4) : CursorCut s t := by
  obtain ⟨fs, ht, rfl⟩ := h
  refine ⟨fs, by rw [ht], fun _ => ⟨[], _, rfl, hlen, ?_⟩⟩
  rw [ht]
  exact .nil _

theorem Polled.cursorCut (h : Polled s t) : CursorCut s t := h.issued.cursorCut (by simp)

/-! ## What a piece does with NDR -/

/-- The trace only grew: nothing is said of NDR. -/
def Grew (s t : State) : Prop := s.trace <+: t.trace

/-- NDR stays set where it was set: what a piece does in a stream that has begun. -/
def Streamed (s t : State) : Prop := Grew s t ∧ (s.ndr = true → t.ndr = true)

/-- A write was issued, and NDR is set. -/
def Positioned (s t : State) : Prop := t.ndr = true ∧ ∃ es, t.trace = s.trace ++ es ∧ es.any Event.isWrite = true

/-- Nothing was done, or a write was issued and NDR is set. -/
def Drew (s t : State) : Prop := t = s ∨ Positioned s t

theorem Positioned.grew (h : Positioned s t) : Grew s t := by
  obtain ⟨-, es, htr, -⟩ := h
  exact ⟨es, htr.symm⟩

theorem Positioned.streamed (h : Positioned s t) : Streamed s t := ⟨h.grew, fun _ => h.1⟩

theorem Drew.streamed (h : Drew s t) : Streamed s t := by
  rcases h with rfl | h
  · exact ⟨List.prefix_rfl, id⟩
  · exact h.streamed

theorem Streamed.trans (h : Streamed s t) (k : Streamed t u) : Streamed s u := ⟨h.1.trans k.1, fun hs => k.2 (h.2 hs)⟩

theorem Positioned.trans_streamed (h : Positioned s t) (k : Streamed t u) : Positioned s u := by
  obtain ⟨hndr, es, htr, hw⟩ := h
  obtain ⟨⟨fs, hfs⟩, hk⟩ := k
  exact ⟨hk hndr, es ++ fs, by rw [← hfs, htr, List.append_assoc], by rw [List.any_append, hw, Bool.true_or]⟩

theorem Grew.trans_positioned (h : Grew s t) (k : Positioned t u) : Positioned s u := by
  obtain ⟨es, hes⟩ := h
  obtain ⟨hndr, fs, htr, hw⟩ := k
  exact ⟨hndr, es ++ fs, by rw [htr, ← hes, List.append_assoc], by rw [List.any_append, hw, Bool.or_true]⟩

theorem Drew.trans (h : Drew s t) (k : Drew t u) : Drew s u := by
  rcases h with rfl | h
  · exact k
  · exact .inr (h.trans_streamed k.streamed)

/-! ## Pieces -/

/-- A piece with which CUR follows the events, also when it is cut short, and which comes to `R` when it runs to its end. -/
structure Places (R : State → State → Prop) {α : Type} (m : Seq α) : Prop where
  cursor : Obeys CursorDone (UnlessFault CursorCut) m
  ends : ∀ {s t : State} {a : α}, m s = .done a t → R s t

section closure

variable {R R₁ R₂ : State → State → Prop} {α β : Type} {m : Seq α} {f : α → Seq β}

theorem Places.mono (h : Places R₁ m) (hR : ∀ {s t}, R₁ s t → R s t) : Places R m := ⟨h.cursor, fun hm => hR (h.ends hm)⟩

theorem Places.andThen (hm : Places R₁ m) (hf : ∀ a, Places R₂ (f a)) (trans : ∀ {s t u}, R₁ s t → R₂ t u → R s u) :
    Places R (andThen m f) where
  cursor := hm.cursor.andThen (fun a => (hf a).cursor) CursorDone.trans (fun h k hne => h.trans_cut (k hne))
  ends := by
    intro s t b h
    obtain ⟨a, u, hu, ht⟩ := (andThen_eq_done_iff _ _ _ _ _).1 h
    exact trans (hm.ends hu) ((hf a).ends ht)

theorem Places.reads (hm : Places Grew m) (hf : ∀ a, Places Grew (f a)) : Places Grew (Machine.andThen m f) :=
  hm.andThen hf List.IsPrefix.trans

theorem Places.streams (hm : Places Streamed m) (hf : ∀ a, Places Streamed (f a)) : Places Streamed (Machine.andThen m f) :=
  hm.andThen hf Streamed.trans

/-- A positioned piece, and then the stream it has opened. -/
theorem Places.opens (hm : Places Positioned m) (hf : ∀ a, Places Streamed (f a)) : Places Positioned (Machine.andThen m f) :=
  hm.andThen hf Positioned.trans_streamed

/-- A read, and then a piece that positions the cursor again. -/
theorem Places.positionsAgain (hm : Places Grew m) (hf : ∀ a, Places Positioned (f a)) : Places Positioned (Machine.andThen m f) :=
  hm.andThen hf Grew.trans_positioned

theorem Places.draws (hm : Places Drew m) (hf : ∀ a, Places Drew (f a)) : Places Drew (Machine.andThen m f) :=
  hm.andThen hf Drew.trans

theorem Places.of_state {m : Seq α} (g : State → Seq α) (hm : ∀ s, m s = g s s) (h : ∀ s, Places R (g s)) : Places R m :=
  ⟨obeys_of_state g hm (fun s => (h s).cursor), fun {s _ _} hs => (h s).ends ((hm s).symm.trans hs)⟩

theorem Places.ite {c : Prop} [Decidable c] {n : Seq α} (hm : Places R m) (hn : Places R n) : Places R (if c then m else n) := by
  split
  · exact hm
  · exact hn

theorem Places.grew_of_streamed (h : Places Streamed m) : Places Grew m := h.mono And.left

theorem Places.grew_of_positioned (h : Places Positioned m) : Places Grew m := h.mono Positioned.grew

theorem Places.streamed_of_drew (h : Places Drew m) : Places Streamed m := h.mono Drew.streamed

theorem Places.drew_of_positioned (h : Places Positioned m) : Places Drew m := h.mono .inr

theorem places_yield (a : α) : Places Drew (yield a) where
  cursor := ⟨by rintro s _ _ ⟨⟩; exact cursorDone_of_same rfl rfl rfl, nofun⟩
  ends := by rintro s _ _ ⟨⟩; exact .inl rfl

theorem places_skip : Places Drew skip := places_yield ()

end closure

section inOrder

variable {m : Seq Unit} {ms : List (Seq Unit)}

theorem places_inOrder_reads (h : ∀ m ∈ ms, Places Grew m) : Places Grew (inOrder ms) := by
  induction ms with
  | nil => exact places_skip.streamed_of_drew.grew_of_streamed
  | cons m ms ih => exact (h m (by simp)).reads (fun _ => ih (fun n hn => h n (by simp [hn])))

theorem places_inOrder_streams (h : ∀ m ∈ ms, Places Streamed m) : Places Streamed (inOrder ms) := by
  induction ms with
  | nil => exact places_skip.streamed_of_drew
  | cons m ms ih => exact (h m (by simp)).streams (fun _ => ih (fun n hn => h n (by simp [hn])))

theorem places_inOrder_opens (hm : Places Positioned m) (h : ∀ m ∈ ms, Places Streamed m) : Places Positioned (inOrder (m :: ms)) :=
  hm.opens (fun _ => places_inOrder_streams h)

theorem places_inOrder_draws (h : ∀ m ∈ ms, Places Drew m) : Places Drew (inOrder ms) := by
  induction ms with
  | nil => exact places_skip
  | cons m ms ih => exact (h m (by simp)).draws (fun _ => ih (fun n hn => h n (by simp [hn])))

theorem places_forRows {body : Nat → Seq Unit} (h : ∀ k, Places Drew (body k)) (k n : Nat) : Places Drew (forRows body k n) := by
  induction n generalizing k with
  | zero => exact places_skip
  | succ n ih => exact places_inOrder_draws (by simpa using ⟨h k, ih (k + 1)⟩)

end inOrder

/-! ## The transport and the helper procedures -/

theorem Issued.streamed {es : List Event} (h : Issued es s t) : Streamed s t := by
  obtain ⟨fs, ht, -⟩ := h
  rw [ht]
  exact ⟨List.prefix_append _ _, id⟩

theorem Params.mem_tail_ne_curLo {p : Params} (hp : p.distinct) {b : Byte} (hb : b ∈ p.deviceCommands.tail) : b ≠ p.cmdCurLo := by
  rintro rfl
  exact (List.nodup_cons.1 hp).1 hb

theorem places_select (k : Params → Byte) (hk : ∀ p : Params, k p ∈ p.deviceCommands.tail) : Places Streamed (select k) where
  cursor :=
    ⟨fun h => ((tw_done h).issued rfl).cursorDone (fun hp => by simpa using Params.mem_tail_ne_curLo hp (hk _)),
      fun h hf => (tw_stopped h hf).cursorCut⟩
  ends := fun h => ((tw_done h).issued rfl).streamed

theorem places_data (b : Byte) : Places Streamed (tw .data b) where
  cursor := ⟨fun h => ((tw_done h).issued rfl).cursorDone (fun _ => by simp), fun h hf => (tw_stopped h hf).cursorCut⟩
  ends := fun h => ((tw_done h).issued rfl).streamed

theorem places_read : Places Streamed (tr .data) where
  cursor := ⟨fun h => ((tr_done h).issued rfl).cursorDone (fun _ => by simp), fun h _ => (tr_stopped h).cursorCut⟩
  ends := fun h => ((tr_done h).issued rfl).streamed

/-- A register update that touches none of the parameters, the trace and CUR. -/
theorem places_update {f : State → State} (h : ∀ s, (f s).par = s.par ∧ (f s).trace = s.trace ∧ (f s).cur = s.cur) :
    Places Grew (update f) where
  cursor := obeys_update (fun s => cursorDone_of_same (h s).1 (h s).2.1 (h s).2.2)
  ends := by
    rintro s _ _ ⟨⟩
    exact ⟨[], by rw [List.append_nil, (h s).2.1]⟩

theorem Issued.positioned {p : Params} {v : Word} (h : Issued (setCursorTrace p v) s u) (ht : t = { u with cur := v, ndr := true }) :
    Positioned s t := by
  obtain ⟨fs, hu, hfs⟩ := h
  have hmem : Event.write .command p.cmdCurLo ∈ withoutPolls fs := by rw [hfs]; exact List.mem_cons_self
  rw [ht]
  exact ⟨rfl, fs, by rw [hu], List.any_eq_true.2 ⟨_, (List.mem_filter.1 hmem).1, rfl⟩⟩

theorem places_setCursorAddress (v : Word) : Places Positioned (setCursorAddress v) where
  cursor := by
    constructor
    · intro s t a h
      obtain ⟨u, ⟨fs, hu, hfs⟩, rfl⟩ := setCursorAddress_done h
      refine ⟨by rw [hu], fs, by rw [hu], fun _ => ?_⟩
      rw [hfs, ← List.append_nil (setCursorTrace _ _)]
      exact .setCursor (.nil v)
    · intro s t e h hf
      obtain ⟨es, hes, hlen⟩ := setCursorAddress_stopped h hf
      exact hes.cursorCut hlen
  ends := by
    intro s t a h
    obtain ⟨u, hu, ht⟩ := setCursorAddress_done h
    exact hu.positioned ht

theorem places_beginWrite : Places Streamed beginWrite := places_select _ (fun _ => by simp [Params.deviceCommands])

theorem places_writeData (b : Byte) : Places Streamed (writeData b) := places_data b

theorem places_selectRead : Places Grew (select Params.cmdRead) :=
  (places_select _ (fun _ => by simp [Params.deviceCommands])).grew_of_streamed

theorem places_dummyRead : Places Grew dummyRead :=
  places_inOrder_reads (by
    simpa using ⟨places_selectRead, places_read.grew_of_streamed.reads (fun _ => places_skip.streamed_of_drew.grew_of_streamed),
      places_update (fun _ => ⟨rfl, rfl, rfl⟩)⟩)

theorem places_dummyReadIfNeeded : Places Grew dummyReadIfNeeded :=
  .of_state (fun s => if s.ndr then dummyRead else skip) (fun s => by unfold dummyReadIfNeeded; split <;> rfl)
    (fun _ => places_dummyRead.ite places_skip.streamed_of_drew.grew_of_streamed)

theorem places_beginRead : Places Grew beginRead :=
  places_inOrder_reads (by simpa using ⟨places_dummyReadIfNeeded, places_selectRead⟩)

theorem places_readByteAt (p : Word) : Places Grew (readByteAt p) :=
  (places_inOrder_reads (by simpa using ⟨(places_setCursorAddress p).grew_of_positioned, places_beginRead⟩)).reads
    (fun _ => places_read.grew_of_streamed)

theorem places_bitOp (k : Byte) (c : Colour) : Places Streamed (bitOp k c) :=
  places_inOrder_streams (by
    simpa using ⟨places_select _ (fun _ => by cases c <;> simp [Params.deviceCommands, bitOpCommand]), places_data k⟩)

theorem places_pixel (px py : Nat) (c : Colour) : Places Positioned (pixel px py c) :=
  places_inOrder_opens (places_setCursorAddress _) (by simpa using places_bitOp _ c)

theorem places_rmw (p : Word) (msk v : Byte) : Places Positioned (rmw p msk v) :=
  (places_readByteAt p).positionsAgain (fun _ =>
    places_inOrder_opens (places_setCursorAddress p) (by simpa using ⟨places_beginWrite, places_writeData _⟩))

theorem places_writeRepeated (n : Nat) (p : Byte) : Places Streamed (writeRepeated n p) := by
  induction n with
  | zero => exact places_skip.streamed_of_drew
  | succ n ih => exact places_inOrder_streams (by simpa using ⟨places_writeData p, ih⟩)

/-! ## Lines and rectangles -/

/-- The body of a horizontal line that opens its own write stream. -/
theorem places_hLineBody (a : Word) (full : Nat) (p : Byte) : Places Drew (hLineBody a full p false) :=
  places_skip.ite (places_inOrder_opens (places_setCursorAddress a)
    (by simpa using ⟨places_beginWrite, places_writeRepeated full p⟩)).drew_of_positioned

/-- The body that goes on in the write stream of the head. -/
theorem places_hLineBody_streaming (a : Word) (full : Nat) (p : Byte) : Places Streamed (hLineBody a full p true) :=
  places_skip.streamed_of_drew.ite (places_writeRepeated full p)

theorem places_hLineTail (a : Word) (rem : Nat) (p : Byte) : Places Drew (hLineTail a rem p) :=
  places_skip.ite (places_rmw _ _ _).drew_of_positioned

theorem places_hLineFrom (a : Word) (len : Nat) (p : Byte) : Places Drew (hLineFrom a len p false) :=
  places_inOrder_draws (by simpa using ⟨places_hLineBody _ _ p, places_hLineTail _ _ p⟩)

theorem places_hLineFrom_streaming (a : Word) (len : Nat) (p : Byte) : Places Streamed (hLineFrom a len p true) :=
  places_inOrder_streams (by simpa using ⟨places_hLineBody_streaming _ _ p, (places_hLineTail _ _ p).streamed_of_drew⟩)

theorem places_hLine (x y len : Nat) (p : Byte) : Places Drew (hLine x y len p) :=
  places_skip.ite ((places_hLineFrom _ _ p).ite
    (places_inOrder_opens (places_rmw _ _ p) (by simpa using places_hLineFrom_streaming _ _ p)).drew_of_positioned)

theorem places_vLine (x y len : Nat) (c : Colour) : Places Drew (vLine x y len c) :=
  places_forRows (fun _ => (places_pixel _ _ c).drew_of_positioned) 0 len

theorem places_drawPoints (c : Colour) (pts : List (Nat × Nat)) : Places Drew (drawPoints c pts) := by
  induction pts with
  | nil => exact places_skip
  | cons q pts ih => exact places_inOrder_draws (by simpa using ⟨(places_pixel _ _ c).drew_of_positioned, ih⟩)

theorem places_verticalLine (x y0 y1 : Nat) (c : Colour) : Places Drew (verticalLine x y0 y1 c) :=
  .of_state (fun s => vLine x (min y0 y1) ((y1 - y0) + (y0 - y1) + 1) (verticalColour s.par.lineDx0Invert c)) (fun _ => rfl)
    (fun _ => places_vLine _ _ _ _)

theorem places_canonicalLine (x0 y0 x1 y1 : Nat) (c : Colour) : Places Drew (canonicalLine x0 y0 x1 y1 c) :=
  (places_hLine _ _ _ _).ite ((places_verticalLine _ _ _ c).ite (places_drawPoints c _))

theorem places_lineEvents (x0 y0 x1 y1 : Nat) (c : Colour) : Places Drew (lineEvents x0 y0 x1 y1 c) :=
  (places_canonicalLine _ _ _ _ c).ite (places_canonicalLine _ _ _ _ c)

theorem places_onlyIf (b : Bool) {m : Seq Unit} (h : Places Drew m) : Places Drew (onlyIf b m) := h.ite places_skip

theorem places_rectEvents (x y w h : Nat) (c : Colour) : Places Drew (rectEvents x y w h c) :=
  places_skip.ite (places_inOrder_draws (by
    simpa using ⟨places_hLine _ _ _ _, places_onlyIf _ (places_hLine _ _ _ _), places_onlyIf _ (places_vLine _ _ _ c),
      places_onlyIf _ (places_vLine _ _ _ c)⟩))

/-! ## Text -/

theorem places_fold (k : Packer) (value : Byte) (nb : Nat) : Places Streamed (fold k value nb) :=
  ((places_writeData _).streams (fun _ => (places_yield _).streamed_of_drew)).ite (places_yield _).streamed_of_drew

theorem places_foldChunks (cs : List (Byte × Nat)) (k : Packer) : Places Streamed (foldChunks cs k) := by
  induction cs generalizing k with
  | nil => exact (places_yield k).streamed_of_drew
  | cons c cs ih => exact (places_fold _ _ _).streams ih

theorem places_textHead (a : Word) (off : Nat) : Places Grew (textHead a off) :=
  (places_yield _).streamed_of_drew.grew_of_streamed.ite
    ((places_readByteAt a).reads (fun _ => (places_yield _).streamed_of_drew.grew_of_streamed))

theorem places_textTail (k : Packer) : Places Drew (textTail k) := places_skip.ite (places_rmw _ _ _).drew_of_positioned

theorem places_textRow (a : Word) (off : Nat) (cs : List (Byte × Nat)) : Places Positioned (textRow a off cs) :=
  (places_textHead a off).positionsAgain (fun k => places_inOrder_opens (places_setCursorAddress a) (by
    simpa using ⟨places_beginWrite, (places_foldChunks cs k).streams (fun k' => (places_textTail k').streamed_of_drew)⟩))

theorem places_writeRowBytes (rom : Memory) (fp sp : Word) (gw gh r j n : Nat) :
    Places Streamed (writeRowBytes rom fp sp gw gh r j n) := by
  induction n generalizing j with
  | zero => exact places_skip.streamed_of_drew
  | succ n ih => exact places_inOrder_streams (by simpa using ⟨places_writeData _, ih (j + 1)⟩)

theorem places_fastTextRow (rom : Memory) (fp sp : Word) (gw gh r nch : Nat) (a : Word) :
    Places Positioned (fastTextRow rom fp sp gw gh r nch a) :=
  places_inOrder_opens (places_setCursorAddress a) (by simpa using ⟨places_beginWrite, places_writeRowBytes _ _ _ _ _ _ _ _⟩)

theorem places_textEvents (rom : Memory) (fast : Bool) (x y : Nat) (fp sp : Word) (nch : Nat) :
    Places Drew (textEvents rom fast x y fp sp nch) :=
  places_skip.ite ((places_forRows (fun _ => (places_fastTextRow _ _ _ _ _ _ _ _).drew_of_positioned) 0 _).ite
    (places_forRows (fun _ => (places_textRow _ _ _).drew_of_positioned) 0 _))

end Sys2Proof.Machine
end

section
/-! PROOFS. The discipline of NDR and CUR, command by command (R24, R25). -/

namespace Sys2Proof.Machine

variable {s t u : State} {i : Instr}

/-! ## The events of the commands -/

/-- The drawing commands and SETCUR draw, in the sense of `Drew`. -/
theorem places_drawing (rom : Memory) (fast : Bool) (hi : isComposite i = true ∨ ∃ a, i = .setcur a) :
    Places Drew (commandEvents rom fast i) := by
  rcases hi with hi | ⟨a, rfl⟩
  · cases i with
    | init | setcur | wrbegin | wrbyte | rdbegin | rdbyte | bitclr | bitset => cases hi
    | pixclr x y => exact (places_pixel _ _ _).drew_of_positioned
    | pixset x y => exact (places_pixel _ _ _).drew_of_positioned
    | hline x y len pat => exact places_hLine _ _ _ _
    | vline c x y len => exact places_vLine _ _ _ _
    | line c x0 y0 x1 y1 => exact places_lineEvents _ _ _ _ _
    | rect c x y w h => exact places_rectEvents _ _ _ _ _
    | fillrect c x y w h => exact places_forRows (fun _ => places_hLine _ _ _ _) 0 _
    | patfill x y w h pp => exact places_forRows (fun _ => places_hLine _ _ _ _) 0 _
    | text x y fp sp nch => exact places_textEvents _ _ _ _ _ _ _
  · exact (places_setCursorAddress a).drew_of_positioned

/-- CUR follows the events of every command but INIT. -/
theorem places_commandEvents (rom : Memory) (fast : Bool) (hi : i ≠ .init) : Places Grew (commandEvents rom fast i) := by
  have hdrawing (h : isComposite i = true ∨ ∃ a, i = .setcur a) : Places Grew (commandEvents rom fast i) :=
    (places_drawing rom fast h).streamed_of_drew.grew_of_streamed
  cases i with
  | init => exact absurd rfl hi
  | setcur a => exact hdrawing (.inr ⟨a, rfl⟩)
  | wrbegin => exact places_beginWrite.grew_of_streamed
  | wrbyte b => exact (places_writeData b).grew_of_streamed
  | rdbegin => exact places_beginRead
  | rdbyte => exact places_read.grew_of_streamed.reads (fun _ => places_update (fun _ => ⟨rfl, rfl, rfl⟩))
  | bitclr n => exact (places_bitOp n _).grew_of_streamed
  | bitset n => exact (places_bitOp n _).grew_of_streamed
  | pixclr | pixset | hline | vline | line | rect | fillrect | patfill | text => exact hdrawing (.inl rfl)

/-! ## The raw commands -/

/-- CUR stays. -/
def SameCur (s t : State) : Prop := t.cur = s.cur

/-- CUR stays, and NDR is not set anew. -/
def NdrFalls (s t : State) : Prop := t.cur = s.cur ∧ (t.ndr = true → s.ndr = true)

/-- CUR and NDR stay. -/
def SameCurNdr (s t : State) : Prop := t.cur = s.cur ∧ t.ndr = s.ndr

theorem composes_sameCur : Composes SameCur (UnlessFault SameCur) :=
  composes_unlessFault (fun _ => rfl) (fun h k => Eq.trans k h)

theorem composes_ndrFalls : Composes NdrFalls (UnlessFault NdrFalls) :=
  composes_unlessFault (fun _ => ⟨rfl, id⟩) (fun h k => ⟨k.1.trans h.1, fun hu => h.2 (k.2 hu)⟩)

theorem composes_sameCurNdr : Composes SameCurNdr (UnlessFault SameCurNdr) :=
  composes_unlessFault (fun _ => ⟨rfl, rfl⟩) (fun h k => ⟨k.1.trans h.1, k.2.trans h.2⟩)

theorem SameCurNdr.ndrFalls (h : SameCurNdr s t) : NdrFalls s t := ⟨h.1, fun ht => h.2 ▸ ht⟩

theorem Polled.sameCurNdr (h : Polled s t) : SameCurNdr s t := by
  obtain ⟨bs, rfl⟩ := h
  exact ⟨rfl, rfl⟩

theorem Accessed.sameCurNdr {e : Event} (h : Accessed e s t) : SameCurNdr s t := by
  obtain ⟨bs, h⟩ := h
  rw [h]
  exact ⟨rfl, rfl⟩

theorem sameCurNdr_tw (r : Reg) (b : Byte) : Obeys SameCurNdr (UnlessFault SameCurNdr) (tw r b) :=
  ⟨fun h => (tw_done h).sameCurNdr, fun h hf => (tw_stopped h hf).sameCurNdr⟩

theorem sameCurNdr_tr (r : Reg) : Obeys SameCurNdr (UnlessFault SameCurNdr) (tr r) :=
  ⟨fun h => (tr_done h).sameCurNdr, fun h _ => (tr_stopped h).sameCurNdr⟩

theorem sameCurNdr_select (k : Params → Byte) : Obeys SameCurNdr (UnlessFault SameCurNdr) (select k) :=
  obeys_of_state (fun s => tw .command (k s.par)) (fun _ => rfl) (fun _ => sameCurNdr_tw _ _)

theorem sameCurNdr_bitOp (k : Byte) (c : Colour) : Obeys SameCurNdr (UnlessFault SameCurNdr) (bitOp k c) :=
  composes_sameCurNdr.inOrder (by simpa using ⟨sameCurNdr_select _, sameCurNdr_tw _ _⟩)

/-- The dummy read is the one place where a read clears NDR (R123). -/
theorem ndrFalls_beginRead : Obeys NdrFalls (UnlessFault NdrFalls) beginRead := by
  have hselect := (sameCurNdr_select Params.cmdRead).unlessFault SameCurNdr.ndrFalls SameCurNdr.ndrFalls
  have hread := (sameCurNdr_tr .data).unlessFault SameCurNdr.ndrFalls SameCurNdr.ndrFalls
  have hskip := composes_ndrFalls.yield ()
  have hdummy : Obeys NdrFalls (UnlessFault NdrFalls) dummyRead :=
    composes_ndrFalls.inOrder (by
      simpa using ⟨hselect, composes_ndrFalls.andThen hread (fun _ => hskip), obeys_update (fun s => ⟨rfl, nofun⟩)⟩)
  have hneeded : Obeys NdrFalls (UnlessFault NdrFalls) dummyReadIfNeeded :=
    obeys_of_state (fun s => if s.ndr then dummyRead else skip) (fun s => by unfold dummyReadIfNeeded; split <;> rfl)
      (fun s => by split <;> assumption)
  exact composes_ndrFalls.inOrder (by simpa using ⟨hneeded, hselect⟩)

/-- The raw commands that neither position the cursor nor read past it (R24). -/
theorem sameCurNdr_commandEvents (rom : Memory) (fast : Bool) (hc : isComposite i = false) (hi : i ≠ .init) (hr : i ≠ .rdbegin)
    (hs : ∀ a, i ≠ .setcur a) : Obeys SameCurNdr (UnlessFault SameCurNdr) (commandEvents rom fast i) := by
  cases i with
  | init => exact absurd rfl hi
  | rdbegin => exact absurd rfl hr
  | setcur a => exact absurd rfl (hs a)
  | wrbegin => exact sameCurNdr_select _
  | wrbyte b => exact sameCurNdr_tw _ b
  | rdbyte => exact composes_sameCurNdr.readByteEvents (sameCurNdr_tr _) (fun _ _ => ⟨rfl, rfl⟩)
  | bitclr n => exact sameCurNdr_bitOp n _
  | bitset n => exact sameCurNdr_bitOp n _
  | pixclr | pixset | hline | vline | line | rect | fillrect | patfill | text => cases hc

/-- The commands that do not position the cursor (R25). -/
theorem sameCur_commandEvents (rom : Memory) (fast : Bool) (hc : isComposite i = false) (hs : ∀ a, i ≠ .setcur a) :
    Obeys SameCur (UnlessFault SameCur) (commandEvents rom fast i) := by
  by_cases hi : i = .init
  · subst hi
    exact composes_sameCur.initEvents
      ⟨fun h => (tInit_done h).sameCurNdr.1, fun h _ => (tInit_stopped h).sameCurNdr.1⟩
      (fun r b => (sameCurNdr_tw r b).unlessFault And.left And.left) (fun _ => rfl) (fun _ => rfl)
  by_cases hr : i = .rdbegin
  · subst hr
    exact ndrFalls_beginRead.unlessFault And.left And.left
  · exact (sameCurNdr_commandEvents rom fast hc hi hr hs).unlessFault And.left And.left

/-! ## The statement -/

/-- NDR after a drawing command, or SETCUR, that ends without an error. -/
theorem drawing_ndr (hi : isComposite i = true ∨ ∃ a, i = .setcur a) (hx : exec i s = .next t) (hidle : t.activity = .idle)
    (ht : t.err = 0) : t.ndr = if (s.eventsSince t).any Event.isWrite then true else s.ndr := by
  obtain ⟨u, hu, htu⟩ := exec_completed hx hidle ht
  have hndr : t.ndr = u.ndr := by rw [htu]
  have htrace : t.trace = u.trace := by rw [htu]
  rcases (places_drawing _ _ hi).ends hu with rfl | ⟨hset, es, htr, hw⟩
  · rw [State.eventsSince_of_append (es := []) (by rw [htrace, List.append_nil])]; exact hndr
  · rw [State.eventsSince_of_append (htrace.trans htr), hw]; exact hndr.trans hset

/-- CUR after a command, by the set-cursor sequences among its events. -/
theorem exec_cursorCut (hi : i ≠ .init) (hx : exec i s = .next t) : CursorCut s t := by
  have hcut := (places_commandEvents s.rom s.par.fastPath8x16 hi).cursor.unlessFault CursorDone.cut id
  obtain ⟨u, hu, ht⟩ := exec_leaves hcut (cursorDone_of_same rfl rfl rfl).cut hx
  rw [ht]
  exact hu

/-- Settles O53: the first three clauses by the commands that keep CUR, NDR or both, the fourth by what drawing routines end with, the last
by the run of set-cursor sequences among the events. -/
theorem dummyReadDiscipline : Obligations.DummyReadDiscipline := by
  unfold Obligations.DummyReadDiscipline
  intro i s t hx
  refine ⟨fun hc hs => ?_, fun hc hi hr hs => ?_, ?_, fun hi hidle herr hs => ?_, fun hp hi => ?_⟩
  · obtain ⟨u, hu, ht⟩ := exec_leaves (sameCur_commandEvents _ _ hc hs) rfl hx
    rw [ht]; exact hu
  · obtain ⟨u, ⟨-, hndr⟩, ht⟩ := exec_leaves (sameCurNdr_commandEvents _ _ hc hi hr hs) ⟨rfl, rfl⟩ hx
    rw [ht]; exact hndr
  · rintro rfl
    obtain ⟨u, ⟨-, hndr⟩, ht⟩ := exec_leaves ndrFalls_beginRead ⟨rfl, id⟩ hx
    rw [ht]; exact hndr
  · exact drawing_ndr hi hx hidle (herr.trans hs)
  · obtain ⟨es, htr, hrun⟩ := exec_cursorCut hi hx
    obtain ⟨whole, cut, hes, hcut, hwhole⟩ := hrun hp
    rw [State.eventsSince_of_append htr, hes]
    exact ⟨fun a => hwhole.eq_of_last hp hcut, hwhole.eq_of_no_setCursor⟩

end Sys2Proof.Machine
end

section
/-! PROOFS. The raw commands one at a time (R128 to R134): what each leaves on a ready sequencer, and when raw data is out of order. -/

namespace Sys2Proof.Machine

variable {s t : State} {i : Instr}

/-! ## A command that passes its checks -/

theorem State.ready.distinct (h : s.ready) : s.par.distinct := h.2.1

theorem State.ready.noWait (h : s.ready) : s.noWait := h.2.2

/-- A command whose checks hold, on a sequencer that is initialised, comes to what its events come to. -/
theorem State.ready.runs (h : s.ready) (hi : i ≠ .init) (hc : firstError (commandChecks s i) = none) :
    exec i s = endCommand (encode i).length (commandEvents s.rom s.par.fastPath8x16 i s) := by
  obtain ⟨hinited, -, -⟩ := h
  rw [exec_eq_runCommand, runCommand_runs (by simp [hinited, hi]) hc]

/-- Such a command whose events run to their end (R27). -/
theorem State.ready.completes (h : s.ready) (hi : i ≠ .init) (hc : firstError (commandChecks s i) = none)
    (ht : commandEvents s.rom s.par.fastPath8x16 i s = .done () t) :
    exec i s = .next { t with cp := t.cp + (encode i).length, activity := .idle } := by
  rw [h.runs hi hc, ht]
  rfl

/-! ## The raw commands on a ready sequencer -/

/-- SETCUR (R128). -/
theorem exec_setcur (h : s.ready) (a : Word) :
    exec (.setcur a) s = .next
      { s with
        cp := s.cp + 3, cur := a, ndr := true, activity := .idle, trace := s.trace ++ setCursorTrace s.par a,
        dev := { s.dev with dc := a, ir := some s.par.cmdCurHi } } :=
  h.completes (i := .setcur a) nofun rfl (setCursorAddress_noWait h.noWait h.distinct a)

/-- WRBEGIN (R129). -/
theorem exec_wrbegin (h : s.ready) :
    exec .wrbegin s = .next
      { s with
        cp := s.cp + 1, activity := .idle, trace := s.trace ++ beginWriteTrace s.par,
        dev := { s.dev with ir := some s.par.cmdWrite } } :=
  h.completes (i := .wrbegin) nofun rfl (beginWrite_noWait h.noWait)

/-- WRBYTE to a device command that takes the byte (R130). -/
theorem exec_wrbyte (h : s.ready) {k b : Byte} {d : Device} (hk : s.dev.ir = some k) (hd : s.dev.writeData s.par k b = some d) :
    exec (.wrbyte b) s = .next
      { s with cp := s.cp + 2, activity := .idle, trace := s.trace ++ [.write .data b], dev := d } :=
  h.completes (i := .wrbyte b) nofun rfl (tw_data_noWait h.noWait hk hd)

/-- RDBEGIN (R131). -/
theorem exec_rdbegin (h : s.ready) :
    exec .rdbegin s = .next
      { s with
        cp := s.cp + 1, ndr := false, activity := .idle, trace := s.trace ++ beginReadTrace s.par s.ndr s.dev.latch,
        dev :=
          { s.dev with
            ir := some s.par.cmdRead,
            latch := if s.ndr then s.dev.mem.read s.dev.dc else s.dev.latch,
            dc := if s.ndr then s.dev.dc + 1 else s.dev.dc } } :=
  h.completes (i := .rdbegin) nofun rfl (beginRead_noWait h.noWait)

/-- RDBYTE in an open read stream (R132). -/
theorem exec_rdbyte (h : s.ready) (hir : s.dev.ir = some s.par.cmdRead) :
    exec .rdbyte s = .next
      { s with
        cp := s.cp + 1, activity := .idle, resp := s.resp ++ [s.dev.latch],
        trace := s.trace ++ [.read .data s.dev.latch],
        dev := { s.dev with latch := s.dev.mem.read s.dev.dc, dc := s.dev.dc + 1 } } :=
  h.completes (i := .rdbyte) nofun rfl (by rw [commandEvents, readByteEvents, andThen_done (readData_noWait h.noWait hir)]; rfl)

/-- The bit command of a colour (R133, R134). -/
def bitCommand (n : Byte) : Colour → Instr
  | .white => .bitclr n
  | .black => .bitset n

/-- BITCLR and BITSET of a legal bit index (R133, R134). -/
theorem exec_bitCommand (h : s.ready) {n : Byte} (hn : bitIndexLegal n) (c : Colour) :
    exec (bitCommand n c) s = .next
      { s with
        cp := s.cp + 2, activity := .idle, trace := s.trace ++ bitOpTrace s.par n c,
        dev :=
          { s.dev with
            ir := some (bitOpCommand c s.par),
            mem := s.dev.mem.write s.dev.dc (bitOpByte (s.dev.mem.read s.dev.dc) n c), dc := s.dev.dc + 1 } } := by
  have hc : firstError (bitIndexChecks n) = none := by simp [bitIndexChecks, firstError, hn]
  cases c with
  | white => exact h.completes (i := .bitclr n) nofun hc (bitOp_noWait h.noWait h.distinct n .white)
  | black => exact h.completes (i := .bitset n) nofun hc (bitOp_noWait h.noWait h.distinct n .black)

/-! ## The statements -/

/-- One byte written is stored, and only there. -/
theorem storesOnly_of_write {a : Word} {v : Byte} (h : t.dev.mem = s.dev.mem.write a v) : StoresOnly s t a v := by
  refine ⟨by rw [h, Memory.read_write_same], fun b hb => ?_⟩
  rw [h, Memory.readAt_write, if_neg (Ne.symm hb)]

/-- Settles O21: the write command stores the byte at the device cursor. -/
theorem wrbyteStores : Obligations.WrbyteStores := by
  unfold Obligations.WrbyteStores
  intro b s h hir
  exact ⟨_, exec_wrbyte h hir (Device.writeData_write h.distinct s.dev b), rfl, storesOnly_of_write rfl⟩

/-- Data for a byte that is none of the device commands: taken by a MODE_SETUP byte, without effect, and by no other (R66). -/
theorem Device.writeData_unknown {p : Params} {k : Byte} (hk : k ∉ p.deviceCommands) (d : Device) (v : Byte) :
    d.writeData p k v = if k ∈ p.modeSetup.map Prod.fst then some d else none := by
  simp only [Params.deviceCommands, List.mem_cons, List.not_mem_nil, or_false, not_or] at hk
  obtain ⟨hlo, hhi, hwrite, -, hclr, hset⟩ := hk
  rw [writeData, if_neg hlo, if_neg hhi, if_neg hwrite, if_neg hset, if_neg hclr]

/-- Data for the read command, where it is no MODE_SETUP byte (R66). -/
theorem Device.writeData_read {p : Params} (hp : p.distinct) (hm : p.cmdRead ∉ p.modeSetup.map Prod.fst) (d : Device) (v : Byte) :
    d.writeData p p.cmdRead v = none := by
  simp only [Params.distinct, Params.deviceCommands, List.nodup_cons, List.mem_cons, List.not_mem_nil, or_false, not_or] at hp
  obtain ⟨⟨-, -, hlo, -, -⟩, ⟨-, hhi, -, -⟩, ⟨hwrite, -, -⟩, ⟨hclr, hset⟩, -, -⟩ := hp
  rw [writeData, if_neg (Ne.symm hlo), if_neg (Ne.symm hhi), if_neg (Ne.symm hwrite), if_neg hset, if_neg hclr, if_neg hm]

/-- Settles O22, by the device command selected; distinct commands exclude the other clauses. -/
theorem wrbyteToTheSelectedCommand : Obligations.WrbyteToTheSelectedCommand := by
  unfold Obligations.WrbyteToTheSelectedCommand
  intro b k s h hir hk
  have hp := h.distinct
  have hne := hp
  simp only [Params.distinct, Params.deviceCommands, List.nodup_cons, List.mem_cons, List.not_mem_nil, or_false, not_or] at hne
  obtain ⟨⟨hlohi, -, -, hloclr, hloset⟩, ⟨-, -, hhiclr, hhiset⟩, -, -, hclrset, -⟩ := hne
  rcases hk with hk | ⟨hk, hm⟩
  · have hmem : k ∈ s.par.deviceCommands := by
      simp only [List.mem_cons, List.not_mem_nil, or_false] at hk
      simp only [Params.deviceCommands, List.mem_cons, List.not_mem_nil, or_false]
      tauto
    simp only [List.mem_cons, List.not_mem_nil, or_false] at hk
    rcases hk with rfl | rfl | rfl | rfl
    · exact ⟨_, exec_wrbyte h hir (Device.writeData_curLo s.dev b), rfl, fun _ => rfl, fun e => absurd e hlohi,
        fun e => absurd e hloset, fun e => absurd e hloclr, fun e => absurd hmem e⟩
    · exact ⟨_, exec_wrbyte h hir (Device.writeData_curHi hp s.dev b), rfl, fun e => absurd e.symm hlohi, fun _ => rfl,
        fun e => absurd e hhiset, fun e => absurd e hhiclr, fun e => absurd hmem e⟩
    · exact ⟨_, exec_wrbyte h hir (Device.writeData_bitSet hp s.dev b), rfl, fun e => absurd e.symm hloset,
        fun e => absurd e.symm hhiset, fun _ => ⟨rfl, storesOnly_of_write rfl⟩, fun e => absurd e.symm hclrset,
        fun e => absurd hmem e⟩
    · exact ⟨_, exec_wrbyte h hir (Device.writeData_bitClr hp s.dev b), rfl, fun e => absurd e.symm hloclr,
        fun e => absurd e.symm hhiclr, fun e => absurd e hclrset, fun _ => ⟨rfl, storesOnly_of_write rfl⟩,
        fun e => absurd hmem e⟩
  · have hne (c : Byte) (hc : c ∈ s.par.deviceCommands) : k ≠ c := fun e => hk (e ▸ hc)
    exact ⟨_, exec_wrbyte h hir ((Device.writeData_unknown hk s.dev b).trans (if_pos hm)), rfl,
      fun e => absurd e (hne _ (by simp [Params.deviceCommands])), fun e => absurd e (hne _ (by simp [Params.deviceCommands])),
      fun e => absurd e (hne _ (by simp [Params.deviceCommands])), fun e => absurd e (hne _ (by simp [Params.deviceCommands])),
      fun _ => rfl⟩

/-- Settles O23: the device has no meaning for the byte, or for the read. -/
theorem rawDataOutOfOrderFaults : Obligations.RawDataOutOfOrderFaults := by
  unfold Obligations.RawDataOutOfOrderFaults
  constructor
  · intro b s h hir
    have hnone : s.dev.write s.par .data b = none := by
      rcases hir with hir | ⟨k, hir, hm, hk⟩
      · simp only [Device.write, hir]
      · simp only [Device.write, hir]
        rcases hk with rfl | hk
        · exact Device.writeData_read h.distinct hm s.dev b
        · rw [Device.writeData_unknown hk, if_neg hm]
    rw [h.runs (i := .wrbyte b) nofun rfl, commandEvents, writeData, tw, andThen_done (waitBusy_noWait h.noWait), writeTransaction, hnone]
    rfl
  · intro s h hir
    have hread : readData s = .stopped (.fault .dataReadNoMeaning) s := by
      rw [readData, tr, andThen_done (waitBusy_noWait h.noWait), readTransaction, Device.read, if_neg hir]
      rfl
    rw [h.runs (i := .rdbyte) nofun rfl, commandEvents, readByteEvents, andThen_stopped hread]
    rfl

/-- The bit of a legal index is that of the byte itself. -/
theorem bitOf_legal {n : Byte} (hn : bitIndexLegal n) : bitOf n = (1 : Byte) <<< n.toNat := by
  rw [bitOf, Nat.mod_eq_of_lt hn]

/-- Settles O25: the bit operation of each colour on the byte at the device cursor. -/
theorem bitCommandsComplete : Obligations.BitCommandsComplete := by
  unfold Obligations.BitCommandsComplete
  intro n s h hn
  rw [← bitOf_legal hn]
  exact ⟨⟨_, exec_bitCommand h hn .white, rfl, storesOnly_of_write rfl⟩,
    ⟨_, exec_bitCommand h hn .black, rfl, storesOnly_of_write rfl⟩⟩

end Sys2Proof.Machine
end

section
/-! PROOFS. Streams of raw commands (R68, R122, R123, R266): a run of RDBYTEs answers consecutive bytes, a run of WRBYTEs stores them. -/

namespace Sys2Proof.Machine

variable {s t u : State}

theorem execAll_cons_of_next {i : Instr} {is : List Instr} (h : exec i s = .next t) : execAll (i :: is) s = execAll is t := by
  simp only [execAll, h]

theorem execAll_append_of_next {is js : List Instr} (h : execAll is s = .next t) : execAll (is ++ js) s = execAll js t := by
  induction is generalizing s with
  | nil => cases h; rfl
  | cons i is ih =>
    simp only [execAll] at h
    split at h
    · rename_i u hu
      rw [List.cons_append, execAll_cons_of_next hu, ih h]
    · cases h
    · cases h

theorem Word.add_ofNat_succ (p : Word) (j : Nat) : p + BitVec.ofNat 16 (j + 1) = p + BitVec.ofNat 16 j + 1 := by
  rw [BitVec.ofNat_add, ← BitVec.add_assoc]
  rfl

/-! ## Reading -/

/-- `j` bytes from `p` on have been answered since `s`, and the read stream is open at the next one: it stands in the latch, and the device
cursor is one ahead (R68). -/
structure ReadStream (s : State) (p : Word) (j : Nat) (t : State) : Prop where
  ready : t.ready
  ir : t.dev.ir = some t.par.cmdRead
  mem : t.dev.mem = s.dev.mem
  latch : t.dev.latch = s.dev.mem.read (p + BitVec.ofNat 16 j)
  dc : t.dev.dc = p + BitVec.ofNat 16 j + 1
  ndr : t.ndr = false
  cur : t.cur = p
  resp : t.resp = s.resp ++ (List.range j).map (fun i => s.dev.mem.read (p + BitVec.ofNat 16 i))

variable {p : Word} {j : Nat}

/-- SETCUR `p` and RDBEGIN open the read stream at `p`: the dummy read loads the latch. -/
theorem execAll_opens_readStream (h : s.ready) (p : Word) : ∃ t, execAll [.setcur p, .rdbegin] s = .next t ∧ ReadStream s p 0 t := by
  rw [execAll_cons_of_next (exec_setcur h p), execAll_cons_of_next (exec_rdbegin (by exact h))]
  exact ⟨_, rfl, h, rfl, rfl, by simp, by simp, rfl, rfl, by simp⟩

/-- RDBEGIN in an open read stream with NDR 0 changes nothing in the device (R123). -/
theorem ReadStream.rdbegin (h : ReadStream s p j t) : ∃ u, exec .rdbegin t = .next u ∧ ReadStream s p j u :=
  ⟨_, exec_rdbegin h.ready,
    { ready := h.ready
      ir := rfl
      mem := h.mem
      latch := by simpa [h.ndr] using h.latch
      dc := by simpa [h.ndr] using h.dc
      ndr := rfl
      cur := h.cur
      resp := h.resp }⟩

/-- RDBYTE answers the next byte (R132). -/
theorem ReadStream.rdbyte (h : ReadStream s p j t) : ∃ u, exec .rdbyte t = .next u ∧ ReadStream s p (j + 1) u :=
  ⟨_, exec_rdbyte h.ready h.ir,
    { ready := h.ready
      ir := h.ir
      mem := h.mem
      latch := by simp only [h.mem, h.dc, Word.add_ofNat_succ]
      dc := by simp only [h.dc, Word.add_ofNat_succ]
      ndr := h.ndr
      cur := h.cur
      resp := by simp only [h.resp, h.latch, List.range_succ, List.map_append, List.map_cons, List.map_nil, List.append_assoc] }⟩

theorem ReadStream.rdbytes (h : ReadStream s p j t) (k : Nat) :
    ∃ u, execAll (List.replicate k .rdbyte) t = .next u ∧ ReadStream s p (j + k) u := by
  induction k generalizing j t with
  | zero => exact ⟨t, rfl, h⟩
  | succ k ih =>
    obtain ⟨v, hv, hv'⟩ := h.rdbyte
    obtain ⟨u, hu, hu'⟩ := ih hv'
    refine ⟨u, ?_, by rwa [Nat.add_right_comm] at hu'⟩
    rw [List.replicate_succ, execAll_cons_of_next hv, hu]

/-- Settles O26: the read stream through SETCUR, RDBEGIN, RDBYTEs, RDBEGIN and RDBYTEs. -/
theorem rawReadReturnsTheBytes : Obligations.RawReadReturnsTheBytes := by
  unfold Obligations.RawReadReturnsTheBytes
  intro p k m s h
  obtain ⟨t₀, h₀, r₀⟩ := execAll_opens_readStream h p
  obtain ⟨t₁, h₁, r₁⟩ := r₀.rdbytes k
  obtain ⟨t₂, h₂, r₂⟩ := r₁.rdbegin
  obtain ⟨t, ht, r⟩ := r₂.rdbytes m
  rw [Nat.zero_add] at r
  have hrun : execAll ([.setcur p, .rdbegin] ++ List.replicate k .rdbyte ++ [.rdbegin] ++ List.replicate m .rdbyte) s = .next t := by
    rw [List.append_assoc, List.append_assoc, execAll_append_of_next h₀, execAll_append_of_next h₁, List.singleton_append,
      execAll_cons_of_next h₂, ht]
  exact ⟨t, hrun, r.resp, r.dc, r.ndr, r.cur, fun a => by rw [r.mem]⟩

/-! ## Writing -/

/-- A write stream is open at the device cursor (R63). -/
structure WriteStream (s : State) : Prop where
  ready : s.ready
  ir : s.dev.ir = some s.par.cmdWrite

theorem Word.toNat_ne_of_lt {j k : Nat} (p : Word) (hj : j < 65536) (hk : k < 65536) (h : j ≠ k) :
    (p + BitVec.ofNat 16 j).toNat ≠ (p + BitVec.ofNat 16 k).toNat := by
  simp only [BitVec.toNat_add, BitVec.toNat_ofNat]
  omega

/-- WRBYTEs in an open write stream store their bytes from the device cursor on, nothing else, and leave NDR, CUR and RESP (R63, R130). -/
theorem WriteStream.wrbytes (h : WriteStream s) (bs : List Byte) (hlen : bs.length ≤ 65536) :
    ∃ t, execAll (bs.map .wrbyte) s = .next t ∧
      (∀ j b, bs[j]? = some b → t.dev.mem.read (s.dev.dc + BitVec.ofNat 16 j) = b) ∧
      (∀ a : Nat, (∀ j < bs.length, a ≠ (s.dev.dc + BitVec.ofNat 16 j).toNat) → t.dev.mem.readAt a = s.dev.mem.readAt a) ∧
      t.dev.dc = s.dev.dc + BitVec.ofNat 16 bs.length ∧ t.ndr = s.ndr ∧ t.cur = s.cur ∧ t.resp = s.resp := by
  induction bs generalizing s with
  | nil => exact ⟨s, rfl, by simp, fun _ _ => rfl, by simp, rfl, rfl, rfl⟩
  | cons b bs ih =>
    rw [List.length_cons] at hlen
    have hb := exec_wrbyte h.ready h.ir (Device.writeData_write h.ready.distinct s.dev b)
    obtain ⟨t, ht, hbytes, hframe, hdc, hndr, hcur, hresp⟩ := ih (s := { s with
      cp := s.cp + 2, activity := .idle, trace := s.trace ++ [.write .data b], dev := s.dev.store b }) ⟨h.ready, h.ir⟩ (by omega)
    have hshift (j : Nat) : s.dev.dc + 1 + BitVec.ofNat 16 j = s.dev.dc + BitVec.ofNat 16 (j + 1) := by
      rw [Word.add_ofNat_succ, add_right_comm]
    simp only [Device.store_mem, Device.store_dc, hshift] at hbytes hframe hdc
    refine ⟨t, by rw [List.map_cons, execAll_cons_of_next hb, ht], fun j c hj => ?_, fun a ha => ?_, hdc, hndr, hcur, hresp⟩
    · cases j with
      | zero =>
        have hfirst := hframe s.dev.dc.toNat (fun j hj => by
          simpa using Word.toNat_ne_of_lt s.dev.dc (j := 0) (k := j + 1) (by omega) (by omega) (by omega))
        rw [Memory.readAt_write, if_pos rfl] at hfirst
        simp only [List.getElem?_cons_zero, Option.some.injEq] at hj
        rw [← hj, Memory.read, BitVec.add_zero]
        exact hfirst
      | succ j => exact hbytes j c (by simpa using hj)
    · rw [hframe a (fun j hj => ha (j + 1) (by simpa using hj)), Memory.readAt_write,
        if_neg (by simpa using (ha 0 (by simp)).symm)]

/-- Settles O27: SETCUR and WRBEGIN open a write stream at `p`. -/
theorem rawWriteFills : Obligations.RawWriteFills := by
  unfold Obligations.RawWriteFills
  intro p bs s h hlen
  rw [List.cons_append, List.singleton_append, execAll_cons_of_next (exec_setcur h p), execAll_cons_of_next (exec_wrbegin (by exact h))]
  exact WriteStream.wrbytes (by exact ⟨h, rfl⟩) bs hlen

end Sys2Proof.Machine
end

section
/-! PROOFS. The transport of a command: the device is what the events make of it (R51, R78), and which events a command can issue (R52, R53,
R56, R100). -/

namespace Sys2Proof.Machine

variable {s t : State} {i : Instr}

/-- Settles O60: the trace a command appends accounts for the device. -/
theorem theTraceDeterminesTheDevice : Obligations.TheTraceDeterminesTheDevice := by
  unfold Obligations.TheTraceDeterminesTheDevice
  intro i s t hx
  obtain ⟨-, -, es, htr, hdev, -⟩ := exec_ran hx
  rw [State.eventsSince_of_append htr, hdev]

/-! ## Permitted events -/

/-- The events of a piece of a command that writes only the bytes `cs` to the Command register, and issues INIT only when `init` says so. -/
def Permitted (p : Params) (cs : List Byte) (init : Bool) : Event → Prop
  | .write .command b => b ∈ cs
  | .write .data _ => True
  | .read .data _ => True
  | .read .command _ => False
  | .init => init = true
  | .busy _ => p.waitBusy = true

/-- Only permitted events are issued. -/
def Speaks (cs : Params → List Byte) (init : Bool) (s t : State) : Prop :=
  t.par = s.par ∧ ∃ es, t.trace = s.trace ++ es ∧ ∀ e ∈ es, Permitted s.par (cs s.par) init e

variable {cs : Params → List Byte} {init : Bool}

theorem Speaks.of_same (hpar : t.par = s.par) (htr : t.trace = s.trace) : Speaks cs init s t := ⟨hpar, [], by simp [htr], by simp⟩

theorem Speaks.of_event {e : Event} (hpar : t.par = s.par) (htr : t.trace = s.trace ++ [e]) (he : Permitted s.par (cs s.par) init e) :
    Speaks cs init s t := ⟨hpar, [e], htr, by simpa using he⟩

theorem composes_speaks : Composes (Speaks cs init) (UnlessFault (Speaks cs init)) := by
  refine composes_unlessFault (fun _ => .of_same rfl rfl) ?_
  rintro s t u ⟨hpar, es, htr, hes⟩ ⟨kpar, fs, ktr, hfs⟩
  rw [hpar] at hfs
  exact ⟨kpar.trans hpar, es ++ fs, by rw [ktr, htr, List.append_assoc], fun e he => (List.mem_append.1 he).elim (hes e) (hfs e)⟩

/-- A piece that keeps to the permitted events, however it ends. -/
abbrev Speaking (cs : Params → List Byte) (init : Bool) {α : Type} (m : Seq α) : Prop :=
  Obeys (Speaks cs init) (UnlessFault (Speaks cs init)) m

/-! ## The transport operations -/

/-- Polls come only from a busy-wait that is made (R56). -/
theorem speaking_waitBusy : Speaking cs init waitBusy := by
  have hpolled {s t : State} (hw : s.par.waitBusy = true) (h : Polled s t) : Speaks cs init s t := by
    obtain ⟨bs, rfl⟩ := h
    exact ⟨rfl, _, rfl, fun e he => by obtain ⟨b, -, rfl⟩ := List.mem_map.1 he; exact hw⟩
  constructor
  · intro s t a h
    cases hw : s.par.waitBusy with
    | false => rw [waitBusy_noWait hw] at h; cases h; exact .of_same rfl rfl
    | true => exact hpolled hw (obeys_waitBusy.done h)
  · intro s t e h _
    cases hw : s.par.waitBusy with
    | false => rw [waitBusy_noWait hw] at h; cases h
    | true => exact hpolled hw (obeys_waitBusy.stopped h)

theorem speaking_writeTransaction {r : Reg} {b : Byte} (h : ∀ p, Permitted p (cs p) init (.write r b)) :
    Speaking cs init (writeTransaction r b) := by
  constructor
  · intro s t a ht
    unfold writeTransaction at ht
    split at ht <;> cases ht
    exact .of_event rfl rfl (h _)
  · intro s t e ht hf
    unfold writeTransaction at ht
    split at ht <;> cases ht
    exact absurd rfl (hf _)

theorem speaking_readTransaction : Speaking cs init (readTransaction .data) := by
  constructor
  · intro s t a ht
    unfold readTransaction at ht
    split at ht <;> cases ht
    exact .of_event rfl rfl trivial
  · intro s t e ht hf
    unfold readTransaction at ht
    split at ht <;> cases ht
    exact absurd rfl (hf _)

theorem speaking_tw {r : Reg} {b : Byte} (h : ∀ p, Permitted p (cs p) init (.write r b)) : Speaking cs init (tw r b) :=
  composes_speaks.andThen speaking_waitBusy (fun _ => speaking_writeTransaction h)

theorem speaking_data (b : Byte) : Speaking cs init (tw .data b) := speaking_tw (fun _ => trivial)

theorem speaking_command {b : Byte} {ks : List Byte} (h : b ∈ ks) : Speaking (fun _ => ks) init (tw .command b) :=
  speaking_tw (fun _ => h)

theorem speaking_read : Speaking cs init (tr .data) :=
  composes_speaks.andThen speaking_waitBusy (fun _ => speaking_readTransaction)

theorem speaking_tInit : Speaking cs true tInit := by
  refine composes_speaks.andThen speaking_waitBusy (fun _ => ⟨?_, nofun⟩)
  rintro s _ _ ⟨⟩
  exact .of_event rfl rfl rfl

theorem speaking_registerUpdate {f : State → State} (h : RegisterUpdate f) : Speaking cs init (update f) :=
  obeys_update (fun s => by cases h <;> exact .of_same rfl rfl)

/-! ## The commands -/

theorem speaking_select {k : Params → Byte} (hk : ∀ p : Params, k p ∈ p.deviceCommands) :
    Speaking Params.deviceCommands init (select k) where
  done := fun {s _ _} h => (speaking_command (hk s.par)).done h
  stopped := fun {s _ _} h => (speaking_command (hk s.par)).stopped h

/-- An assembled piece writes only device commands to the Command register, and never issues INIT. -/
theorem Assembled.speaking {α : Type} {m : Seq α} (h : Assembled m) : Speaking Params.deviceCommands init m := by
  induction h with
  | yield a => exact composes_speaks.yield a
  | andThen _ _ ihm ihf => exact composes_speaks.andThen ihm ihf
  | select k hk _ => exact speaking_select hk
  | data b => exact speaking_data b
  | read => exact speaking_read
  | update hf => exact speaking_registerUpdate hf
  | @ifNdr m _ ih =>
    refine obeys_of_state (fun s => if s.ndr then m else skip) (fun s => by split <;> rfl) (fun s => ?_)
    split
    · exact ih
    · exact composes_speaks.yield ()
  | ofPar g _ _ ih => exact obeys_of_state (fun s => g s.par) (fun _ => rfl) (fun s => ih s.par)

theorem speaking_sendModeSetup {l : List (Byte × Byte)} {ks : List Byte} (hl : ∀ kd ∈ l, kd.1 ∈ ks) :
    Speaking (fun _ => ks) true (sendModeSetup l) := by
  induction l with
  | nil => exact composes_speaks.yield ()
  | cons kd l ih =>
    have hk := speaking_command (init := true) (hl kd (by simp))
    exact composes_speaks.inOrder (by simpa using ⟨hk, speaking_data kd.2, ih (fun x hx => hl x (by simp [hx]))⟩)

/-- The bytes INIT may write to the Command register (R127). -/
def modeSetupCommands (p : Params) : List Byte := p.modeSetup.map Prod.fst

theorem speaking_modeSetup : Speaking modeSetupCommands true modeSetup where
  done := fun {s _ _} h =>
    (speaking_sendModeSetup (ks := modeSetupCommands s.par) (fun _ hkd => List.mem_map_of_mem hkd)).done h
  stopped := fun {s _ _} h =>
    (speaking_sendModeSetup (ks := modeSetupCommands s.par) (fun _ hkd => List.mem_map_of_mem hkd)).stopped h

theorem speaking_initEvents : Speaking modeSetupCommands true initEvents :=
  composes_speaks.inOrder (by
    simpa using ⟨speaking_tInit, speaking_modeSetup,
      obeys_update (fun _ => .of_same rfl rfl), obeys_update (fun _ => .of_same rfl rfl)⟩)

/-- Every command but INIT. -/
theorem speaking_commandEvents (rom : Memory) (fast : Bool) (hi : i ≠ .init) :
    Speaking Params.deviceCommands false (commandEvents rom fast i) := by
  by_cases hr : i = .rdbyte
  · subst hr
    exact composes_speaks.andThen speaking_read (fun _ => obeys_update (fun _ => .of_same rfl rfl))
  · exact (assembled_commandEvents rom fast i hi hr).speaking

theorem exec_speaks {cs : Params → List Byte} {init : Bool} (h : Speaking cs init (commandEvents s.rom s.par.fastPath8x16 i))
    (hx : exec i s = .next t) : ∀ e ∈ s.eventsSince t, Permitted s.par (cs s.par) init e := by
  obtain ⟨u, ⟨-, es, htr, hes⟩, ht⟩ := exec_leaves h (.of_same rfl rfl) hx
  rwa [State.eventsSince_of_append (show t.trace = s.trace ++ es by rw [ht]; exact htr)]

/-- Settles O52: INIT writes the command bytes of MODE_SETUP, every other command device commands. -/
theorem transportProtocol : Obligations.TransportProtocol := by
  unfold Obligations.TransportProtocol
  intro i s t hx e he
  by_cases hi : i = .init
  · subst hi
    have hp := exec_speaks speaking_initEvents hx e he
    exact ⟨fun b hb => by subst hb; exact hp, fun b hb => by subst hb; exact hp, fun _ => rfl, fun b hb => by subst hb; exact hp⟩
  · have hp := exec_speaks (speaking_commandEvents _ _ hi) hx e he
    exact ⟨fun b hb => by subst hb; rw [if_neg hi]; exact hp, fun b hb => by subst hb; exact hp,
      fun hb => by subst hb; exact absurd hp Bool.false_ne_true, fun b hb => by subst hb; exact hp⟩

end Sys2Proof.Machine
end

section
/-! PROOFS. The order in which the drawing commands use the transport (R67, R265): the cursor is positioned before each access, a write or
a read stream is open before its data. A fact about all drawing commands is one induction over this predicate. -/

namespace Sys2Proof.Machine

/-- What a drawing routine may rely on between two helper procedures. -/
inductive Phase where
  /-- Nothing. -/
  | any
  /-- A set-cursor sequence has just ended (R121). -/
  | positioned
  /-- A write stream is open behind a set-cursor sequence (R122). -/
  | writing
  /-- A read stream is open behind a set-cursor sequence and its dummy read (R123). -/
  | reading

/-- A piece that is assembled from the helper procedures in the order of R100: it relies on the first phase and ends in the second. -/
inductive Orderly : Phase → Phase → {α : Type} → Seq α → Prop
  | yield {φ : Phase} {α : Type} (a : α) : Orderly φ φ (yield a)
  | andThen {φ ψ χ : Phase} {α β : Type} {m : Seq α} {f : α → Seq β} :
      Orderly φ ψ m → (∀ a, Orderly ψ χ (f a)) → Orderly φ χ (andThen m f)
  | setCursor (v : Word) : Orderly .any .positioned (setCursorAddress v)
  | beginWrite : Orderly .positioned .writing beginWrite
  | writeData (b : Byte) : Orderly .writing .writing (writeData b)
  | bitOp (k : Byte) (c : Colour) : Orderly .positioned .any (bitOp k c)
  | beginRead : Orderly .positioned .reading beginRead
  | readData : Orderly .reading .reading readData
  | weaken {φ ψ : Phase} {α : Type} {m : Seq α} : Orderly .any ψ m → Orderly φ ψ m
  | forget {φ ψ : Phase} {α : Type} {m : Seq α} : Orderly φ ψ m → Orderly φ .any m
  | ofPar {φ ψ : Phase} {α : Type} (g : Params → Seq α) (hw : ∀ p b, g (setWait p b) = g p) (h : ∀ p, Orderly φ ψ (g p)) :
      Orderly φ ψ (fun s => g s.par s)

section combinators

variable {φ ψ χ : Phase} {α : Type}

theorem orderly_skip : Orderly φ φ skip := .yield ()

theorem orderly_inOrder_cons {m : Seq Unit} {ms : List (Seq Unit)} (hm : Orderly φ ψ m) (hms : Orderly ψ χ (inOrder ms)) :
    Orderly φ χ (inOrder (m :: ms)) := .andThen hm (fun _ => hms)

theorem orderly_inOrder_one {m : Seq Unit} (hm : Orderly φ ψ m) : Orderly φ ψ (inOrder [m]) :=
  orderly_inOrder_cons hm orderly_skip

theorem orderly_ite {c : Prop} [Decidable c] {m n : Seq α} (hm : Orderly φ ψ m) (hn : Orderly φ ψ n) :
    Orderly φ ψ (if c then m else n) := by
  split
  · exact hm
  · exact hn

theorem orderly_forRows {body : Nat → Seq Unit} (h : ∀ k, Orderly .any .any (body k)) (k n : Nat) :
    Orderly .any .any (forRows body k n) := by
  induction n generalizing k with
  | zero => exact orderly_skip
  | succ n ih => exact orderly_inOrder_cons (h k) (orderly_inOrder_one (ih (k + 1)))

end combinators

/-! ## The helper procedures -/

theorem orderly_pixel (px py : Nat) (c : Colour) : Orderly .any .any (pixel px py c) :=
  orderly_inOrder_cons (.setCursor _) (orderly_inOrder_one (.bitOp _ c))

theorem orderly_readByteAt (p : Word) : Orderly .any .reading (readByteAt p) :=
  .andThen (orderly_inOrder_cons (.setCursor p) (orderly_inOrder_one .beginRead)) (fun _ => .readData)

theorem orderly_rmw (p : Word) (msk v : Byte) : Orderly .any .writing (rmw p msk v) :=
  .andThen (orderly_readByteAt p) (fun _ => orderly_inOrder_cons (.weaken (.setCursor p))
    (orderly_inOrder_cons .beginWrite (orderly_inOrder_one (.writeData _))))

theorem orderly_writeRepeated (n : Nat) (p : Byte) : Orderly .writing .writing (writeRepeated n p) := by
  induction n with
  | zero => exact orderly_skip
  | succ n ih => exact orderly_inOrder_cons (.writeData p) (orderly_inOrder_one ih)

/-! ## Lines and rectangles -/

/-- The body of a horizontal line that opens its own write stream. -/
theorem orderly_hLineBody (a : Word) (full : Nat) (p : Byte) : Orderly .any .any (hLineBody a full p false) :=
  orderly_ite orderly_skip (.forget (orderly_inOrder_cons (.setCursor a)
    (orderly_inOrder_cons .beginWrite (orderly_inOrder_one (orderly_writeRepeated full p)))))

/-- The body that goes on in the write stream of the head. -/
theorem orderly_hLineBody_streaming (a : Word) (full : Nat) (p : Byte) : Orderly .writing .writing (hLineBody a full p true) :=
  orderly_ite orderly_skip (orderly_writeRepeated full p)

theorem orderly_hLineTail (a : Word) (rem : Nat) (p : Byte) : Orderly .any .any (hLineTail a rem p) :=
  orderly_ite orderly_skip (.forget (orderly_rmw _ _ _))

theorem orderly_hLine (x y len : Nat) (p : Byte) : Orderly .any .any (hLine x y len p) :=
  orderly_ite orderly_skip (orderly_ite
    (orderly_inOrder_cons (orderly_hLineBody _ _ p) (orderly_inOrder_one (orderly_hLineTail _ _ p)))
    (orderly_inOrder_cons (orderly_rmw _ _ p) (orderly_inOrder_one
      (orderly_inOrder_cons (orderly_hLineBody_streaming _ _ p) (orderly_inOrder_one (.weaken (orderly_hLineTail _ _ p)))))))

theorem orderly_vLine (x y len : Nat) (c : Colour) : Orderly .any .any (vLine x y len c) :=
  orderly_forRows (fun _ => orderly_pixel _ _ c) 0 len

theorem orderly_drawPoints (c : Colour) (pts : List (Nat × Nat)) : Orderly .any .any (drawPoints c pts) := by
  induction pts with
  | nil => exact orderly_skip
  | cons q pts ih => exact orderly_inOrder_cons (orderly_pixel _ _ c) (orderly_inOrder_one ih)

theorem orderly_canonicalLine (x0 y0 x1 y1 : Nat) (c : Colour) : Orderly .any .any (canonicalLine x0 y0 x1 y1 c) :=
  orderly_ite (orderly_hLine _ _ _ _) (orderly_ite
    (.ofPar (fun p => vLine x0 (min y0 y1) ((y1 - y0) + (y0 - y1) + 1) (verticalColour p.lineDx0Invert c)) (fun _ _ => rfl)
      (fun _ => orderly_vLine _ _ _ _))
    (orderly_drawPoints c _))

theorem orderly_lineEvents (x0 y0 x1 y1 : Nat) (c : Colour) : Orderly .any .any (lineEvents x0 y0 x1 y1 c) :=
  orderly_ite (orderly_canonicalLine _ _ _ _ c) (orderly_canonicalLine _ _ _ _ c)

theorem orderly_onlyIf (b : Bool) {m : Seq Unit} (h : Orderly .any .any m) : Orderly .any .any (onlyIf b m) :=
  orderly_ite h orderly_skip

theorem orderly_rectEvents (x y w h : Nat) (c : Colour) : Orderly .any .any (rectEvents x y w h c) :=
  orderly_ite orderly_skip (orderly_inOrder_cons (orderly_hLine _ _ _ _)
    (orderly_inOrder_cons (orderly_onlyIf _ (orderly_hLine _ _ _ _))
      (orderly_inOrder_cons (orderly_onlyIf _ (orderly_vLine _ _ _ c))
        (orderly_inOrder_one (orderly_onlyIf _ (orderly_vLine _ _ _ c))))))

/-! ## Text -/

theorem orderly_foldChunks (cs : List (Byte × Nat)) (k : Packer) : Orderly .writing .writing (foldChunks cs k) := by
  induction cs generalizing k with
  | nil => exact .yield k
  | cons c cs ih => exact .andThen (orderly_ite (.andThen (.writeData _) (fun _ => .yield _)) (.yield _)) ih

theorem orderly_textHead (a : Word) (off : Nat) : Orderly .any .any (textHead a off) :=
  orderly_ite (.yield _) (.forget (.andThen (orderly_readByteAt a) (fun _ => .yield _)))

theorem orderly_textTail (k : Packer) : Orderly .any .any (textTail k) := orderly_ite orderly_skip (.forget (orderly_rmw _ _ _))

theorem orderly_textRow (a : Word) (off : Nat) (cs : List (Byte × Nat)) : Orderly .any .any (textRow a off cs) :=
  .andThen (orderly_textHead a off) (fun k => orderly_inOrder_cons (.setCursor a) (orderly_inOrder_cons .beginWrite
    (orderly_inOrder_one (.andThen (orderly_foldChunks cs k) (fun k' => .weaken (orderly_textTail k'))))))

theorem orderly_writeRowBytes (rom : Memory) (fp sp : Word) (gw gh r j n : Nat) :
    Orderly .writing .writing (writeRowBytes rom fp sp gw gh r j n) := by
  induction n generalizing j with
  | zero => exact orderly_skip
  | succ n ih => exact orderly_inOrder_cons (.writeData _) (orderly_inOrder_one (ih (j + 1)))

theorem orderly_fastTextRow (rom : Memory) (fp sp : Word) (gw gh r nch : Nat) (a : Word) :
    Orderly .any .any (fastTextRow rom fp sp gw gh r nch a) :=
  .forget (orderly_inOrder_cons (.setCursor a)
    (orderly_inOrder_cons .beginWrite (orderly_inOrder_one (orderly_writeRowBytes _ _ _ _ _ _ _ _))))

theorem orderly_textEvents (rom : Memory) (fast : Bool) (x y : Nat) (fp sp : Word) (nch : Nat) :
    Orderly .any .any (textEvents rom fast x y fp sp nch) :=
  orderly_ite orderly_skip (orderly_ite (orderly_forRows (fun _ => orderly_fastTextRow _ _ _ _ _ _ _ _) 0 _)
    (orderly_forRows (fun _ => orderly_textRow _ _ _) 0 _))

/-! ## The commands -/

/-- The drawing commands and SETCUR rely on nothing that an earlier command left (R265). -/
theorem orderly_drawing (rom : Memory) (fast : Bool) {i : Instr} (hi : isComposite i = true ∨ ∃ a, i = .setcur a) :
    Orderly .any .any (commandEvents rom fast i) := by
  rcases hi with hi | ⟨a, rfl⟩
  · cases i with
    | init | setcur | wrbegin | wrbyte | rdbegin | rdbyte | bitclr | bitset => cases hi
    | pixclr x y => exact orderly_pixel _ _ _
    | pixset x y => exact orderly_pixel _ _ _
    | hline x y len pat => exact orderly_hLine _ _ _ _
    | vline c x y len => exact orderly_vLine _ _ _ _
    | line c x0 y0 x1 y1 => exact orderly_lineEvents _ _ _ _ _
    | rect c x y w h => exact orderly_rectEvents _ _ _ _ _
    | fillrect c x y w h => exact orderly_forRows (fun _ => orderly_hLine _ _ _ _) 0 _
    | patfill x y w h pp => exact orderly_forRows (fun _ => orderly_hLine _ _ _ _) 0 _
    | text x y fp sp nch => exact orderly_textEvents _ _ _ _ _ _ _
  · exact .forget (.setCursor a)

end Sys2Proof.Machine
end

section
/-! PROOFS. No command but WRBYTE and RDBYTE faults (R66, R265): each selects, before it sends or reads data, a device command that takes
the access. Neither distinct device commands nor the absence of busy-waits is needed. -/

namespace Sys2Proof.Machine

variable {s t : State} {α β : Type}

/-- A piece that does not fault from a state with `P`, and ends in one with `Q`. -/
structure Faultless (P Q : State → Prop) (m : Seq α) : Prop where
  done : ∀ {s t : State} {a : α}, P s → m s = .done a t → Q t
  noFault : ∀ {s t : State} {f : Fault}, P s → m s ≠ .stopped (.fault f) t

section closure

variable {P Q R : State → Prop}

theorem Faultless.andThen {m : Seq α} {f : α → Seq β} (hm : Faultless P Q m) (hf : ∀ a, Faultless Q R (f a)) :
    Faultless P R (andThen m f) where
  done := by
    intro s t b hs h
    obtain ⟨a, u, hu, ht⟩ := (andThen_eq_done_iff _ _ _ _ _).1 h
    exact (hf a).done (hm.done hs hu) ht
  noFault := by
    intro s t f hs h
    rcases (andThen_eq_stopped_iff _ _ _ _ _).1 h with h | ⟨a, u, hu, ht⟩
    · exact hm.noFault hs h
    · exact (hf a).noFault (hm.done hs hu) ht

theorem Faultless.mono {P' Q' : State → Prop} {m : Seq α} (h : Faultless P Q m) (hP : ∀ {s}, P' s → P s)
    (hQ : ∀ {s}, Q s → Q' s) : Faultless P' Q' m := ⟨fun hs hm => hQ (h.done (hP hs) hm), fun hs => h.noFault (hP hs)⟩

theorem faultless_yield (a : α) : Faultless P P (yield a) := ⟨fun hs h => by cases h; exact hs, nofun⟩

theorem faultless_update (f : State → State) : Faultless P (fun _ => True) (update f) := ⟨fun _ _ => trivial, nofun⟩

theorem Faultless.cons {m : Seq Unit} {ms : List (Seq Unit)} (hm : Faultless P Q m) (hms : Faultless Q R (inOrder ms)) :
    Faultless P R (inOrder (m :: ms)) := hm.andThen (fun _ => hms)

theorem Faultless.one {m : Seq Unit} (hm : Faultless P Q m) : Faultless P Q (inOrder [m]) := hm.cons (faultless_yield ())

end closure

/-! ## The transport operations -/

theorem waitBusy_ne_fault (f : Fault) : waitBusy s ≠ .stopped (.fault f) t := by
  intro h
  simp only [waitBusy] at h
  split at h
  · split at h <;> cases h
  · cases h

/-- A busy-wait leaves the parameters and the device. -/
theorem waitBusy_done {a : Unit} (h : waitBusy s = .done a t) : t.par = s.par ∧ t.dev = s.dev := by
  obtain ⟨bs, rfl⟩ := obeys_waitBusy.done h
  exact ⟨rfl, rfl⟩

/-- A device command that takes data: a cursor byte, a stored byte, a bit, or the data of a MODE_SETUP pair (R62 to R64, R66). -/
def TakesData (p : Params) (k : Byte) : Prop :=
  k ∈ [p.cmdCurLo, p.cmdCurHi, p.cmdWrite, p.cmdBitSet, p.cmdBitClr] ∨ k ∈ p.modeSetup.map Prod.fst

theorem TakesData.writeData {p : Params} {k : Byte} (h : TakesData p k) (d : Device) (v : Byte) :
    ∃ d', d.writeData p k v = some d' := by
  unfold Device.writeData
  split; · exact ⟨_, rfl⟩
  split; · exact ⟨_, rfl⟩
  split; · exact ⟨_, rfl⟩
  split; · exact ⟨_, rfl⟩
  split; · exact ⟨_, rfl⟩
  split; · exact ⟨_, rfl⟩
  rename_i hlo hhi hwrite hset hclr hmode
  simp [TakesData, hlo, hhi, hwrite, hset, hclr] at h
  simp [h] at hmode

/-- Device command `k` is selected. -/
def Selected (k : Params → Byte) (s : State) : Prop := s.dev.ir = some (k s.par)

variable {P : State → Prop} {k : Params → Byte}

theorem tw_command_done {b : Byte} {a : Unit} (h : tw .command b s = .done a t) : t.par = s.par ∧ t.dev.ir = some b := by
  obtain ⟨_, u, hu, ht⟩ := (andThen_eq_done_iff _ _ _ _ _).1 h
  cases ht
  exact ⟨(waitBusy_done hu).1, rfl⟩

theorem tw_command_ne_fault {b : Byte} (f : Fault) : tw .command b s ≠ .stopped (.fault f) t := by
  intro h
  rcases (andThen_eq_stopped_iff _ _ _ _ _).1 h with h | ⟨_, u, -, ht⟩
  · exact waitBusy_ne_fault f h
  · cases ht

/-- A data write that has a meaning keeps the selection. -/
theorem Device.write_data_ir {p : Params} {d d' : Device} {v : Byte} (h : d.write p .data v = some d') : d'.ir = d.ir := by
  rcases Device.write_cases h with ⟨hr, -⟩ | ⟨-, rfl | rfl | ⟨b, rfl⟩ | rfl⟩
  · cases hr
  all_goals rfl

theorem tw_data_done {b : Byte} {a : Unit} (h : tw .data b s = .done a t) : t.par = s.par ∧ t.dev.ir = s.dev.ir := by
  obtain ⟨_, u, hu, ht⟩ := (andThen_eq_done_iff _ _ _ _ _).1 h
  obtain ⟨hpar, hdev⟩ := waitBusy_done hu
  unfold writeTransaction at ht
  split at ht <;> cases ht
  rename_i d hd
  exact ⟨hpar, by rw [← hdev]; exact Device.write_data_ir hd⟩

theorem tw_data_ne_fault {b c : Byte} (hir : s.dev.ir = some c) (hc : TakesData s.par c) (f : Fault) :
    tw .data b s ≠ .stopped (.fault f) t := by
  intro h
  rcases (andThen_eq_stopped_iff _ _ _ _ _).1 h with h | ⟨_, u, hu, ht⟩
  · exact waitBusy_ne_fault f h
  · obtain ⟨hpar, hdev⟩ := waitBusy_done hu
    obtain ⟨d, hd⟩ := hc.writeData s.dev b
    simp [writeTransaction, hpar, hdev, Device.write, hir, hd] at ht

theorem faultless_select : Faultless P (Selected k) (select k) where
  done := fun _ h => by
    obtain ⟨hpar, hir⟩ := tw_command_done h
    rw [Selected, hpar, hir]
  noFault := fun _ => tw_command_ne_fault _

theorem faultless_data (hk : ∀ p, TakesData p (k p)) (b : Byte) : Faultless (Selected k) (Selected k) (tw .data b) where
  done := fun hs h => by
    obtain ⟨hpar, hir⟩ := tw_data_done h
    rw [Selected, hpar, hir, hs]
  noFault := fun hs => tw_data_ne_fault hs (hk _) _

theorem faultless_read : Faultless (Selected Params.cmdRead) (Selected Params.cmdRead) (tr .data) where
  done := fun hs h => by
    obtain ⟨_, u, hu, ht⟩ := (andThen_eq_done_iff _ _ _ _ _).1 h
    obtain ⟨hpar, hdev⟩ := waitBusy_done hu
    unfold readTransaction at ht
    split at ht <;> cases ht
    rename_i d hd
    obtain ⟨-, hir, -, rfl⟩ := Device.read_cases hd
    exact hir
  noFault := fun {s _ _} hs h => by
    rcases (andThen_eq_stopped_iff _ _ _ _ _).1 h with h | ⟨_, u, hu, ht⟩
    · exact waitBusy_ne_fault _ h
    · obtain ⟨hpar, hdev⟩ := waitBusy_done hu
      have hir : s.dev.ir = some s.par.cmdRead := hs
      simp [readTransaction, hpar, hdev, Device.read, hir] at ht

/-! ## The helper procedures -/

theorem faultless_setCursorAddress (v : Word) : Faultless P (fun _ => True) (setCursorAddress v) :=
  faultless_select.cons ((faultless_data (fun _ => .inl (by simp)) _).cons (faultless_select.cons
    ((faultless_data (fun _ => .inl (by simp)) _).cons ((faultless_update _).cons (faultless_update _).one))))

theorem faultless_beginWrite : Faultless P (Selected Params.cmdWrite) beginWrite := faultless_select

theorem faultless_writeData (b : Byte) : Faultless (Selected Params.cmdWrite) (Selected Params.cmdWrite) (writeData b) :=
  faultless_data (fun _ => .inl (by simp)) b

theorem faultless_bitOp (b : Byte) (c : Colour) : Faultless P (fun _ => True) (bitOp b c) :=
  faultless_select.cons ((faultless_data (fun _ => .inl (by cases c <;> simp [bitOpCommand])) b).mono id (fun _ => trivial)).one

theorem faultless_dummyReadIfNeeded : Faultless P (fun _ => True) dummyReadIfNeeded := by
  have hdummy : Faultless P (fun _ => True) dummyRead :=
    faultless_select.cons ((faultless_read.andThen (fun _ => faultless_yield ())).cons (faultless_update _).one)
  constructor
  · intro s t a _ _
    trivial
  · intro s t f hs h
    unfold dummyReadIfNeeded at h
    split at h
    · exact hdummy.noFault hs h
    · cases h

theorem faultless_beginRead : Faultless P (Selected Params.cmdRead) beginRead := faultless_dummyReadIfNeeded.cons faultless_select.one

/-! ## The drawing commands -/

/-- What a phase means for the selected device command. -/
def Phase.selection : Phase → State → Prop
  | .any => fun _ => True
  | .positioned => fun _ => True
  | .writing => Selected Params.cmdWrite
  | .reading => Selected Params.cmdRead

theorem Orderly.faultless {φ ψ : Phase} {m : Seq α} (h : Orderly φ ψ m) : Faultless φ.selection ψ.selection m := by
  induction h with
  | yield a => exact faultless_yield a
  | andThen _ _ ihm ihf => exact ihm.andThen ihf
  | setCursor v => exact faultless_setCursorAddress v
  | beginWrite => exact faultless_beginWrite
  | writeData b => exact faultless_writeData b
  | bitOp b c => exact faultless_bitOp b c
  | beginRead => exact faultless_beginRead
  | readData => exact faultless_read
  | weaken _ ih => exact ih.mono (fun _ => trivial) id
  | forget _ ih => exact ih.mono id (fun _ => trivial)
  | ofPar g _ _ ih => exact ⟨fun hs h => (ih _).done hs h, fun hs h => (ih _).noFault hs h⟩

/-! ## INIT -/

/-- The pairs of MODE_SETUP: the reference device takes the data of each (log entry 7). -/
theorem sendModeSetup_ne_fault {l : List (Byte × Byte)} (hl : ∀ kd ∈ l, kd ∈ s.par.modeSetup) (f : Fault) :
    sendModeSetup l s ≠ .stopped (.fault f) t := by
  induction l generalizing s with
  | nil => nofun
  | cons kd l ih =>
    intro h
    rcases (inOrder_cons_eq_stopped_iff _ _ _ _ _).1 h with h | ⟨u, hu, h⟩
    · exact tw_command_ne_fault f h
    obtain ⟨hpar, hir⟩ := tw_command_done hu
    rcases (inOrder_cons_eq_stopped_iff _ _ _ _ _).1 h with h | ⟨v, hv, h⟩
    · exact tw_data_ne_fault hir (.inr (hpar ▸ List.mem_map_of_mem (hl kd (by simp)))) f h
    obtain ⟨hpar', -⟩ := tw_data_done hv
    rcases (inOrder_cons_eq_stopped_iff _ _ _ _ _).1 h with h | ⟨w, -, h⟩
    · exact ih (fun x hx => by rw [hpar', hpar]; exact hl x (by simp [hx])) h
    · cases h

theorem faultless_tInit : Faultless P (fun _ => True) tInit where
  done := fun _ _ => trivial
  noFault := by
    intro s t f _ h
    rcases (andThen_eq_stopped_iff _ _ _ _ _).1 h with h | ⟨_, u, -, ht⟩
    · exact waitBusy_ne_fault f h
    · cases ht

theorem faultless_initEvents : Faultless (fun _ => True) (fun _ => True) initEvents :=
  have hmode : Faultless (fun _ => True) (fun _ => True) modeSetup :=
    ⟨fun _ _ => trivial, fun _ => sendModeSetup_ne_fault (fun _ h => h) _⟩
  faultless_tInit.cons (hmode.cons ((faultless_update _).cons (faultless_update _).one))

/-! ## The statement -/

theorem faultless_commandEvents (rom : Memory) (fast : Bool) {i : Instr} (hw : ∀ b, i ≠ .wrbyte b) (hr : i ≠ .rdbyte) :
    Faultless (fun _ => True) (fun _ => True) (commandEvents rom fast i) := by
  cases i with
  | init => exact faultless_initEvents
  | wrbegin => exact faultless_beginWrite.mono id (fun _ => trivial)
  | wrbyte b => exact absurd rfl (hw b)
  | rdbegin => exact faultless_beginRead.mono id (fun _ => trivial)
  | rdbyte => exact absurd rfl hr
  | bitclr n => exact faultless_bitOp n _
  | bitset n => exact faultless_bitOp n _
  | setcur a => exact faultless_setCursorAddress a
  | pixclr | pixset | hline | vline | line | rect | fillrect | patfill | text =>
    exact (orderly_drawing rom fast (.inl rfl)).faultless

/-- A command whose events do not fault answers a next state. -/
theorem exec_next_of_ne_fault {i : Instr} (h : ∀ f t, commandEvents s.rom s.par.fastPath8x16 i s ≠ .stopped (.fault f) t) :
    ∃ t, exec i s = .next t := by
  rw [exec_eq_runCommand]
  by_cases hi : decide (i = .init) = s.inited
  · exact ⟨_, runCommand_illegal hi⟩
  cases hc : firstError (commandChecks s i) with
  | some e => exact ⟨_, runCommand_raises hi hc⟩
  | none =>
    rw [runCommand_runs hi hc]
    cases he : commandEvents s.rom s.par.fastPath8x16 i s with
    | done a u => exact ⟨_, rfl⟩
    | stopped e u =>
      cases e with
      | raise e => exact ⟨_, rfl⟩
      | hang => exact ⟨_, rfl⟩
      | fault f => exact absurd he (h f u)

/-- Settles O54: the events of every other command are faultless. -/
theorem onlyRawDataCanFault : Obligations.OnlyRawDataCanFault := by
  unfold Obligations.OnlyRawDataCanFault
  intro i s hw hr
  exact exec_next_of_ne_fault (fun _ _ => (faultless_commandEvents _ _ hw hr).noFault trivial)

end Sys2Proof.Machine
end

section
/-! PROOFS. The wait before the first event of a command (R56, R235, R249): a piece of a command issues nothing and changes nothing, or it
stops where its first busy-wait does. -/

namespace Sys2Proof.Machine

variable {s t u : State} {α β : Type}

/-- Nothing is done, with or without the busy-waits. -/
def Silent (m : Seq α) (s : State) : Prop := ∃ a, m s = .done a s ∧ m s.withoutWait = .done a s.withoutWait

/-- Where the first busy-wait stops, the piece stops. -/
def StopsInWait (m : Seq α) (s : State) : Prop := ∀ e u, waitBusy s = .stopped e u → m s = .stopped e u

/-- A piece that does nothing before its first busy-wait. -/
def WaitsFirst (m : Seq α) : Prop := ∀ s, Silent m s ∨ StopsInWait m s

theorem StopsInWait.andThen {m : Seq α} {f : α → Seq β} (h : StopsInWait m s) : StopsInWait (andThen m f) s :=
  fun e u hw => andThen_stopped (h e u hw)

theorem stopsInWait_tw (r : Reg) (b : Byte) : StopsInWait (tw r b) s := fun _ _ hw => andThen_stopped hw

theorem stopsInWait_select (k : Params → Byte) : StopsInWait (select k) s := stopsInWait_tw _ _

theorem waitsFirst_yield (a : α) : WaitsFirst (yield a) := fun _ => .inl ⟨a, rfl, rfl⟩

theorem WaitsFirst.andThen {m : Seq α} {f : α → Seq β} (hm : WaitsFirst m) (hf : ∀ a, WaitsFirst (f a)) :
    WaitsFirst (andThen m f) := by
  intro s
  rcases hm s with ⟨a, ha, ha'⟩ | hstop
  · rcases hf a s with ⟨b, hb, hb'⟩ | hstop
    · exact .inl ⟨b, by rw [andThen_done ha, hb], by rw [andThen_done ha', hb']⟩
    · exact .inr (fun e u hw => by rw [andThen_done ha, hstop e u hw])
  · exact .inr hstop.andThen

/-! ## The helper procedures and the commands -/

theorem waitsFirst_select (k : Params → Byte) : WaitsFirst (select k) := fun _ => .inr (stopsInWait_select k)

theorem waitsFirst_data (b : Byte) : WaitsFirst (tw .data b) := fun _ => .inr (stopsInWait_tw _ b)

theorem waitsFirst_readData : WaitsFirst readData := fun _ => .inr (fun _ _ hw => andThen_stopped hw)

theorem waitsFirst_bitOp (k : Byte) (c : Colour) : WaitsFirst (bitOp k c) := fun _ => .inr (stopsInWait_select _).andThen

theorem waitsFirst_beginRead : WaitsFirst beginRead := by
  have hneeded : WaitsFirst dummyReadIfNeeded := by
    intro s
    by_cases hn : s.ndr = true
    · have hdummy : dummyReadIfNeeded s = dummyRead s := if_pos hn
      exact .inr (fun e u hw => by rw [hdummy]; exact (stopsInWait_select _).andThen e u hw)
    · exact .inl ⟨(), if_neg hn, if_neg hn⟩
  exact hneeded.andThen (fun _ => (waitsFirst_select _).andThen (fun _ => waitsFirst_yield ()))

theorem Orderly.waitsFirst {φ ψ : Phase} {m : Seq α} (h : Orderly φ ψ m) : WaitsFirst m := by
  induction h with
  | yield a => exact waitsFirst_yield a
  | andThen _ _ ihm ihf => exact ihm.andThen ihf
  | setCursor v => exact fun _ => .inr (stopsInWait_select _).andThen
  | beginWrite => exact waitsFirst_select _
  | writeData b => exact waitsFirst_data b
  | bitOp k c => exact waitsFirst_bitOp k c
  | beginRead => exact waitsFirst_beginRead
  | readData => exact waitsFirst_readData
  | weaken _ ih => exact ih
  | forget _ ih => exact ih
  | ofPar g hw _ ih =>
    intro s
    rcases ih s.par s with ⟨a, ha, ha'⟩ | hstop
    · exact .inl ⟨a, ha, (congrFun (hw s.par false) s.withoutWait).trans ha'⟩
    · exact .inr hstop

theorem waitsFirst_commandEvents (rom : Memory) (fast : Bool) (i : Instr) : WaitsFirst (commandEvents rom fast i) := by
  cases i with
  | init => exact fun _ => .inr (StopsInWait.andThen (fun _ _ hw => andThen_stopped hw))
  | setcur a => exact (orderly_drawing rom fast (.inr ⟨a, rfl⟩)).waitsFirst
  | wrbegin => exact waitsFirst_select _
  | wrbyte b => exact waitsFirst_data b
  | rdbegin => exact waitsFirst_beginRead
  | rdbyte => exact fun _ => .inr (StopsInWait.andThen (fun _ _ hw => andThen_stopped hw))
  | bitclr n => exact waitsFirst_bitOp n _
  | bitset n => exact waitsFirst_bitOp n _
  | pixclr | pixset | hline | vline | line | rect | fillrect | patfill | text =>
    exact (orderly_drawing rom fast (.inl rfl)).waitsFirst

/-- The checks do not depend on WAIT_BUSY. -/
theorem commandChecks_withoutWait (s : State) (i : Instr) : commandChecks s.withoutWait i = commandChecks s i := by
  cases i <;> rfl

/-- A command that issues an event without busy-waits stops where its first busy-wait does. -/
theorem exec_stopsInWait {i : Instr} {e : Halt} (ht : exec i s.withoutWait = .next t) (htr : t.trace ≠ s.trace)
    (hw : waitBusy s = .stopped e u) : exec i s = endCommand (encode i).length (.stopped e u) := by
  rw [exec_eq_runCommand] at ht ⊢
  rw [commandChecks_withoutWait] at ht
  rcases runCommand_next ht with ⟨e, rfl⟩ | ⟨hi, hc, hends⟩
  · exact absurd rfl htr
  rw [runCommand_runs (s := s) hi hc]
  rcases waitsFirst_commandEvents s.rom s.par.fastPath8x16 i s with ⟨a, -, hsilent⟩ | hstop
  · rcases hends with ⟨v, hv, rfl⟩ | ⟨e, v, hv, -⟩ | ⟨v, hv, -⟩
    · cases hsilent.symm.trans hv
      exact absurd rfl htr
    · cases hsilent.symm.trans hv
    · cases hsilent.symm.trans hv
  · rw [hstop e u hw]

/-! ## The busy-wait that stops -/

/-- `n` busy answers with `polls` before them reach a limit of `polls + n` (R56). -/
theorem pollBusy_timedOut (rest : Bool) (polls n : Nat) (hn : 0 < n) (later : List Bool) :
    pollBusy (some (polls + n)) rest polls (List.replicate n true ++ later) = ⟨List.replicate n true, later, .timedOut⟩ := by
  induction n generalizing polls with
  | zero => cases hn
  | succ n ih =>
    rw [List.replicate_succ, List.cons_append, pollBusy]
    cases n with
    | zero => exact if_pos rfl
    | succ n =>
      have hlimit : polls + (n + 1 + 1) = polls + 1 + (n + 1) := by omega
      rw [if_neg (by simp), hlimit, ih (polls + 1) (Nat.succ_pos n)]

theorem waitBusy_timedOut {N : Nat} {later : List Bool} (hw : s.par.waitBusy = true) (hN : 0 < N) (hl : s.par.busyPollLimit = some N)
    (ha : s.busyAnswers = List.replicate N true ++ later) :
    waitBusy s = .stopped (.raise .timeout)
      { s with busyAnswers := later, trace := s.trace ++ List.replicate N (.busy true) } := by
  have hpoll := pollBusy_timedOut s.busyRest 0 N hN later
  rw [Nat.zero_add] at hpoll
  simp only [waitBusy, if_pos hw, hl, ha, hpoll, List.map_replicate]

theorem waitBusy_hung (hw : s.par.waitBusy = true) (hl : s.par.busyPollLimit = none) (ha : s.busyAnswers = []) (hr : s.busyRest = true) :
    waitBusy s = .stopped .hang s := by
  simp only [waitBusy, if_pos hw, hl, ha, hr, pollBusy, if_true, List.map_nil, List.append_nil]
  rw [← ha, ← hr]

/-- Settles O57: the first busy-wait stops, and with it the command. -/
theorem busyBeforeTheFirstEvent : Obligations.BusyBeforeTheFirstEvent := by
  unfold Obligations.BusyBeforeTheFirstEvent
  intro i s t hw ht htr
  exact ⟨fun N later hN hl ha => exec_stopsInWait ht htr (waitBusy_timedOut hw hN hl ha),
    fun hl ha hr => exec_stopsInWait ht htr (waitBusy_hung hw hl ha hr)⟩

end Sys2Proof.Machine
end

section
/-! PROOFS. Two runs side by side: a piece of a command run from two related states, and what the command then answers. -/

namespace Sys2Proof.Machine

/-- Two runs that end alike: with the same value in states that `S` relates, or stopped for the same reason in states that `E` relates. -/
inductive RunRel (S : State → State → Prop) (E : Halt → State → State → Prop) {α : Type} : Run α → Run α → Prop
  | done {a : α} {t t' : State} : S t t' → RunRel S E (.done a t) (.done a t')
  | stopped {e : Halt} {t t' : State} : E e t t' → RunRel S E (.stopped e t) (.stopped e t')

/-- Run from states that `R` relates, a piece ends alike. -/
def Lockstep (R S : State → State → Prop) (E : Halt → State → State → Prop) {α : Type} (m : Seq α) : Prop :=
  ∀ s s', R s s' → RunRel S E (m s) (m s')

section closure

variable {R S T : State → State → Prop} {E : Halt → State → State → Prop} {α β : Type}

theorem lockstep_yield (a : α) : Lockstep R R E (yield a) := fun _ _ h => .done h

theorem Lockstep.andThen {m : Seq α} {f : α → Seq β} (hm : Lockstep R S E m) (hf : ∀ a, Lockstep S T E (f a)) :
    Lockstep R T E (andThen m f) := by
  intro s s' h
  have hrun := hm s s' h
  revert hrun
  simp only [Machine.andThen]
  generalize m s = r, m s' = r'
  rintro (h | h)
  · exact hf _ _ _ h
  · exact .stopped h

theorem lockstep_update {f : State → State} (h : ∀ s s', R s s' → S (f s) (f s')) : Lockstep R S E (update f) :=
  fun s s' hs => .done (h s s' hs)

theorem Lockstep.cons {m : Seq Unit} {ms : List (Seq Unit)} (hm : Lockstep R S E m) (hms : Lockstep S T E (inOrder ms)) :
    Lockstep R T E (inOrder (m :: ms)) := hm.andThen (fun _ => hms)

theorem Lockstep.one {m : Seq Unit} (hm : Lockstep R S E m) : Lockstep R S E (inOrder [m]) := hm.cons (lockstep_yield ())

theorem lockstep_inOrder {ms : List (Seq Unit)} (h : ∀ m ∈ ms, Lockstep R R E m) : Lockstep R R E (inOrder ms) := by
  induction ms with
  | nil => exact lockstep_yield ()
  | cons m ms ih => exact (h m (by simp)).cons (ih (fun n hn => h n (by simp [hn])))

/-- A piece that is chosen by looking at the state, where both states choose the same. -/
theorem lockstep_of_state {m : Seq α} (g : State → Seq α) (hm : ∀ s, m s = g s s) (hg : ∀ s s', R s s' → g s' = g s)
    (h : ∀ s, Lockstep R S E (g s)) : Lockstep R S E m := by
  intro s s' hs
  rw [hm s, hm s', hg s s' hs]
  exact h s s s' hs

theorem Lockstep.mono {R' S' : State → State → Prop} {E' : Halt → State → State → Prop} {m : Seq α} (h : Lockstep R S E m)
    (hR : ∀ {s s'}, R' s s' → R s s') (hS : ∀ {s s'}, S s s' → S' s s') (hE : ∀ {e s s'}, E e s s' → E' e s s') :
    Lockstep R' S' E' m := by
  intro s s' hs
  have hrun := h s s' (hR hs)
  revert hrun
  generalize m s = r, m s' = r'
  rintro (ht | he)
  · exact .done (hS ht)
  · exact .stopped (hE he)

end closure

/-! ## Commands -/

/-- Two outcomes that agree: next states that `P` relates, or the same fault. -/
inductive OutcomeRel (P : State → State → Prop) : Host.Outcome State Fault Refusal → Host.Outcome State Fault Refusal → Prop
  | next {t t' : State} : P t t' → OutcomeRel P (.next t) (.next t')
  | fault (f : Fault) : OutcomeRel P (.fault f) (.fault f)

theorem OutcomeRel.of_next_left {P : State → State → Prop} {x : Host.Outcome State Fault Refusal} {t : State}
    (h : OutcomeRel P (.next t) x) : ∃ u, x = .next u ∧ P t u := by
  cases h with
  | next h => exact ⟨_, rfl, h⟩

theorem OutcomeRel.of_next_right {P : State → State → Prop} {x : Host.Outcome State Fault Refusal} {t : State}
    (h : OutcomeRel P x (.next t)) : ∃ u, x = .next u ∧ P u t := by
  cases h with
  | next h => exact ⟨_, rfl, h⟩

/-- A relation that the end of a command keeps, however it ends (R27, R236, R249). -/
structure EndsAlike (P : State → State → Prop) : Prop where
  ended : ∀ (len : Nat) {t t' : State}, P t t' →
    P { t with cp := t.cp + len, activity := .idle } { t' with cp := t'.cp + len, activity := .idle }
  raised : ∀ (e : Err) (len : Nat) {t t' : State}, P t t' → P (t.raise e len) (t'.raise e len)
  hung : ∀ {t t' : State}, P t t' → P { t with activity := .busyWait } { t' with activity := .busyWait }

/-- A command from two related states: with the same checks, and events that end alike, it answers alike. -/
theorem exec_alike {P : State → State → Prop} {i : Instr} {s s' : State} (hP : EndsAlike P) (hs : P s s')
    (hin : s'.inited = s.inited) (hc : commandChecks s' i = commandChecks s i)
    (hev : RunRel P (fun e t t' => (∀ f, e ≠ .fault f) → P t t') (commandEvents s.rom s.par.fastPath8x16 i s)
      (commandEvents s'.rom s'.par.fastPath8x16 i s')) : OutcomeRel P (exec i s) (exec i s') := by
  rw [exec_eq_runCommand, exec_eq_runCommand]
  by_cases hi : decide (i = .init) = s.inited
  · rw [runCommand_illegal hi, runCommand_illegal (hi.trans hin.symm)]
    exact .next (hP.raised _ _ hs)
  have hi' : decide (i = .init) ≠ s'.inited := hin ▸ hi
  cases he : firstError (commandChecks s i) with
  | some e =>
    rw [runCommand_raises hi he, runCommand_raises hi' (by rw [hc, he])]
    exact .next (hP.raised _ _ hs)
  | none =>
    rw [runCommand_runs hi he, runCommand_runs hi' (by rw [hc, he])]
    revert hev
    generalize commandEvents s.rom s.par.fastPath8x16 i s = r, commandEvents s'.rom s'.par.fastPath8x16 i s' = r'
    rintro (h | @⟨e, t, t', h⟩)
    · exact .next (hP.ended _ h)
    · cases e with
      | raise e => exact .next (hP.raised _ _ (h nofun))
      | hang => exact .next (hP.hung (h nofun))
      | fault f => exact .fault f

end Sys2Proof.Machine
end

section
/-! PROOFS. The busy-waits of a device that answers "not busy" in the end (R56, R249, R274): a command run with WAIT_BUSY, beside the same
command run without. -/

namespace Sys2Proof.Machine

variable {s s' t t' : State} {tr : List Event} {α : Type}

/-- Every busy-wait ends ready: the answers after the listed ones are "not busy", and no limit strikes within the listed ones. -/
def EndsReady (s : State) : Prop := s.busyRest = false ∧ (s.par.busyPollLimit = none ∨ s.busyAnswers = [])

/-- `s` is `s'` with WAIT_BUSY: the same state but for the busy answers used, and behind the trace `tr` the same events but for polls,
which are one `BUSY=false` before each event where no answer is listed. -/
structure Delayed (tr : List Event) (s s' : State) : Prop where
  waits : s.par.waitBusy = true
  ready : EndsReady s
  same : s' = { s with par := setWait s.par false, trace := s'.trace, busyAnswers := s'.busyAnswers }
  left : s.busyAnswers <:+ s'.busyAnswers
  log : ∃ fs es, s.trace = tr ++ fs ∧ s'.trace = tr ++ es ∧ withoutPolls fs = es ∧ (s'.busyAnswers = [] → fs = withPolls es)

theorem Delayed.par (h : Delayed tr s s') : s'.par = setWait s.par false := by rw [h.same]

theorem Delayed.dev (h : Delayed tr s s') : s'.dev = s.dev := by rw [h.same]

theorem Delayed.ndr (h : Delayed tr s s') : s'.ndr = s.ndr := by rw [h.same]

theorem Delayed.noWait (h : Delayed tr s s') : s'.noWait := by
  rw [State.noWait, h.par]
  rfl

theorem delayed_withoutWait (hw : s.par.waitBusy = true) (hr : EndsReady s) : Delayed s.trace s s.withoutWait where
  waits := hw
  ready := hr
  same := rfl
  left := List.suffix_rfl
  log := ⟨[], [], by simp, by simp [State.withoutWait], rfl, fun _ => rfl⟩

/-- The registers change alike. -/
theorem delayed_registerUpdate {f : State → State} (hf : RegisterUpdate f) (h : Delayed tr s s') : Delayed tr (f s) (f s') := by
  cases hf with
  | cur v => exact { h with same := congrArg (fun u : State => { u with cur := v }) h.same }
  | setNdr => exact { h with same := congrArg State.setDummyReadNeeded h.same }
  | clearNdr => exact { h with same := congrArg State.clearDummyReadNeeded h.same }

theorem delayed_endsAlike : EndsAlike (Delayed tr) where
  ended := fun len _ _ h => { h with same := congrArg (fun u : State => { u with cp := u.cp + len, activity := .idle }) h.same }
  raised := fun e len _ _ h => { h with same := congrArg (State.raise e len) h.same }
  hung := fun h => { h with same := congrArg (fun u : State => { u with activity := .busyWait }) h.same }

/-! ## The busy-wait -/

theorem pollBusy_ready (limit : Option Nat) {rest : Bool} (hrest : rest = false) (polls : Nat) (as : List Bool)
    (h : limit = none ∨ as = []) :
    (pollBusy limit rest polls as).how = .ready ∧ (as = [] → (pollBusy limit rest polls as).polled = [false]) := by
  subst hrest
  induction as generalizing polls with
  | nil => exact ⟨rfl, fun _ => rfl⟩
  | cons a as ih =>
    obtain rfl : limit = none := h.resolve_right nofun
    refine ⟨?_, nofun⟩
    cases a with
    | false => rfl
    | true => exact (ih (polls + 1) (.inl rfl)).1

/-- The busy-wait of a device that ends ready: it polls, and uses up listed answers. -/
theorem waitBusy_ready (hw : s.par.waitBusy = true) (hr : EndsReady s) :
    ∃ bs left, waitBusy s = .done () { s with busyAnswers := left, trace := s.trace ++ bs.map Event.busy } ∧
      left <:+ s.busyAnswers ∧ (s.busyAnswers = [] → bs = [false]) := by
  obtain ⟨hrest, hlimit⟩ := hr
  obtain ⟨hready, hone⟩ := pollBusy_ready s.par.busyPollLimit hrest 0 s.busyAnswers hlimit
  refine ⟨_, (pollBusy s.par.busyPollLimit s.busyRest 0 s.busyAnswers).left, ?_, ?_, hone⟩
  · simp only [waitBusy, if_pos hw, hready]
  · rw [pollBusy_left]
    exact List.drop_suffix _ _

theorem withPolls_concat (es : List Event) (e : Event) : withPolls (es ++ [e]) = withPolls es ++ [.busy false, e] := by
  simp [withPolls]

/-- One event: with WAIT_BUSY behind its polls, without WAIT_BUSY as it is; the device changes alike. -/
theorem Delayed.access (h : Delayed tr s s') {e : Event} (he : e.isPoll = false) (d : Device) {bs left : List Bool}
    (hleft : left <:+ s.busyAnswers) (hone : s.busyAnswers = [] → bs = [false]) :
    Delayed tr { s with busyAnswers := left, trace := s.trace ++ bs.map Event.busy ++ [e], dev := d }
      { s' with trace := s'.trace ++ [e], dev := d } where
  waits := h.waits
  ready := ⟨h.ready.1, h.ready.2.imp_right (fun hnil => List.suffix_nil.1 (by rwa [hnil] at hleft))⟩
  same := congrArg (fun u : State => { u with trace := s'.trace ++ [e], dev := d }) h.same
  left := hleft.trans h.left
  log := by
    obtain ⟨fs, es, hfs, hes, hpolls, hnever⟩ := h.log
    refine ⟨fs ++ bs.map Event.busy ++ [e], es ++ [e], by simp [hfs], by simp [hes], ?_, fun hnil => ?_⟩
    · rw [withoutPolls_append, withoutPolls_append, withoutPolls_polls, hpolls, List.append_nil]
      simp [withoutPolls, he]
    · rw [withPolls_concat, hnever hnil, hone (List.suffix_nil.1 (hnil ▸ h.left))]
      simp

/-! ## The transport operations -/

theorem Device.write_setWait (p : Params) (b : Bool) (d : Device) (r : Reg) (v : Byte) :
    d.write (setWait p b) r v = d.write p r v := rfl

theorem Device.read_setWait (p : Params) (b : Bool) (d : Device) (r : Reg) : d.read (setWait p b) r = d.read p r := rfl

/-- Without a limit that strikes, only faults stop a command. -/
def StopsByFault (e : Halt) (_ _ : State) : Prop := ∃ f, e = .fault f

/-- A piece that WAIT_BUSY only delays. -/
abbrev OnlyDelayed (tr : List Event) (m : Seq α) : Prop := Lockstep (Delayed tr) (Delayed tr) StopsByFault m

theorem onlyDelayed_tw (r : Reg) (b : Byte) : OnlyDelayed tr (tw r b) := by
  intro s s' h
  obtain ⟨bs, left, hwait, hleft, hone⟩ := waitBusy_ready h.waits h.ready
  rw [tw, andThen_done hwait, andThen_done (waitBusy_noWait h.noWait), writeTransaction, writeTransaction]
  simp only [h.dev, h.par, Device.write_setWait]
  cases s.dev.write s.par r b with
  | none => exact .stopped ⟨_, rfl⟩
  | some d => exact .done (h.access rfl d hleft hone)

theorem onlyDelayed_tr (r : Reg) : OnlyDelayed tr (Machine.tr r) := by
  intro s s' h
  obtain ⟨bs, left, hwait, hleft, hone⟩ := waitBusy_ready h.waits h.ready
  rw [Machine.tr, andThen_done hwait, andThen_done (waitBusy_noWait h.noWait), readTransaction, readTransaction]
  simp only [h.dev, h.par, Device.read_setWait]
  cases s.dev.read s.par r with
  | none => exact .stopped ⟨_, rfl⟩
  | some vd => exact .done (h.access rfl vd.2 hleft hone)

theorem onlyDelayed_tInit : OnlyDelayed tr tInit := by
  intro s s' h
  obtain ⟨bs, left, hwait, hleft, hone⟩ := waitBusy_ready h.waits h.ready
  rw [tInit, andThen_done hwait, andThen_done (waitBusy_noWait h.noWait)]
  have hsame : s'.emit .init = { s' with trace := s'.trace ++ [.init], dev := s.dev } := by rw [← h.dev]; rfl
  exact .done (hsame ▸ h.access rfl s.dev hleft hone)

/-! ## The commands -/

theorem onlyDelayed_ofPar {g : Params → Seq α} (hw : ∀ p b, g (setWait p b) = g p) (h : ∀ p, OnlyDelayed tr (g p)) :
    OnlyDelayed tr (fun s => g s.par s) :=
  lockstep_of_state (fun s => g s.par) (fun _ => rfl) (fun s s' hs => by rw [hs.par, hw]) (fun s => h s.par)

theorem Assembled.onlyDelayed {m : Seq α} (h : Assembled m) : OnlyDelayed tr m := by
  induction h with
  | yield a => exact lockstep_yield a
  | andThen _ _ ihm ihf => exact ihm.andThen ihf
  | select k _ hw => exact onlyDelayed_ofPar (g := fun p => tw .command (k p)) (fun p b => by rw [hw]) (fun _ => onlyDelayed_tw _ _)
  | data b => exact onlyDelayed_tw .data b
  | read => exact onlyDelayed_tr .data
  | update hf => exact lockstep_update (fun _ _ => delayed_registerUpdate hf)
  | @ifNdr m _ ih =>
    refine lockstep_of_state (fun s => if s.ndr then m else skip) (fun s => by split <;> rfl) (fun s s' hs => by rw [hs.ndr])
      (fun s => ?_)
    split
    · exact ih
    · exact lockstep_yield ()
  | ofPar g hw _ ih => exact onlyDelayed_ofPar hw ih

theorem onlyDelayed_sendModeSetup (l : List (Byte × Byte)) : OnlyDelayed tr (sendModeSetup l) := by
  induction l with
  | nil => exact lockstep_yield ()
  | cons kd l ih => exact lockstep_inOrder (by simpa using ⟨onlyDelayed_tw _ _, onlyDelayed_tw _ _, ih⟩)

theorem onlyDelayed_initEvents : OnlyDelayed tr initEvents := by
  have hmode : OnlyDelayed tr modeSetup :=
    onlyDelayed_ofPar (g := fun p => sendModeSetup p.modeSetup) (fun _ _ => rfl) (fun _ => onlyDelayed_sendModeSetup _)
  have hndr : OnlyDelayed tr (update State.setDummyReadNeeded) := lockstep_update (fun _ _ => delayed_registerUpdate .setNdr)
  have hinited : OnlyDelayed tr (update (fun s => { s with inited := true })) :=
    lockstep_update (fun _ _ h => { h with same := congrArg (fun u : State => { u with inited := true }) h.same })
  exact lockstep_inOrder (by simpa using ⟨onlyDelayed_tInit, hmode, hndr, hinited⟩)

theorem onlyDelayed_commandEvents (rom : Memory) (fast : Bool) (i : Instr) : OnlyDelayed tr (commandEvents rom fast i) := by
  by_cases hi : i = .init
  · subst hi
    exact onlyDelayed_initEvents
  by_cases hr : i = .rdbyte
  · subst hr
    exact (onlyDelayed_tr .data).andThen (fun b => lockstep_update (fun _ _ h =>
      { h with same := congrArg (fun u : State => { u with resp := u.resp ++ [b] }) h.same }))
  · exact (assembled_commandEvents rom fast i hi hr).onlyDelayed

/-- A command on a device that ends ready, with WAIT_BUSY and without. -/
theorem exec_onlyDelayed (i : Instr) (hw : s.par.waitBusy = true) (hr : EndsReady s) :
    OutcomeRel (Delayed s.trace) (exec i s) (exec i s.withoutWait) := by
  refine exec_alike delayed_endsAlike (delayed_withoutWait hw hr) rfl (commandChecks_withoutWait s i) ?_
  exact (onlyDelayed_commandEvents s.rom s.par.fastPath8x16 i).mono id id (fun ⟨f, hf⟩ hne => absurd hf (hne f)) _ _
    (delayed_withoutWait hw hr)

/-! ## The statements -/

theorem Delayed.eq (h : Delayed tr s s') : s = { s' with par := s.par, trace := s.trace, busyAnswers := s.busyAnswers } := by
  rw [h.same]

/-- Settles O55: no answer is listed, so each wait is one `BUSY=false` poll. -/
theorem neverBusyOnlyAddsPolls : Obligations.NeverBusyOnlyAddsPolls := by
  unfold Obligations.NeverBusyOnlyAddsPolls
  intro i s hw ⟨hnil, hrest⟩
  have h := exec_onlyDelayed i hw ⟨hrest, .inr hnil⟩
  revert h
  generalize hx : exec i s = x, hx' : exec i s.withoutWait = x'
  rintro (@⟨u, t, h⟩ | f)
  · obtain ⟨⟨hpar, -⟩, -, -⟩ := exec_ran hx
    obtain ⟨-, -, _, -, -, hba⟩ := exec_ran hx'
    have htba : t.busyAnswers = [] := by rw [hba, State.withoutWait, hnil, List.drop_nil]
    have huba : u.busyAnswers = t.busyAnswers := by
      have hleft := h.left
      rw [htba] at hleft ⊢
      exact List.suffix_nil.1 hleft
    obtain ⟨fs, es, hfs, hes, -, hnever⟩ := h.log
    dsimp only
    rw [h.eq, hpar, huba, hfs, hnever htba, State.eventsSince_of_append (s := s.withoutWait) hes]
  · rfl

/-- Settles O56: no limit strikes, so each wait ends ready. -/
theorem eventuallyReadyOnlyDelays : Obligations.EventuallyReadyOnlyDelays := by
  unfold Obligations.EventuallyReadyOnlyDelays
  intro i s t hw hlimit hrest ht
  have h := exec_onlyDelayed i hw ⟨hrest, .inl hlimit⟩
  rw [ht] at h
  obtain ⟨u, hx, h⟩ := h.of_next_right
  obtain ⟨⟨hpar, -⟩, -, -⟩ := exec_ran hx
  obtain ⟨-, -, es', htr', -, hba⟩ := exec_ran ht
  obtain ⟨fs, es, hfs, hes, hpolls, -⟩ := h.log
  refine ⟨u, hx, hpar ▸ h.eq, ?_, ?_⟩
  · rw [State.eventsSince_of_append hfs, State.eventsSince_of_append (s := s.withoutWait) hes, hpolls]
  · have hsuffix : t.busyAnswers <:+ s.busyAnswers := by rw [hba]; exact List.drop_suffix _ _
    exact h.left.trans hsuffix

end Sys2Proof.Machine
end

section
/-! PROOFS. The device's history (R67, R265, U6): a drawing command run on two devices with the same memory, side by side. What the two runs
agree on grows with each helper procedure: the cursor once it is positioned, the latch once the discarded read has loaded it. -/

namespace Sys2Proof.Machine

variable {s s' t t' : State} {p : Params} {α : Type}

/-! ## Events with the discarded bytes hidden -/

/-- Whether the next read is a discarded one, after some events (R24, R123). -/
def discardDue (p : Params) : (due : Bool) → List Event → Bool
  | due, [] => due
  | due, .write r b :: es => discardDue p (due || decide (r = .command ∧ b = p.cmdCurHi)) es
  | _, .read _ _ :: es => discardDue p false es
  | due, .init :: es => discardDue p due es
  | due, .busy _ :: es => discardDue p due es

theorem hideDiscarded_append (due : Bool) (es fs : List Event) :
    hideDiscarded p due (es ++ fs) = hideDiscarded p due es ++ hideDiscarded p (discardDue p due es) fs := by
  induction es generalizing due with
  | nil => rfl
  | cons e es ih => cases e <;> simp [hideDiscarded, discardDue, ih]

theorem discardDue_append (due : Bool) (es fs : List Event) :
    discardDue p due (es ++ fs) = discardDue p (discardDue p due es) fs := by
  induction es generalizing due with
  | nil => rfl
  | cons e es ih => cases e <;> simp [discardDue, ih]

theorem discardDue_polls (due : Bool) (bs : List Bool) : discardDue p due (bs.map Event.busy) = due := by
  induction bs with
  | nil => rfl
  | cons b bs ih => exact ih

theorem length_hideDiscarded (due : Bool) (es : List Event) : (hideDiscarded p due es).length = es.length := by
  induction es generalizing due with
  | nil => rfl
  | cons e es ih => cases e <;> simp [hideDiscarded, ih]

theorem filter_isWrite_hideDiscarded (due : Bool) (es : List Event) :
    (hideDiscarded p due es).filter Event.isWrite = es.filter Event.isWrite := by
  induction es generalizing due with
  | nil => rfl
  | cons e es ih => cases e <;> simp [hideDiscarded, Event.isWrite, List.filter_cons, ih]

/-! ## What two devices agree on -/

/-- What is known of two devices, and of whether a discarded read is due. -/
abbrev Knowledge := Params → Bool → Device → Device → Prop

def knowsNothing : Knowledge := fun _ _ _ _ => True

def Knowledge.and (A B : Knowledge) : Knowledge := fun p due d d' => A p due d d' ∧ B p due d d'

/-- Both devices have device command `k` selected. -/
def bothSelect (k : Params → Byte) : Knowledge := fun p _ d d' => d.ir = some (k p) ∧ d'.ir = some (k p)

def agreeOnLow : Knowledge := fun _ _ d d' => lo8 d'.dc = lo8 d.dc

def agreeOnCursor : Knowledge := fun _ _ d d' => d'.dc = d.dc

def agreeOnLatch : Knowledge := fun _ _ d d' => d'.latch = d.latch

def discardIs (b : Bool) : Knowledge := fun _ due _ _ => due = b

/-- Two runs of one command from the trace `tr`, on devices with the same memory: the same registers, and the same events but for discarded
bytes, of which one was due before the first event or not, as `n` says. -/
structure Twins (tr : List Event) (n : Bool) (K : Knowledge) (s s' : State) : Prop where
  distinct : s.par.distinct
  same : s' = { s with dev := s'.dev, trace := s'.trace }
  mem : s'.dev.mem = s.dev.mem
  log : ∃ es es', s.trace = tr ++ es ∧ s'.trace = tr ++ es' ∧ hideDiscarded s.par n es' = hideDiscarded s.par n es ∧
    discardDue s.par n es' = discardDue s.par n es ∧ K s.par (discardDue s.par n es) s.dev s'.dev

variable {tr : List Event} {n : Bool} {K K' : Knowledge}

theorem Twins.par (h : Twins tr n K s s') : s'.par = s.par := by rw [h.same]

theorem Twins.eq (h : Twins tr n K s s') : ∃ d' tr', s' = { s with dev := d', trace := tr' } := ⟨_, _, h.same⟩

theorem Twins.ndr (h : Twins tr n K s s') : s'.ndr = s.ndr := by rw [h.same]

theorem Twins.knows (h : Twins tr n K s s') : ∃ due, K s.par due s.dev s'.dev := by
  obtain ⟨es, es', -, -, -, -, hK⟩ := h.log
  exact ⟨_, hK⟩

theorem Twins.mono (h : Twins tr n K s s') (hK : ∀ {p due d d'}, K p due d d' → K' p due d d') : Twins tr n K' s s' :=
  { h with
    log := by
      obtain ⟨es, es', htr, htr', hhide, hdue, hk⟩ := h.log
      exact ⟨es, es', htr, htr', hhide, hdue, hK hk⟩ }

theorem Twins.forget (h : Twins tr n K s s') : Twins tr n knowsNothing s s' := h.mono (fun _ => trivial)

/-- Further events, alike but for discarded bytes. -/
theorem Twins.append (h : Twins tr n K s s') {fs fs' : List Event} {left left' : List Bool} {d d' : Device} (hleft : left' = left)
    (hmem : d'.mem = d.mem)
    (hnew : ∀ due, K s.par due s.dev s'.dev → hideDiscarded s.par due fs' = hideDiscarded s.par due fs ∧
      discardDue s.par due fs' = discardDue s.par due fs ∧ K' s.par (discardDue s.par due fs) d d') :
    Twins tr n K' { s with trace := s.trace ++ fs, busyAnswers := left, dev := d }
      { s' with trace := s'.trace ++ fs', busyAnswers := left', dev := d' } where
  distinct := h.distinct
  same := hleft ▸ congrArg (fun u : State => { u with trace := s'.trace ++ fs', busyAnswers := left', dev := d' }) h.same
  mem := hmem
  log := by
    obtain ⟨es, es', htr, htr', hhide, hdue, hk⟩ := h.log
    obtain ⟨hhide', hdue', hk'⟩ := hnew _ hk
    refine ⟨es ++ fs, es' ++ fs', by simp [htr], by simp [htr'], ?_, ?_, ?_⟩
    · rw [hideDiscarded_append, hideDiscarded_append, hhide, hdue, hhide']
    · rw [discardDue_append, discardDue_append, hdue, hdue']
    · rw [discardDue_append]; exact hk'

theorem twins_endsAlike : EndsAlike (Twins tr n knowsNothing) where
  ended := fun len _ _ h => { h with same := congrArg (fun u : State => { u with cp := u.cp + len, activity := .idle }) h.same }
  raised := fun e len _ _ h => { h with same := congrArg (State.raise e len) h.same }
  hung := fun h => { h with same := congrArg (fun u : State => { u with activity := .busyWait }) h.same }

/-! ## The transport operations -/

/-- How a piece that stops leaves the two runs; after a fault there is no next state. -/
abbrev TwinStop (tr : List Event) (n : Bool) (e : Halt) (t t' : State) : Prop := (∀ f, e ≠ .fault f) → Twins tr n knowsNothing t t'

/-- A piece after which more, or less, is known. -/
abbrev Learns (tr : List Event) (n : Bool) (K K' : Knowledge) (m : Seq α) : Prop :=
  Lockstep (Twins tr n K) (Twins tr n K') (TwinStop tr n) m

theorem learns_waitBusy : Learns tr n K K waitBusy := by
  intro s s' h
  obtain ⟨d', tr', rfl⟩ := h.eq
  have hpolled (bs left : List Bool) : Twins tr n K { s with busyAnswers := left, trace := s.trace ++ bs.map Event.busy }
      { s with busyAnswers := left, trace := tr' ++ bs.map Event.busy, dev := d' } :=
    h.append rfl h.mem (fun due hk => ⟨rfl, rfl, by rwa [discardDue_polls]⟩)
  unfold waitBusy
  dsimp only
  split
  · split
    · exact .done (hpolled _ _)
    · exact .stopped (fun _ => (hpolled _ _).forget)
    · exact .stopped (fun _ => (hpolled _ _).forget)
  · exact .done h

/-- A write that both devices take, and after which they have the same memory again. -/
theorem learns_writeTransaction {r : Reg} {b : Byte} {s s' : State} (h : Twins tr n K s s') {d d' : Device}
    (hd : s.dev.write s.par r b = some d) (hd' : s'.dev.write s.par r b = some d') (hmem : d'.mem = d.mem)
    (hK : ∀ due, K s.par due s.dev s'.dev → K' s.par (due || decide (r = .command ∧ b = s.par.cmdCurHi)) d d') :
    RunRel (Twins tr n K') (TwinStop tr n) (writeTransaction r b s) (writeTransaction r b s') := by
  have hrun : writeTransaction r b s = .done () { s.emit (.write r b) with dev := d } := by simp only [writeTransaction, hd]
  have hrun' : writeTransaction r b s' = .done () { s'.emit (.write r b) with dev := d' } := by
    simp only [writeTransaction, h.par, hd']
  obtain ⟨_, _, rfl⟩ := h.eq
  rw [hrun, hrun']
  exact .done (h.append rfl hmem (fun due hk => ⟨rfl, rfl, hK due hk⟩))

/-- A write transaction behind its busy-wait. -/
theorem learns_tw {r : Reg} {b : Byte}
    (h : ∀ {p due d d'}, p.distinct → d'.mem = d.mem → K p due d d' → ∃ e e', d.write p r b = some e ∧
      d'.write p r b = some e' ∧ e'.mem = e.mem ∧ K' p (due || decide (r = .command ∧ b = p.cmdCurHi)) e e') : Learns tr n K K' (tw r b) := by
  refine learns_waitBusy.andThen (fun _ s s' hs => ?_)
  obtain ⟨due, hk⟩ := hs.knows
  obtain ⟨e, e', hd, hd', hmem, -⟩ := h hs.distinct hs.mem hk
  refine learns_writeTransaction hs hd hd' hmem (fun due hk => ?_)
  obtain ⟨f, f', hf, hf', -, hk'⟩ := h hs.distinct hs.mem hk
  cases hd.symm.trans hf
  cases hd'.symm.trans hf'
  exact hk'

/-- A selection (R61). -/
theorem learns_select {k : Params → Byte}
    (hK : ∀ {p due d d'}, p.distinct → K p due d d' →
      K' p (due || decide (k p = p.cmdCurHi)) { d with ir := some (k p) } { d' with ir := some (k p) }) :
    Learns tr n K K' (select k) := by
  intro s s' hs
  have hs₀ : Twins tr n (K.and (fun p _ _ _ => p = s.par)) s s' :=
    { hs with
      log := by
        obtain ⟨es, es', htr, htr', hhide, hdue, hk⟩ := hs.log
        exact ⟨es, es', htr, htr', hhide, hdue, hk, rfl⟩ }
  have hselect : Learns tr n (K.and (fun p _ _ _ => p = s.par)) K' (tw .command (k s.par)) :=
    learns_tw (fun hp hmem hk => by
      obtain ⟨hk, rfl⟩ := hk
      exact ⟨_, _, rfl, rfl, hmem, by simpa using hK hp hk⟩)
  have hrun' : select k s' = tw .command (k s.par) s' := by rw [select, hs.par]
  rw [hrun']
  exact hselect s s' hs₀

/-- Data for the device command that both devices have selected, which stays selected (R62 to R64). -/
theorem learns_data {k : Params → Byte} {b : Byte}
    (h : ∀ {p due d d'}, p.distinct → d'.mem = d.mem → K p due d d' → ∃ e e', d.writeData p (k p) b = some e ∧
      d'.writeData p (k p) b = some e' ∧ e'.mem = e.mem ∧ K' p due e e') :
    Learns tr n ((bothSelect k).and K) ((bothSelect k).and K') (tw .data b) :=
  learns_tw (fun {p due d d'} hp hmem hk => by
    obtain ⟨⟨hir, hir'⟩, hk⟩ := hk
    obtain ⟨e, e', hd, hd', hmem', hk'⟩ := h hp hmem hk
    have hw : d.write p .data b = some e := by simp only [Device.write, hir, hd]
    have hw' : d'.write p .data b = some e' := by simp only [Device.write, hir', hd']
    exact ⟨e, e', hw, hw', hmem', ⟨(Device.write_data_ir hw).trans hir, (Device.write_data_ir hw').trans hir'⟩, by simpa using hk'⟩)

theorem readTransaction_selected (hir : s.dev.ir = some s.par.cmdRead) :
    readTransaction .data s = .done s.dev.latch
      { s.emit (.read .data s.dev.latch) with dev := { s.dev with latch := s.dev.mem.read s.dev.dc, dc := s.dev.dc + 1 } } := by
  simp only [readTransaction, Device.read, if_pos hir]

/-- The read command selected, at the same cursor. -/
def readingAt (B : Knowledge) : Knowledge := (bothSelect Params.cmdRead).and (agreeOnCursor.and B)

/-- An open read stream behind its discarded read: the next byte is the same. -/
def readStream : Knowledge := readingAt (agreeOnLatch.and (discardIs false))

/-- A read at the same cursor loads the same byte of memory into both latches. -/
theorem Twins.read {B : Knowledge} (h : Twins tr n (readingAt B) s s')
    (hhide : ∀ due, B s.par due s.dev s'.dev → due = true ∨ s'.dev.latch = s.dev.latch) :
    ∃ t t', readTransaction .data s = .done s.dev.latch t ∧ readTransaction .data s' = .done s'.dev.latch t' ∧
      Twins tr n readStream t t' := by
  obtain ⟨due, ⟨hir, hir'⟩, hdc, -⟩ := h.knows
  refine ⟨_, _, readTransaction_selected hir, readTransaction_selected (by rw [h.par]; exact hir'), ?_⟩
  have hmem := h.mem
  obtain ⟨d', tr', rfl⟩ := h.eq
  have hdc : d'.dc = s.dev.dc := hdc
  have hbyte : d'.mem.read d'.dc = s.dev.mem.read s.dev.dc := by rw [hdc]; exact congrArg (Memory.read · _) hmem
  refine h.append rfl hmem (fun due hk => ⟨?_, rfl, ⟨hir, hir'⟩, congrArg (· + 1) hdc, hbyte, rfl⟩)
  obtain ⟨-, -, hB⟩ := hk
  rcases hhide due hB with rfl | hlatch
  · rfl
  · have hlatch : d'.latch = s.dev.latch := hlatch
    simp only [hideDiscarded, hlatch]

theorem andThen_assoc {β γ : Type} (m : Seq α) (f : α → Seq β) (g : β → Seq γ) :
    andThen (andThen m f) g = andThen m (fun a => andThen (f a) g) := by
  funext s
  simp only [andThen]
  cases m s <;> rfl

/-- The discarded read: the byte may differ, the latch then does not (R123). -/
theorem learns_discardedRead : Learns tr n (readingAt (discardIs true)) readStream (andThen (Machine.tr .data) (fun _ => skip)) := by
  rw [Machine.tr, andThen_assoc]
  refine learns_waitBusy.andThen (fun _ s s' hs => ?_)
  obtain ⟨t, t', ht, ht', h⟩ := hs.read (fun due hdue => .inl hdue)
  rw [andThen_done ht, andThen_done ht']
  exact .done h

/-- A read in an open read stream. -/
theorem learns_readData : Learns tr n readStream readStream readData := by
  refine learns_waitBusy.andThen (fun _ s s' hs => ?_)
  obtain ⟨t, t', ht, ht', h⟩ := hs.read (fun due hB => .inr hB.1)
  obtain ⟨due, -, -, hlatch, -⟩ := hs.knows
  rw [ht, ht', show s'.dev.latch = s.dev.latch from hlatch]
  exact .done h

theorem Twins.registerUpdate {f : State → State} (hf : RegisterUpdate f) (h : Twins tr n K s s') : Twins tr n K (f s) (f s') := by
  cases hf with
  | cur v => exact { h with same := congrArg (fun u : State => { u with cur := v }) h.same }
  | setNdr => exact { h with same := congrArg State.setDummyReadNeeded h.same }
  | clearNdr => exact { h with same := congrArg State.clearDummyReadNeeded h.same }

theorem learns_registerUpdate {f : State → State} (hf : RegisterUpdate f) : Learns tr n K K (update f) :=
  lockstep_update (fun _ _ h => h.registerUpdate hf)

/-! ## The helper procedures -/

/-- What the two runs agree on in a phase. -/
def Phase.knowledge : Phase → Knowledge
  | .any => knowsNothing
  | .positioned => agreeOnCursor.and (discardIs true)
  | .writing => (bothSelect Params.cmdWrite).and agreeOnCursor
  | .reading => readStream

/-- Two runs in a phase: once positioned, NDR is set. -/
def Abreast (tr : List Event) (n : Bool) (φ : Phase) (s s' : State) : Prop :=
  Twins tr n φ.knowledge s s' ∧ (φ = .positioned → s.ndr = true)

theorem Abreast.any {φ : Phase} (h : Abreast tr n φ s s') : Abreast tr n .any s s' := ⟨h.1.forget, nofun⟩

/-- A piece that keeps the two runs abreast. -/
abbrev Keeps (tr : List Event) (n : Bool) (φ ψ : Phase) (m : Seq α) : Prop :=
  Lockstep (Abreast tr n φ) (Abreast tr n ψ) (TwinStop tr n) m

theorem Learns.keeps {φ ψ : Phase} {m : Seq α} (h : Learns tr n φ.knowledge ψ.knowledge m) (hψ : ψ ≠ .positioned) :
    Keeps tr n φ ψ m := h.mono And.left (fun h => ⟨h, fun hpos => absurd hpos hψ⟩) id

/-- The two bytes of the address make the cursors equal (R121). -/
theorem keeps_setCursorAddress (v : Word) : Keeps tr n .any .positioned (setCursorAddress v) := by
  have hlow : Learns tr n knowsNothing ((bothSelect Params.cmdCurLo).and knowsNothing) (select Params.cmdCurLo) :=
    learns_select (fun _ _ => ⟨⟨rfl, rfl⟩, trivial⟩)
  have hlowByte : Learns tr n ((bothSelect Params.cmdCurLo).and knowsNothing) ((bothSelect Params.cmdCurLo).and agreeOnLow)
      (tw .data (lo8 v)) :=
    learns_data (fun _ hmem _ => ⟨_, _, Device.writeData_curLo _ _, Device.writeData_curLo _ _, hmem, by simp [agreeOnLow]⟩)
  have hhigh : Learns tr n ((bothSelect Params.cmdCurLo).and agreeOnLow)
      ((bothSelect Params.cmdCurHi).and (agreeOnLow.and (discardIs true))) (select Params.cmdCurHi) :=
    learns_select (fun _ hk => ⟨⟨rfl, rfl⟩, hk.2, by simp [discardIs]⟩)
  have hhighByte : Learns tr n ((bothSelect Params.cmdCurHi).and (agreeOnLow.and (discardIs true)))
      ((bothSelect Params.cmdCurHi).and (agreeOnCursor.and (discardIs true))) (tw .data (hi8 v)) :=
    learns_data (fun hp hmem ⟨hlow, hdue⟩ =>
      ⟨_, _, Device.writeData_curHi hp _ _, Device.writeData_curHi hp _ _, hmem, congrArg (fun b => le16 b (hi8 v)) hlow, hdue⟩)
  have hndr : Lockstep (Twins tr n ((bothSelect Params.cmdCurHi).and (agreeOnCursor.and (discardIs true))))
      (Abreast tr n .positioned) (TwinStop tr n) (update State.setDummyReadNeeded) :=
    lockstep_update (fun _ _ h => ⟨(h.registerUpdate .setNdr).mono And.right, fun _ => rfl⟩)
  exact (hlow.cons (hlowByte.cons (hhigh.cons (hhighByte.cons ((learns_registerUpdate (.cur v)).cons hndr.one))))).mono And.left id id

theorem keeps_beginWrite : Keeps tr n .positioned .writing beginWrite :=
  Learns.keeps (learns_select (fun _ hk => ⟨⟨rfl, rfl⟩, hk.1⟩)) nofun

/-- A byte stored at the same cursor of the same memory. -/
theorem store_mem_agrees {d d' : Device} (hmem : d'.mem = d.mem) (hdc : d'.dc = d.dc) {v v' : Byte} (hv : v' = v) :
    (d'.store v').mem = (d.store v).mem := by
  rw [Device.store_mem, Device.store_mem, hmem, hdc, hv]

theorem keeps_writeData (b : Byte) : Keeps tr n .writing .writing (writeData b) :=
  Learns.keeps (φ := .writing) (ψ := .writing) (learns_data (fun hp hmem hdc =>
    ⟨_, _, Device.writeData_write hp _ _, Device.writeData_write hp _ _, store_mem_agrees hmem hdc rfl, congrArg (· + 1) hdc⟩)) nofun

theorem keeps_bitOp (k : Byte) (c : Colour) : Keeps tr n .positioned .any (bitOp k c) := by
  have hselect : Learns tr n (agreeOnCursor.and (discardIs true)) ((bothSelect (bitOpCommand c)).and agreeOnCursor)
      (select (bitOpCommand c)) := learns_select (fun _ hk => ⟨⟨rfl, rfl⟩, hk.1⟩)
  have hdata : Learns tr n ((bothSelect (bitOpCommand c)).and agreeOnCursor) ((bothSelect (bitOpCommand c)).and knowsNothing)
      (tw .data k) := by
    refine learns_data (fun {p due d d'} hp hmem hdc => ?_)
    have hbyte : d'.mem.read d'.dc = d.mem.read d.dc := by rw [hmem, show d'.dc = d.dc from hdc]
    cases c with
    | black =>
      exact ⟨_, _, Device.writeData_bitSet hp _ _, Device.writeData_bitSet hp _ _, store_mem_agrees hmem hdc (by rw [hbyte]), trivial⟩
    | white =>
      exact ⟨_, _, Device.writeData_bitClr hp _ _, Device.writeData_bitClr hp _ _, store_mem_agrees hmem hdc (by rw [hbyte]), trivial⟩
  exact Learns.keeps ((hselect.cons hdata.one).mono id Twins.forget id) nofun

theorem learns_dummyRead : Learns tr n (agreeOnCursor.and (discardIs true)) readStream dummyRead := by
  have hselect : Learns tr n (agreeOnCursor.and (discardIs true)) (readingAt (discardIs true)) (select Params.cmdRead) :=
    learns_select (fun _ ⟨hdc, hdue⟩ => ⟨⟨rfl, rfl⟩, hdc, by simp [discardIs, show _ = true from hdue]⟩)
  exact hselect.cons (learns_discardedRead.cons (learns_registerUpdate .clearNdr).one)

theorem Params.cmdRead_ne_cmdCurHi (hp : p.distinct) : p.cmdRead ≠ p.cmdCurHi := by
  simp only [Params.distinct, Params.deviceCommands, List.nodup_cons, List.mem_cons, List.not_mem_nil, or_false, not_or] at hp
  obtain ⟨-, ⟨-, hne, -, -⟩, -⟩ := hp
  exact Ne.symm hne

/-- Behind a set-cursor sequence NDR is set, so the discarded read is made on both devices (R123). -/
theorem keeps_beginRead : Keeps tr n .positioned .reading beginRead := by
  have hdummy : Lockstep (Abreast tr n .positioned) (Twins tr n readStream) (TwinStop tr n) dummyReadIfNeeded := by
    intro s s' ⟨hs, hndr⟩
    have hrun : dummyReadIfNeeded s = dummyRead s := if_pos (hndr rfl)
    have hrun' : dummyReadIfNeeded s' = dummyRead s' := if_pos (hs.ndr.trans (hndr rfl))
    rw [hrun, hrun']
    exact learns_dummyRead s s' hs
  have hselect : Learns tr n readStream readStream (select Params.cmdRead) :=
    learns_select (fun hp ⟨_, hdc, hlatch, hdue⟩ => ⟨⟨rfl, rfl⟩, hdc, hlatch, by
      simp [discardIs, Params.cmdRead_ne_cmdCurHi hp, show _ = false from hdue]⟩)
  exact hdummy.cons (hselect.mono id (fun h => ⟨h, nofun⟩) id).one

theorem Orderly.keeps {φ ψ : Phase} {m : Seq α} (h : Orderly φ ψ m) : Keeps tr n φ ψ m := by
  induction h with
  | yield a => exact lockstep_yield a
  | andThen _ _ ihm ihf => exact ihm.andThen ihf
  | setCursor v => exact keeps_setCursorAddress v
  | beginWrite => exact keeps_beginWrite
  | writeData b => exact keeps_writeData b
  | bitOp b c => exact keeps_bitOp b c
  | beginRead => exact keeps_beginRead
  | readData => exact Learns.keeps learns_readData nofun
  | weaken _ ih => exact ih.mono Abreast.any id id
  | forget _ ih => exact ih.mono id Abreast.any id
  | ofPar g _ _ ih => exact lockstep_of_state (fun s => g s.par) (fun _ => rfl) (fun s s' h => by rw [h.1.par]) (fun s => ih s.par)

/-! ## The statement -/

theorem twins_start (hp : s.par.distinct) (d : Device) (hd : d.mem = s.dev.mem) :
    Twins s.trace s.ndr knowsNothing s { s with dev := d } where
  distinct := hp
  same := rfl
  mem := hd
  log := ⟨[], [], by simp, by simp, rfl, rfl, trivial⟩

/-- A drawing command, or SETCUR, on two devices with the same memory. -/
theorem exec_twins {i : Instr} (hp : s.par.distinct) (hi : isComposite i = true ∨ ∃ a, i = .setcur a) {d : Device}
    (hd : d.mem = s.dev.mem) : OutcomeRel (Twins s.trace s.ndr knowsNothing) (exec i s) (exec i { s with dev := d }) := by
  have hstart := twins_start hp d hd
  have hchecks : commandChecks { s with dev := d } i = commandChecks s i := by cases i <;> rfl
  have hkeeps := (orderly_drawing s.rom s.par.fastPath8x16 hi).keeps (tr := s.trace) (n := s.ndr)
  exact exec_alike twins_endsAlike hstart rfl hchecks
    ((hkeeps.mono id And.left id) s { s with dev := d } ⟨hstart, nofun⟩)

/-- Settles O59: the two runs are twins to the end; that discarded bytes are hidden keeps the number of events and the writes. -/
theorem deviceHistoryIsInvisible : Obligations.DeviceHistoryIsInvisible := by
  unfold Obligations.DeviceHistoryIsInvisible
  intro i s t d hp hi hd ht
  have h := exec_twins hp hi hd
  rw [ht] at h
  obtain ⟨u, hu, h⟩ := h.of_next_left
  obtain ⟨⟨hpar, -⟩, -, -⟩ := exec_ran ht
  obtain ⟨es, es', htr, htr', hhide, -, -⟩ := h.log
  rw [hpar] at hhide
  have hlen : es'.length = es.length := by rw [← length_hideDiscarded s.ndr es', hhide, length_hideDiscarded]
  have hwrites : es'.filter Event.isWrite = es.filter Event.isWrite := by
    rw [← filter_isWrite_hideDiscarded s.ndr es', hhide, filter_isWrite_hideDiscarded]
  refine ⟨u, hu, h.same, h.mem, ?_, ?_, ?_⟩
  · rw [htr, htr', List.length_append, List.length_append, hlen]
  · rw [htr, htr', List.filter_append, List.filter_append, hwrites]
  · rw [State.eventsSince_of_append htr, State.eventsSince_of_append htr', hhide]

end Sys2Proof.Machine
end

section
/-! PROOFS. The encoding (R90 to R97): decoding undoes encoding, the decoder reads nothing but encodings, byte 0 fixes how many bytes are
taken, and a step executes what is decoded at CP. -/

namespace Sys2Proof

variable {op : Byte} {bs rest : List Byte} {i : Instr} {n len : Nat}

/-! ## Decoding an encoding -/

theorem decode_encode (i : Instr) (rest : List Byte) : decode (encode i ++ rest) = .ok (i, rest) := by
  cases i with
  | init | wrbegin | wrbyte | rdbegin | rdbyte | bitclr | bitset | pixclr | pixset | hline => rfl
  | vline c | line c | rect c | fillrect c => cases c <;> rfl
  | setcur a =>
    calc decode (encode (.setcur a) ++ rest)
      _ = .ok (.setcur (le16 (lo8 a) (hi8 a)), rest) := rfl
      _ = .ok (.setcur a, rest) := by rw [le16_lo8_hi8]
  | patfill x y w h pp =>
    calc decode (encode (.patfill x y w h pp) ++ rest)
      _ = .ok (.patfill x y w h (le16 (lo8 pp) (hi8 pp)), rest) := rfl
      _ = .ok (.patfill x y w h pp, rest) := by rw [le16_lo8_hi8]
  | text x y fp sp nch =>
    calc decode (encode (.text x y fp sp nch) ++ rest)
      _ = .ok (.text x y (le16 (lo8 fp) (hi8 fp)) (le16 (lo8 sp) (hi8 sp)) nch, rest) := rfl
      _ = .ok (.text x y fp sp nch, rest) := by rw [le16_lo8_hi8, le16_lo8_hi8]

/-- Settles O1: per command; a 16-bit operand is put together again from its two bytes, a colour is read back from bit 0. -/
theorem decodeOfEncode : Obligations.DecodeOfEncode := decode_encode

/-! ## What is decoded is an encoding -/

theorem byte_eq_of_toNat (h : op.toNat = n) : op = BitVec.ofNat 8 n := by rw [← h, BitVec.ofNat_toNat, BitVec.setWidth_eq]

/-- The bytes read are the encoding of the command answered: the operands by the reader of the format, the opcode byte by the map. -/
theorem encode_of_decodeOp (h : decodeOp op bs = .ok (i, rest)) : op :: bs = encode i ++ rest := by
  unfold decodeOp at h
  split at h
  case h_22 => cases h
  all_goals rename_i hop; cases byte_eq_of_toNat hop
  case h_1 | h_3 | h_5 | h_6 => cases h; rfl
  case h_4 | h_7 | h_8 => obtain ⟨b, rfl, rfl⟩ := decode1_ok h; rfl
  case h_2 => obtain ⟨lo, hi, rfl, rfl⟩ := decode2_ok h; simp [encode]
  case h_9 | h_10 => obtain ⟨x, y, rfl, rfl⟩ := decode2_ok h; rfl
  case h_12 | h_13 => obtain ⟨x, y, l, rfl, rfl⟩ := decode3_ok h; rfl
  case h_11 | h_14 | h_15 | h_16 | h_17 | h_18 | h_19 => obtain ⟨a, b, c, d, rfl, rfl⟩ := decode4_ok h; rfl
  case h_20 => obtain ⟨x, y, w, h, lo, hi, rfl, rfl⟩ := decodeF_ok h; simp [encode]
  case h_21 => obtain ⟨x, y, flo, fhi, slo, shi, n, rfl, rfl⟩ := decodeT_ok h; simp [encode]

/-- Settles O2: the empty stream has no command, and any other is its opcode byte and what the opcode map reads after it. -/
theorem encodingIsUnique : Obligations.EncodingIsUnique := by
  unfold Obligations.EncodingIsUnique
  intro bs i rest h
  cases bs with
  | nil => cases h
  | cons op bs => exact encode_of_decodeOp h

/-! ## How many bytes are taken -/

/-- The answer `d` on the bytes `bs` after `op` is that of a format with `n` operand bytes (R94). -/
structure TakesBytes (op : Byte) (n : Nat) (bs : List Byte) (d : Decoded) : Prop where
  truncated : bs.length < n → d = .error (.truncated op)
  taken : n ≤ bs.length → ∃ i, d = .ok (i, bs.drop n)

theorem takesBytes_truncated (h : bs.length < n) : TakesBytes op n bs (.error (.truncated op)) :=
  ⟨fun _ => rfl, fun h' => absurd h h'.not_gt⟩

theorem takesBytes_ok (h : n ≤ bs.length) : TakesBytes op n bs (.ok (i, bs.drop n)) :=
  ⟨fun h' => absurd h' h.not_gt, fun _ => ⟨i, rfl⟩⟩

theorem decode1_takesBytes (k : Byte → Instr) : TakesBytes op 1 bs (decode1 op k bs) := by
  match bs with
  | [] => exact takesBytes_truncated (by simp)
  | _ :: _ => exact takesBytes_ok (by simp)

theorem decode2_takesBytes (k : Byte → Byte → Instr) : TakesBytes op 2 bs (decode2 op k bs) := by
  match bs with
  | [] | [_] => exact takesBytes_truncated (by simp)
  | _ :: _ :: _ => exact takesBytes_ok (by simp)

theorem decode3_takesBytes (k : Byte → Byte → Byte → Instr) : TakesBytes op 3 bs (decode3 op k bs) := by
  match bs with
  | [] | [_] | [_, _] => exact takesBytes_truncated (by simp)
  | _ :: _ :: _ :: _ => exact takesBytes_ok (by simp)

theorem decode4_takesBytes (k : Byte → Byte → Byte → Byte → Instr) : TakesBytes op 4 bs (decode4 op k bs) := by
  match bs with
  | [] | [_] | [_, _] | [_, _, _] => exact takesBytes_truncated (by simp)
  | _ :: _ :: _ :: _ :: _ => exact takesBytes_ok (by simp)

theorem decodeF_takesBytes : TakesBytes op 6 bs (decodeF op bs) := by
  match bs with
  | [] | [_] | [_, _] | [_, _, _] | [_, _, _, _] | [_, _, _, _, _] => exact takesBytes_truncated (by simp)
  | _ :: _ :: _ :: _ :: _ :: _ :: _ => exact takesBytes_ok (by simp)

theorem decodeT_takesBytes : TakesBytes op 7 bs (decodeT op bs) := by
  match bs with
  | [] | [_] | [_, _] | [_, _, _] | [_, _, _, _] | [_, _, _, _, _] | [_, _, _, _, _, _] => exact takesBytes_truncated (by simp)
  | _ :: _ :: _ :: _ :: _ :: _ :: _ :: _ => exact takesBytes_ok (by simp)

/-- Inside the opcode map the format read has as many operand bytes as the length of R94 leaves after byte 0. -/
theorem decodeOp_takesBytes (h : opLength op = some len) : TakesBytes op (len - 1) bs (decodeOp op bs) := by
  unfold opLength at h
  split at h
  case h_22 => cases h
  all_goals rename_i hop; cases h; cases byte_eq_of_toNat hop
  case h_1 | h_2 | h_3 | h_4 => exact takesBytes_ok (Nat.zero_le _)
  case h_5 | h_6 | h_7 => exact decode1_takesBytes _
  case h_8 | h_9 | h_10 => exact decode2_takesBytes _
  case h_11 | h_12 => exact decode3_takesBytes _
  case h_13 | h_14 | h_15 | h_16 | h_17 | h_18 | h_19 => exact decode4_takesBytes _
  case h_20 => exact decodeF_takesBytes
  case h_21 => exact decodeT_takesBytes

theorem opLength_pos (h : opLength op = some len) : 0 < len := by
  unfold opLength at h
  split at h
  case h_22 => cases h
  all_goals cases h; exact Nat.succ_pos _

/-- Settles O4: the format of the opcode byte takes `len - 1` bytes or finds too few; what it took is as long as the encoding. -/
theorem lengthFromOpcode : Obligations.LengthFromOpcode := by
  unfold Obligations.LengthFromOpcode
  intro op rest len hlen
  have htakes := decodeOp_takesBytes (bs := rest) hlen
  refine ⟨fun hshort => htakes.truncated (by omega), fun henough => ?_⟩
  obtain ⟨i, hi⟩ := htakes.taken (by omega)
  have hbytes := decodeOp_length hi
  rw [List.length_drop] at hbytes
  have hpos := opLength_pos hlen
  exact ⟨i, hi, by omega⟩

/-! ## The opcode map -/

theorem decodeOp_of_opLength_none (h : opLength op = none) : decodeOp op bs = .error (.unknownOpcode op) := by
  unfold decodeOp
  split
  case h_22 => rfl
  all_goals rename_i hop; cases byte_eq_of_toNat hop; cases h

theorem opLength_of_unknownOpcode (h : decodeOp op bs = .error (.unknownOpcode op)) : opLength op = none := by
  cases hlen : opLength op with
  | none => rfl
  | some len =>
    have htakes := decodeOp_takesBytes (bs := bs) hlen
    rcases Nat.lt_or_ge bs.length (len - 1) with hshort | henough
    · cases h.symm.trans (htakes.truncated hshort)
    · obtain ⟨i, hi⟩ := htakes.taken henough
      cases h.symm.trans hi

/-- Settles O3: outside the map nothing else is answered, and inside it the answer is a command or a truncated stream. -/
theorem opcodeMapIsExact : Obligations.OpcodeMapIsExact := by
  unfold Obligations.OpcodeMapIsExact
  exact ⟨fun _ _ => ⟨opLength_of_unknownOpcode, decodeOp_of_opLength_none⟩, by decide, rfl, rfl⟩

/-- Settles O5: each word is the encoding of its command, the third with one byte after it. -/
theorem sampleWordsDecode : Obligations.SampleWordsDecode :=
  ⟨decode_encode .init [], decode_encode (.setcur 0x0123) [], decode_encode (.wrbyte 0xA5) [0x13], decode_encode (.bitset 5) [],
    decode_encode (.pixset 239 127) [], decode_encode (.hline 3 0 10 0xFF) [], decode_encode (.vline .white 4 1 2) [],
    decode_encode (.line .black 0 0 7 3) [], decode_encode (.fillrect .black 8 0 16 2) [],
    decode_encode (.patfill 0 1 16 2 0x1234) [], decode_encode (.text 5 0 0x0100 0x0200 2) []⟩

end Sys2Proof

namespace Sys2Proof.Machine

variable {s : State} {i : Instr} {rest : List Byte}

/-! ## The step -/

/-- A command can only be fetched before the end of the stream. -/
theorem State.cp_lt_of_fetch (h : s.fetch = .ok (i, rest)) : s.cp < s.prog.length := by
  by_contra hend
  rw [State.fetch, List.drop_eq_nil_of_le (not_lt.1 hend)] at h
  cases h

/-- A step that fetches a command, outside the fault state (R96). -/
theorem step_executes (ha : s.activity = .idle) (herr : s.err = 0) (hf : s.fetch = .ok (i, rest)) : step s = exec i s := by
  have hend : ¬ s.streamEnded = true := by simpa [State.streamEnded] using State.cp_lt_of_fetch hf
  simp only [step, ha, if_neg hend, if_neg (not_not.2 herr), hf]

/-- Settles O6: bytes that decode to a command are not the end of the stream, so the step comes to execute it. -/
theorem stepRunsTheDecodedCommand : Obligations.StepRunsTheDecodedCommand := by
  unfold Obligations.StepRunsTheDecodedCommand
  exact fun _ _ _ ha herr hf => step_executes ha herr hf

end Sys2Proof.Machine
end

section
/-! PROOFS. INIT on the reference device (R66, R127): the mode-setup pairs sent without a busy-wait, what they make of the device, and the
whole next state. -/

namespace Sys2Proof.Machine

variable {s : State} {p : Params}

/-! ## The mode-setup pairs -/

@[simp] theorem Device.afterEvents_cons (p : Params) (d : Device) (e : Event) (es : List Event) :
    d.afterEvents p (e :: es) = (d.afterEvent p e).afterEvents p es := rfl

@[simp] theorem Device.afterEvent_command (p : Params) (d : Device) (k : Byte) :
    d.afterEvent p (.write .command k) = { d with ir := some k } := rfl

theorem Device.afterEvent_data {d d' : Device} {b : Byte} (h : d.write p .data b = some d') :
    d.afterEvent p (.write .data b) = d' := by
  rw [Device.afterEvent, h, Option.getD_some]

/-- Every pair of MODE_SETUP has a meaning on the device (log entry 7), so the list is sent to its end. -/
theorem sendModeSetup_noWait (h : s.noWait) {l : List (Byte × Byte)} (hl : ∀ kd ∈ l, kd ∈ s.par.modeSetup) :
    sendModeSetup l s = .done ()
      { s with trace := s.trace ++ modeSetupTrace l, dev := s.dev.afterEvents s.par (modeSetupTrace l) } := by
  induction l generalizing s with
  | nil => simp [sendModeSetup, modeSetupTrace]
  | cons kd l ih =>
    obtain ⟨k, b⟩ := kd
    have htakes : TakesData s.par k := .inr (List.mem_map_of_mem (hl (k, b) (by simp)))
    obtain ⟨d, hd⟩ := htakes.writeData { s.dev with ir := some k } b
    have hdata : ({ s.dev with ir := some k } : Device).write s.par .data b = some d := hd
    rw [sendModeSetup, inOrder_done (tw_command_noWait h k), inOrder_done (tw_data_noWait (by exact h) rfl hd),
      inOrder_done (ih (by exact h) (by exact fun x hx => hl x (by simp [hx])))]
    simp [modeSetupTrace, Device.afterEvent_data hdata]

/-- The events of INIT (R127). -/
theorem initEvents_noWait (h : s.noWait) :
    initEvents s = .done ()
      { s with
        trace := s.trace ++ .init :: modeSetupTrace s.par.modeSetup, ndr := true, inited := true,
        dev := s.dev.afterEvents s.par (modeSetupTrace s.par.modeSetup) } := by
  rw [initEvents, inOrder_done (tInit_noWait h),
    inOrder_done (by rw [modeSetup]; exact sendModeSetup_noWait (by exact h) (fun _ hkd => hkd)), inOrder_done (update_eq _ _),
    inOrder_done (update_eq _ _)]
  simp [State.setDummyReadNeeded]

/-! ## The device -/

/-- A pair whose command byte is none of the device commands only selects that byte (R66). -/
theorem Device.afterEvent_unknownData {k : Byte} (hk : k ∉ p.deviceCommands) (d : Device) (hir : d.ir = some k) (b : Byte) :
    d.afterEvent p (.write .data b) = d := by
  simp only [Device.afterEvent, Device.write, hir, Device.writeData_unknown hk]
  split <;> rfl

/-- Pairs of such command bytes leave the last of them selected, and the rest of the device as it was. -/
theorem Device.afterEvents_modeSetupTrace {l : List (Byte × Byte)} (hl : ∀ kd ∈ l, kd.1 ∉ p.deviceCommands) (d : Device) :
    d.afterEvents p (modeSetupTrace l) = { d with ir := (l.map Prod.fst).getLast?.or d.ir } := by
  induction l generalizing d with
  | nil => simp [modeSetupTrace]
  | cons kd l ih =>
    obtain ⟨k, b⟩ := kd
    have hk : k ∉ p.deviceCommands := hl (k, b) (by simp)
    rw [modeSetupTrace, Device.afterEvents_cons, Device.afterEvents_cons, Device.afterEvent_command,
      Device.afterEvent_unknownData hk _ rfl, ih (fun x hx => hl x (by simp [hx]))]
    simp [List.getLast?_cons]

/-! ## The statement -/

/-- INIT on a sequencer not yet initialised (R127). -/
theorem exec_init (hinited : s.inited = false) (h : s.noWait) :
    exec .init s = .next
      { s with
        cp := s.cp + 1, ndr := true, inited := true, activity := .idle,
        trace := s.trace ++ .init :: modeSetupTrace s.par.modeSetup,
        dev := s.dev.afterEvents s.par (modeSetupTrace s.par.modeSetup) } := by
  rw [exec_eq_runCommand]
  exact runCommand_done (by simp [hinited]) rfl (initEvents_noWait h)

/-- Settles O19: the device follows the mode-setup pairs, which only select where they name no device command. -/
theorem initCompletes : Obligations.InitCompletes := by
  unfold Obligations.InitCompletes
  intro s hinited h
  refine ⟨_, exec_init hinited h, rfl, fun hunknown => ?_⟩
  have hdev := Device.afterEvents_modeSetupTrace hunknown s.dev
  exact ⟨hdev, fun a => by simp only [hdev]⟩

end Sys2Proof.Machine
end

section
/-! PROOFS. The cursor and stream commands as the statements write them out, the read-mask-merge-write step (R126, R137), and PIXCLR and
PIXSET as one command with a colour (R125, R135, R136). -/

namespace Sys2Proof.Machine

variable {s : State}

/-! ## Read-mask-merge-write -/

theorem length_rmwTrace (p : Params) (a : Word) (stale current new : Byte) : (rmwTrace p a stale current new).length = 14 := rfl

/-- Settles O30: the merged byte is the one byte written. -/
theorem rmwGuarantee : Obligations.RmwGuarantee := by
  unfold Obligations.RmwGuarantee
  intro p msk v s h hp
  exact ⟨_, rmw_noWait h hp p msk v, storesOnly_of_write rfl, rfl, by rw [List.length_append, length_rmwTrace], rfl, rfl, rfl, rfl⟩

/-! ## Cursor and stream commands -/

/-- Settles O20: both commands have no check, so each comes to its helper procedure. -/
theorem setcurAndWrbeginComplete : Obligations.SetcurAndWrbeginComplete :=
  ⟨fun a _ h => exec_setcur h a, fun _ h => exec_wrbegin h⟩

/-- Settles O24: RDBEGIN with the dummy read when NDR is 1, and RDBYTE in the open read stream. -/
theorem rdbeginAndRdbyteComplete : Obligations.RdbeginAndRdbyteComplete := by
  unfold Obligations.RdbeginAndRdbyteComplete
  refine ⟨fun s h => ?_, fun _ h hir => exec_rdbyte h hir⟩
  rw [exec_rdbegin h, beginReadTrace, List.append_assoc]

/-! ## Pixel commands -/

/-- The pixel command of a colour (R135, R136). -/
def pixelCommand (x y : Byte) : Colour → Instr
  | .white => .pixclr x y
  | .black => .pixset x y

/-- PIXCLR and PIXSET where the coordinates pass their check (R135, R136). -/
theorem exec_pixelCommand (h : s.ready) {x y : Byte} (hfits : s.whenStrict (x.toNat < 240 ∧ y.toNat < 128)) (c : Colour) :
    exec (pixelCommand x y c) s = .next
      { s with
        cp := s.cp + 3, activity := .idle, cur := addr x.toNat y.toNat, ndr := true,
        trace := s.trace ++ pixelTrace s.par x.toNat y.toNat c,
        dev :=
          { s.dev with
            ir := some (bitOpCommand c s.par),
            mem := s.dev.mem.write (addr x.toNat y.toNat)
              (bitOpByte (s.dev.mem.read (addr x.toNat y.toNat)) (BitVec.ofNat 8 (x.toNat % 8)) c),
            dc := addr x.toNat y.toNat + 1 } } := by
  have hc : firstError (strictChecks s [(pixelFits x.toNat y.toNat, .bounds)]) = none :=
    firstError_strictChecks_eq_none (fun hstrict => by simpa using (pixelFits_iff _ _).2 (hfits hstrict))
  cases c with
  | white => exact h.completes (i := .pixclr x y) nofun hc (pixel_noWait h.noWait h.distinct _ _ .white)
  | black => exact h.completes (i := .pixset x y) nofun hc (pixel_noWait h.noWait h.distinct _ _ .black)

/-- The address of any two byte coordinates, on the surface or off it, is below 65536 without wrapping. -/
theorem addr_lt_of_bytes (x y : Byte) : 30 * y.toNat + x.toNat / 8 < 65536 := by
  have hx := x.isLt
  have hy := y.isLt
  omega

/-- `Pixel` paints one pixel (R125). -/
theorem pixel_paints (h : s.ready) {x y : Byte} {c : Colour} {t : State} (ht : pixel x.toNat y.toNat c s = .done () t) :
    Paints s t (fun q => q = pixelIndex x.toNat y.toNat) (fun _ => c.bit) := by
  obtain ⟨u, hu, hdrawn, -⟩ := pixel_draws h.noWait h.distinct (addr_lt_of_bytes x y) c
  cases hu.symm.trans ht
  exact hdrawn.paints (fun _ hq => if_pos hq) (fun _ hq => if_neg hq)

theorem bitOf_ofNat_mod (x : Nat) : bitOf (BitVec.ofNat 8 (x % 8)) = (1 : Byte) <<< (x % 8) := by
  have hx : (BitVec.ofNat 8 (x % 8)).toNat = x % 8 := Nat.mod_eq_of_lt (by omega)
  rw [bitOf_legal (by omega), hx]

/-- Settles O29: the pixel operation of each colour. -/
theorem pixelCommandsComplete : Obligations.PixelCommandsComplete := by
  unfold Obligations.PixelCommandsComplete
  intro x y s h hfits
  rw [← bitOf_ofNat_mod]
  have hpaints (c : Colour) := pixel_paints h (pixel_noWait h.noWait h.distinct x.toNat y.toNat c)
  exact ⟨⟨_, exec_pixelCommand h hfits .white, rfl, storesOnly_of_write rfl, hpaints .white⟩,
    ⟨_, exec_pixelCommand h hfits .black, rfl, storesOnly_of_write rfl, hpaints .black⟩⟩

end Sys2Proof.Machine
end

section
/-! PROOFS. The Bresenham stepper (R162, R163), in offsets from the first end point: of the two axes the one with the larger extent, the
major one, advances in every step, and the offset on the other stays within half a step of the straight line. The two axes take the same
step rule with the error negated, so each fact is proved for one of them. -/

namespace Sys2Proof.Machine

/-! ## The step rule -/

/-- The error term at offsets `i` and `j`, on a line of extents `dx` and `dy` (R162). -/
def lineError (dx dy i j : Nat) : Int := (dx : Int) - dy - dy * i + dx * j

/-- The offset on the second axis after a step: the row test of R162. -/
def nextOffset (dx dy i j : Nat) : Nat := if 2 * lineError dx dy i j ≤ dx then j + 1 else j

theorem lineError_swap (dx dy i j : Nat) : lineError dy dx j i = -lineError dx dy i j := by
  unfold lineError
  ring

/-- The column test of R162 is the row test with the axes exchanged. -/
theorem nextOffset_swap (dx dy i j : Nat) :
    nextOffset dy dx j i = if -(2 * lineError dx dy i j) ≤ dy then i + 1 else i := by
  rw [nextOffset, lineError_swap, mul_neg]

theorem nextOffset_cases (dx dy i j : Nat) : nextOffset dx dy i j = j ∨ nextOffset dx dy i j = j + 1 := by
  unfold nextOffset
  split <;> simp

theorem nextOffset_eq_succ_iff (dx dy i j : Nat) : nextOffset dx dy i j = j + 1 ↔ 2 * lineError dx dy i j ≤ dx := by
  unfold nextOffset
  split <;> simp_all

theorem nextOffset_swap_eq_succ_iff (dx dy i j : Nat) : nextOffset dy dx j i = i + 1 ↔ -(2 * lineError dx dy i j) ≤ dy := by
  rw [nextOffset_eq_succ_iff, lineError_swap, mul_neg]

/-! ## The straight line -/

/-- Within half a step of the straight line: offset `b` on an axis of extent `m`, against offset `a` on the major axis, of extent `M`. -/
def Tracks (M m a b : Nat) : Prop := -(M : Int) < 2 * (M * b - m * a) ∧ 2 * ((M : Int) * b - m * a) ≤ M

theorem tracks_zero {M : Nat} (m : Nat) (hM : 0 < M) : Tracks M m 0 0 := by
  constructor <;> simp [hM]

section tracks

variable {M m a b : Nat}

/-- The major axis steps. -/
theorem Tracks.nextOffset_major (h : Tracks M m a b) (hm : m ≤ M) : nextOffset m M b a = a + 1 := by
  obtain ⟨hlow, -⟩ := h
  rw [nextOffset_swap, if_pos]
  unfold lineError
  omega

theorem Tracks.next (h : Tracks M m a b) (hm : m ≤ M) : Tracks M m (a + 1) (nextOffset M m a b) := by
  obtain ⟨hlow, hhigh⟩ := h
  unfold nextOffset lineError
  split <;> constructor <;> push_cast [mul_add] <;> omega

/-- On the way, the other axis does not pass its end. -/
theorem Tracks.minor_le (h : Tracks M m a b) (hM : 0 < M) (ha : a ≤ M) : b ≤ m := by
  obtain ⟨-, hhigh⟩ := h
  by_contra hb
  have h1 : (M : Int) * (m + 1) ≤ M * b := by gcongr; omega
  have h2 : (m : Int) * a ≤ m * M := by gcongr
  linarith only [h1, h2, hhigh, mul_comm (m : Int) M, Int.natCast_pos.2 hM]

/-- The other axis has no more left to go than the major one. -/
theorem Tracks.minor_left_le (h : Tracks M m a b) (hM : 0 < M) (hm : m ≤ M) (ha : a ≤ M) : m - b ≤ M - a := by
  obtain ⟨hlow, -⟩ := h
  by_contra hb
  obtain ⟨k, rfl⟩ := Nat.exists_eq_add_of_le ha
  obtain ⟨l, rfl⟩ : ∃ l, m = b + k + 1 + l := ⟨m - b - k - 1, by omega⟩
  have hkb : (k : Int) * (b + 1) ≤ k * a := by gcongr; omega
  have hla : (0 : Int) ≤ l * a := by positivity
  push_cast at hlow
  linarith only [hlow, hkb, hla, Int.natCast_pos.2 hM, Int.natCast_add a k]

theorem Tracks.at_end (h : Tracks M m M b) (hM : 0 < M) (hm : m ≤ M) : b = m := by
  have h1 := h.minor_le hM le_rfl
  have h2 := h.minor_left_le hM hm le_rfl
  omega

end tracks

/-! ## Offsets the stepper reaches -/

/-- Offsets the stepper can reach on a line of extents `dx` and `dy`. -/
structure OnCourse (dx dy i j : Nat) : Prop where
  column_le : i ≤ dx
  row_le : j ≤ dy
  near : 0 < dx ∧ dy ≤ dx ∧ Tracks dx dy i j ∨ 0 < dy ∧ dx ≤ dy ∧ Tracks dy dx j i

/-- The steps left to the other end point: those of the major axis. -/
def stepsLeft (dx dy i j : Nat) : Nat := max (dx - i) (dy - j)

section course

variable {dx dy i j : Nat}

theorem OnCourse.swap (h : OnCourse dx dy i j) : OnCourse dy dx j i := ⟨h.row_le, h.column_le, h.near.symm⟩

theorem onCourse_start (hx : 0 < dx) (hy : 0 < dy) : OnCourse dx dy 0 0 where
  column_le := hx.le
  row_le := hy.le
  near := (le_total dy dx).imp (fun h => ⟨hx, h, tracks_zero dy hx⟩) (fun h => ⟨hy, h, tracks_zero dx hy⟩)

/-- What a step before the last point does: one axis advances, the course is kept, and one step less is left. -/
structure StepsOn (dx dy i j : Nat) : Prop where
  advances : nextOffset dy dx j i = i + 1 ∨ nextOffset dx dy i j = j + 1
  onCourse : OnCourse dx dy (nextOffset dy dx j i) (nextOffset dx dy i j)
  left : stepsLeft dx dy (nextOffset dy dx j i) (nextOffset dx dy i j) + 1 = stepsLeft dx dy i j

theorem StepsOn.swap (h : StepsOn dx dy i j) : StepsOn dy dx j i :=
  ⟨h.advances.symm, h.onCourse.swap, by rw [stepsLeft, max_comm, ← stepsLeft, h.left, stepsLeft, max_comm, ← stepsLeft]⟩

/-- A step along the columns as the major axis. -/
theorem Tracks.stepsOn (h : Tracks dx dy i j) (hx : 0 < dx) (hle : dy ≤ dx) (hi : i ≤ dx) (hne : ¬ (i = dx ∧ j = dy)) :
    StepsOn dx dy i j := by
  have hlt : i < dx := lt_of_le_of_ne hi (fun heq => hne ⟨heq, (heq ▸ h).at_end hx hle⟩)
  have hnext := h.next hle
  have hleft := h.minor_left_le hx hle hi
  have hleft' := hnext.minor_left_le hx hle hlt
  refine ⟨.inl (h.nextOffset_major hle), ?_, ?_⟩ <;> rw [h.nextOffset_major hle]
  · exact ⟨hlt, hnext.minor_le hx hlt, .inl ⟨hx, hle, hnext⟩⟩
  · rw [stepsLeft, stepsLeft, max_eq_left hleft, max_eq_left hleft']
    omega

theorem OnCourse.stepsOn (h : OnCourse dx dy i j) (hne : ¬ (i = dx ∧ j = dy)) : StepsOn dx dy i j := by
  rcases h.near with ⟨hx, hle, ht⟩ | ⟨hy, hle, ht⟩
  · exact ht.stepsOn hx hle h.column_le hne
  · exact (ht.stepsOn hy hle h.row_le (fun hend => hne hend.symm)).swap

end course

/-! ## From offsets to points -/

/-- The row `j` steps from `y0` (R162). -/
def lineRow (rising : Bool) (y0 j : Nat) : Nat := if rising then y0 - j else y0 + j

/-- The point at offsets `i` and `j`. -/
def linePoint (rising : Bool) (x0 y0 i j : Nat) : Nat × Nat := (x0 + i, lineRow rising y0 j)

section walk

variable {rising : Bool} {x0 y0 dx dy i j : Nat}

theorem stepY_lineRow : stepY rising (lineRow rising y0 j) = lineRow rising y0 (j + 1) := by
  cases rising <;> rfl

theorem lineRow_inj {k : Nat} (hrise : rising = true → dy ≤ y0) (hj : j ≤ dy) (hk : k ≤ dy) :
    lineRow rising y0 j = lineRow rising y0 k ↔ j = k := by
  cases rising with
  | false => simp [lineRow]
  | true =>
    have hdy := hrise rfl
    simp only [lineRow, if_true]
    omega

/-- `q` follows `p` by the step rule. -/
def Follows (rising : Bool) (x0 y0 dx dy : Nat) (p q : Nat × Nat) : Prop :=
  ∃ i j, OnCourse dx dy i j ∧ ¬ (i = dx ∧ j = dy) ∧ p = linePoint rising x0 y0 i j ∧
    q = linePoint rising x0 y0 (nextOffset dy dx j i) (nextOffset dx dy i j)

/-- The points from offsets `i` and `j` on to the other end point. -/
structure Walk (rising : Bool) (x0 y0 dx dy i j : Nat) (points : List (Nat × Nat)) : Prop where
  length : points.length = stepsLeft dx dy i j + 1
  head : points.head? = some (linePoint rising x0 y0 i j)
  last : points.getLast? = some (linePoint rising x0 y0 dx dy)
  mem : ∀ p ∈ points, ∃ i j, OnCourse dx dy i j ∧ p = linePoint rising x0 y0 i j
  chain : points.IsChain (Follows rising x0 y0 dx dy)

theorem Walk.ne_nil {points : List (Nat × Nat)} (h : Walk rising x0 y0 dx dy i j points) : points ≠ [] := by
  rw [← List.length_pos_iff, h.length]
  exact Nat.succ_pos _

theorem walk_end (h : OnCourse dx dy dx dy) : Walk rising x0 y0 dx dy dx dy [linePoint rising x0 y0 dx dy] where
  length := by simp [stepsLeft]
  head := rfl
  last := rfl
  mem := fun p hp => ⟨dx, dy, h, List.mem_singleton.1 hp⟩
  chain := .singleton _

theorem Walk.cons {points : List (Nat × Nat)} (h : OnCourse dx dy i j) (hne : ¬ (i = dx ∧ j = dy))
    (hw : Walk rising x0 y0 dx dy (nextOffset dy dx j i) (nextOffset dx dy i j) points) :
    Walk rising x0 y0 dx dy i j (linePoint rising x0 y0 i j :: points) where
  length := by rw [List.length_cons, hw.length, (h.stepsOn hne).left]
  head := rfl
  last := by rw [List.getLast?_cons, hw.last]; rfl
  mem := List.forall_mem_cons.2 ⟨⟨i, j, h, rfl⟩, hw.mem⟩
  chain := List.isChain_cons.2 ⟨fun q hq => ⟨i, j, h, hne, rfl, Option.some_inj.1 (hq.symm.trans hw.head)⟩, hw.chain⟩

/-- One iteration of the stepper, in offsets. -/
theorem stepperPoints_succ (fuel : Nat) (hrise : rising = true → dy ≤ y0) (hj : j ≤ dy) :
    stepperPoints (x0 + dx) (lineRow rising y0 dy) dx dy rising (fuel + 1) (x0 + i) (lineRow rising y0 j) (lineError dx dy i j) =
      if i = dx ∧ j = dy then [linePoint rising x0 y0 i j]
      else
        linePoint rising x0 y0 i j ::
          stepperPoints (x0 + dx) (lineRow rising y0 dy) dx dy rising fuel (x0 + nextOffset dy dx j i)
            (lineRow rising y0 (nextOffset dx dy i j)) (lineError dx dy (nextOffset dy dx j i) (nextOffset dx dy i j)) := by
  rw [stepperPoints]
  simp only [Nat.add_left_cancel_iff, lineRow_inj hrise hj le_rfl]
  split
  · rfl
  · have hrow : (if 2 * lineError dx dy i j ≤ dx then stepY rising (lineRow rising y0 j) else lineRow rising y0 j) =
        lineRow rising y0 (nextOffset dx dy i j) := by
      rw [stepY_lineRow, nextOffset]
      split <;> rfl
    have hcolumn : (if -(2 * lineError dx dy i j) ≤ dy then x0 + i + 1 else x0 + i) = x0 + nextOffset dy dx j i := by
      rw [nextOffset_swap]
      split <;> rfl
    have herr : (if 2 * lineError dx dy i j ≤ dx then
          (if -(2 * lineError dx dy i j) ≤ dy then lineError dx dy i j - dy else lineError dx dy i j) + dx
        else if -(2 * lineError dx dy i j) ≤ dy then lineError dx dy i j - dy else lineError dx dy i j) =
        lineError dx dy (nextOffset dy dx j i) (nextOffset dx dy i j) := by
      rw [nextOffset_swap, nextOffset]
      split <;> split <;> simp only [lineError] <;> push_cast <;> ring
    simp only [decide_eq_true_eq, hrow, hcolumn, herr]
    rfl

theorem stepperPoints_walk (hrise : rising = true → dy ≤ y0) {fuel : Nat} (h : OnCourse dx dy i j) (hfuel : stepsLeft dx dy i j < fuel) :
    Walk rising x0 y0 dx dy i j
      (stepperPoints (x0 + dx) (lineRow rising y0 dy) dx dy rising fuel (x0 + i) (lineRow rising y0 j) (lineError dx dy i j)) := by
  induction fuel generalizing i j with
  | zero => omega
  | succ fuel ih =>
    rw [stepperPoints_succ fuel hrise h.row_le]
    by_cases hend : i = dx ∧ j = dy
    · obtain ⟨rfl, rfl⟩ := hend
      rw [if_pos ⟨rfl, rfl⟩]
      exact walk_end h
    · have hstep := h.stepsOn hend
      have hleft := hstep.left
      rw [if_neg hend]
      exact (ih hstep.onCourse (by omega)).cons h hend

end walk

/-! ## The statement -/

section statement

variable {x0 y0 x1 y1 : Nat}

/-- The number of rows between two rows. -/
def rowExtent (y0 y1 : Nat) : Nat := (y1 - y0) + (y0 - y1)

theorem rowExtent_eq (y0 y1 : Nat) : rowExtent y0 y1 = max y0 y1 - min y0 y1 := by
  unfold rowExtent
  omega

theorem lineRow_rowExtent (y0 y1 : Nat) : lineRow (decide (y1 < y0)) y0 (rowExtent y0 y1) = y1 := by
  simp only [lineRow, rowExtent, decide_eq_true_eq]
  split <;> omega

/-- The points of LINE are the whole walk. -/
theorem linePoints_walk (hx : x0 < x1) (hy : y0 ≠ y1) :
    Walk (decide (y1 < y0)) x0 y0 (x1 - x0) (rowExtent y0 y1) 0 0 (linePoints x0 y0 x1 y1) := by
  have hstart : OnCourse (x1 - x0) (rowExtent y0 y1) 0 0 := onCourse_start (by omega) (by unfold rowExtent; omega)
  have hrise : decide (y1 < y0) = true → rowExtent y0 y1 ≤ y0 := by
    simp only [decide_eq_true_eq, rowExtent]
    omega
  have hfuel : stepsLeft (x1 - x0) (rowExtent y0 y1) 0 0 < x1 - x0 + rowExtent y0 y1 + 1 := by
    unfold stepsLeft
    omega
  have hwalk := stepperPoints_walk (x0 := x0) hrise hstart hfuel
  rw [lineRow_rowExtent, Nat.add_sub_cancel' hx.le] at hwalk
  simpa [linePoints, lineError, lineRow, rowExtent] using hwalk

/-- A point on the way lies in the bounding box, in the rows and columns of its offsets (R163 (c)). -/
theorem OnCourse.linePoint_row {i j : Nat} (h : OnCourse (x1 - x0) (rowExtent y0 y1) i j) :
    min y0 y1 ≤ lineRow (decide (y1 < y0)) y0 j ∧ lineRow (decide (y1 < y0)) y0 j ≤ max y0 y1 ∧
      |((lineRow (decide (y1 < y0)) y0 j : Nat) : Int) - y0| = j := by
  have hrow := h.row_le
  unfold rowExtent at hrow
  simp only [lineRow, decide_eq_true_eq]
  split
  · refine ⟨by omega, by omega, ?_⟩
    rw [abs_of_nonpos] <;> omega
  · refine ⟨by omega, by omega, ?_⟩
    rw [abs_of_nonneg] <;> omega

theorem linePoints_box (hx : x0 < x1) (hy : y0 ≠ y1) {p : Nat × Nat} (hp : p ∈ linePoints x0 y0 x1 y1) :
    x0 ≤ p.1 ∧ p.1 ≤ x1 ∧ min y0 y1 ≤ p.2 ∧ p.2 ≤ max y0 y1 := by
  obtain ⟨i, j, h, rfl⟩ := (linePoints_walk hx hy).mem p hp
  obtain ⟨hlow, hhigh, -⟩ := h.linePoint_row
  have hi := h.column_le
  simp only [linePoint]
  exact ⟨by omega, by omega, hlow, hhigh⟩

theorem lineRow_eq_iff {j k : Nat} (hj : j ≤ rowExtent y0 y1) (hk : k ≤ rowExtent y0 y1) :
    lineRow (decide (y1 < y0)) y0 j = lineRow (decide (y1 < y0)) y0 k ↔ j = k :=
  lineRow_inj (by simp only [decide_eq_true_eq, rowExtent]; omega) hj hk

theorem linePoint_start (rising : Bool) (x0 y0 : Nat) : linePoint rising x0 y0 0 0 = (x0, y0) := by
  cases rising <;> rfl

theorem linePoint_last (hx : x0 ≤ x1) : linePoint (decide (y1 < y0)) x0 y0 (x1 - x0) (rowExtent y0 y1) = (x1, y1) := by
  rw [linePoint, lineRow_rowExtent, Nat.add_sub_cancel' hx]

/-- A step along the rows leads towards the end point. -/
theorem lineRow_succ {j : Nat} (hj : j + 1 ≤ rowExtent y0 y1) :
    let row := lineRow (decide (y1 < y0)) y0
    if y0 < y1 then row (j + 1) = row j + 1 else row (j + 1) + 1 = row j := by
  unfold rowExtent at hj
  simp only [lineRow, decide_eq_true_eq]
  split_ifs <;> omega

/-- The step rule of R162 between two points that follow one another, and what it makes of R163 (d). -/
theorem Follows.stepRule {p q : Nat × Nat} (hx : x0 ≤ x1) (h : Follows (decide (y1 < y0)) x0 y0 (x1 - x0) (rowExtent y0 y1) p q)
    {dx dy err : Int} (hdx : ((x1 - x0 : Nat) : Int) = dx) (hdy : (rowExtent y0 y1 : Int) = dy)
    (herr : dx - dy - dy * ((p.1 : Int) - x0) + dx * |(p.2 : Int) - y0| = err) :
    p ≠ (x1, y1) ∧ (q.1 = p.1 + 1 ↔ -(2 * err) ≤ dy) ∧ (q.2 ≠ p.2 ↔ 2 * err ≤ dx) ∧ (q.1 = p.1 ∨ q.1 = p.1 + 1) ∧
      (q.2 = p.2 ∨ (if y0 < y1 then q.2 = p.2 + 1 else q.2 + 1 = p.2)) ∧ q ≠ p := by
  obtain ⟨i, j, hcourse, hne, rfl, rfl⟩ := h
  obtain ⟨-, -, habs⟩ := hcourse.linePoint_row
  obtain ⟨hadvances, hnext, -⟩ := hcourse.stepsOn hne
  have herr : lineError (x1 - x0) (rowExtent y0 y1) i j = err := by
    rw [← herr, ← hdx, ← hdy, linePoint, habs, lineError]
    push_cast
    ring
  have hcolumn := nextOffset_swap_eq_succ_iff (x1 - x0) (rowExtent y0 y1) i j
  have hrow := nextOffset_eq_succ_iff (x1 - x0) (rowExtent y0 y1) i j
  have hcolumns := nextOffset_cases (rowExtent y0 y1) (x1 - x0) j i
  have hrows := nextOffset_cases (x1 - x0) (rowExtent y0 y1) i j
  have hsame := lineRow_eq_iff hnext.row_le hcourse.row_le
  rw [herr, hdy] at hcolumn
  rw [herr, hdx] at hrow
  simp only [linePoint, ne_eq, Prod.mk.injEq, Nat.add_left_cancel_iff, hsame, ← hcolumn, ← hrow]
  refine ⟨?_, by omega, by omega, by omega, ?_, by omega⟩
  · have hlast := lineRow_eq_iff hcourse.row_le le_rfl
    rw [lineRow_rowExtent] at hlast
    omega
  · refine hrows.imp_right (fun hsucc => ?_)
    have hle := hnext.row_le
    rw [hsucc] at hle ⊢
    exact lineRow_succ hle

end statement

/-- Settles O38: the walk in offsets, read as points. -/
theorem stepperProperties : Obligations.StepperProperties := by
  unfold Obligations.StepperProperties
  intro x0 y0 x1 y1 hx hy
  have hwalk := linePoints_walk hx hy
  have hdx : ((x1 - x0 : Nat) : Int) = x1 - x0 := by omega
  have hdy : ((rowExtent y0 y1 : Nat) : Int) = ((max y0 y1 : Nat) : Int) - (min y0 y1 : Nat) := by
    rw [rowExtent_eq]
    omega
  refine ⟨?_, linePoint_start _ x0 y0 ▸ hwalk.head, linePoint_last hx.le ▸ hwalk.last, fun p hp => linePoints_box hx hy hp, ?_⟩
  · rw [hwalk.length, rowExtent_eq]
    rfl
  · intro n p q hp hq
    obtain ⟨hn, rfl⟩ := List.getElem?_eq_some_iff.1 hp
    obtain ⟨hn', rfl⟩ := List.getElem?_eq_some_iff.1 hq
    exact (List.isChain_iff_getElem.1 hwalk.chain n hn').stepRule hx.le hdx hdy rfl

end Sys2Proof.Machine
end

section
/-! PROOFS. The line commands (R150 to R166) on a ready sequencer: from what the events of a drawing command draw and issue to what the
command completes with; then HLINE, VLINE and the three delegations of LINE. -/

namespace Sys2Proof.Machine

variable {s t : State} {i : Instr}

/-! ## A drawing command that passes its check -/

/-- A drawing command whose one check, made only when STRICT is true, holds where it is made (R231, R240). -/
theorem strictCheck_passes {condition : Prop} {fits : Bool} {e : Err} (hfits : fits = true ↔ condition)
    (h : s.whenStrict condition) : firstError (strictChecks s [(fits, e)]) = none :=
  firstError_strictChecks_eq_none (fun hstrict => List.forall_mem_singleton.2 (hfits.2 (h hstrict)))

theorem Paints.congr {P Q : Nat → Prop} {v w : Nat → Bool} (h : Paints s t P v) (hPQ : ∀ q, P q ↔ Q q) (hvw : ∀ q, Q q → v q = w q) :
    Paints s t Q w := by
  obtain ⟨hin, hout, hbytes⟩ := h
  refine ⟨fun q hq => ?_, fun q hq => hout q (fun hp => hq ((hPQ q).1 hp)), fun a ha => hbytes a (fun q hp => ha q ((hPQ q).1 hp))⟩
  rw [hin q ((hPQ q).2 hq), hvw q hq]

/-- A piece of a command runs from `s` to `t`, and on the way draws `v` on the pixel indexes of `P`, by the `n` events `es`. -/
structure DrawsBy (m : Seq Unit) (s : State) (es : List Event) (n : Nat) (P : Nat → Prop) (v : Nat → Bool) (t : State) : Prop where
  runs : m s = .done () t
  trace : t.trace = s.trace ++ es
  paints : Paints s t P v
  ndr : t.ndr = if n = 0 then s.ndr else true
  cur : n = 0 → t.cur = s.cur
  count : es.length = n
  completed : ∀ len, Completed len s { t with cp := t.cp + len, activity := .idle }

/-- What a routine draws and what it issues, put together. -/
theorem Issues.drawsBy {m : Seq Unit} {g : Params → Device → List Event} (hg : Issues m g) (h : s.ready) {n : Nat} {P : Nat → Prop}
    [DecidablePred P] {v : Nat → Bool}
    (hd : ∃ t, m s = .done () t ∧ Drawn s t n (fun q => if P q then v q else s.dev.mem.pixel q)) :
    ∃ t, DrawsBy m s (g s.par s.dev) n P v t := by
  obtain ⟨t, ht, hdrawn⟩ := hd
  obtain ⟨u, hu, htrace, -⟩ := hg.done h.noWait h.distinct
  cases ht.symm.trans hu
  have hcount := hdrawn.events
  rw [htrace, List.length_append, Nat.add_left_cancel_iff] at hcount
  exact ⟨t, ht, htrace, hdrawn.paints (fun _ hq => if_pos hq) (fun _ hq => if_neg hq), hdrawn.ndr, hdrawn.cur, hcount,
    hdrawn.completed⟩

/-- A command that passes its checks completes with what its events draw. -/
theorem DrawsBy.completes {es : List Event} {n : Nat} {P : Nat → Prop} {v : Nat → Bool} (h : s.ready) (hi : i ≠ .init)
    (hc : firstError (commandChecks s i) = none) (hd : DrawsBy (commandEvents s.rom s.par.fastPath8x16 i) s es n P v t) :
    ∃ u, exec i s = .next u ∧ Completed (encode i).length s u ∧ u.ndr = (if n = 0 then s.ndr else true) ∧ (n = 0 → u.cur = s.cur) ∧
      u.trace = s.trace ++ es ∧ Paints s u P v :=
  ⟨_, h.completes hi hc hd.runs, hd.completed _, hd.ndr, hd.cur, hd.trace, hd.paints⟩

/-! ## The horizontal line -/

theorem hLineEventCount_eq_zero_iff (off len : Nat) : hLineEventCount off len = 0 ↔ len = 0 := by
  refine ⟨fun h => ?_, fun h => by simp [hLineEventCount, h]⟩
  by_contra hlen
  exact absurd h (hLineEventCount_pos (off := off) (Nat.pos_of_ne_zero hlen)).ne'

theorem hLineEventCount_aligned {len : Nat} (h : 0 < len) :
    hLineEventCount 0 len = (if len / 8 = 0 then 0 else 5 + len / 8) + (if len % 8 = 0 then 0 else 14) := by
  simp [hLineEventCount, h.ne']

/-- A line inside its first byte has a head only. -/
theorem hLineEventCount_one_byte {off len : Nat} (ho : off ≠ 0) (h : 0 < len) (hle : off + len ≤ 8) : hLineEventCount off len = 14 := by
  simp [hLineEventCount, ho, h.ne', Nat.min_eq_left (show len ≤ 8 - off by omega)]

/-- A line that leaves its first byte has a head, and a body in the head's write stream. -/
theorem hLineEventCount_unaligned {off len : Nat} (ho : off ≠ 0) (hoff : off < 8) (h : 8 < off + len) :
    hLineEventCount off len = 14 + (len - (8 - off)) / 8 + (if (len - (8 - off)) % 8 = 0 then 0 else 14) := by
  have hlen : len ≠ 0 := by omega
  have hhead : min len (8 - off) = 8 - off := by omega
  simp only [hLineEventCount, hlen, ho, hhead, if_false, Nat.zero_add]
  split <;> omega

/-- `HLine` from any byte coordinates, for up to 256 pixels. -/
theorem hLine_drawsBy (h : s.ready) {x y len : Nat} (hx : x < 256) (hy : y < 256) (hlen : len ≤ 256) (v : Byte) :
    ∃ t, DrawsBy (hLine x y len v) s (hlineTrace s.par s.dev x y len v) (hLineEventCount (x % 8) len)
      (fun q => pixelIndex x y ≤ q ∧ q < pixelIndex x y + len) (fun q => v.getLsbD (q % 8)) t :=
  (issues_hLine _ _ _ _).drawsBy h (hLine_draws h.noWait h.distinct _ _ _ _ (by rw [pixelIndex_eq]; omega))

theorem hline_checks {x y len pat : Byte} (hfits : s.whenStrict (x.toNat + len.toNat ≤ 240 ∧ y.toNat < 128)) :
    firstError (commandChecks s (.hline x y len pat)) = none :=
  strictCheck_passes (hlineFits_iff _ _ _) hfits

/-- Settles O31: HLINE is `HLine` of its operands. -/
theorem hlineCompletes : Obligations.HlineCompletes := by
  unfold Obligations.HlineCompletes
  intro x y len pat s h hfits
  obtain ⟨u, hd⟩ := hLine_drawsBy h x.isLt y.isLt len.isLt.le pat
  have hcompletes := hd.completes (i := .hline x y len pat) h nofun (hline_checks hfits)
  simp only [hLineEventCount_eq_zero_iff] at hcompletes
  exact hcompletes

/-- Settles O32: the events of `HLine` are as many as `hLineEventCount`, which is evaluated in each case. -/
theorem hlineEventCounts : Obligations.HlineEventCounts := by
  unfold Obligations.HlineEventCounts
  intro x y len pat s t h hfits ht
  obtain ⟨u, hd⟩ := hLine_drawsBy h x.isLt y.isLt len.isLt.le pat
  obtain ⟨t', ht', -, -, -, htrace, -⟩ := hd.completes (i := .hline x y len pat) h nofun (hline_checks hfits)
  cases ht'.symm.trans ht
  have hoff : x.toNat % 8 < 8 := Nat.mod_lt _ (by omega)
  simp only [State.eventsSince_of_append htrace, hd.count]
  refine ⟨fun hn => (hLineEventCount_eq_zero_iff _ _).2 hn, fun ⟨ho, hn, hr⟩ => ?_, fun ⟨ho, hn, hr⟩ => ?_, fun ⟨ho, hn, hr⟩ => ?_,
    fun ⟨ho, hn, hr⟩ => ?_, fun ⟨ho, hn, hr⟩ => ?_, fun ⟨ho, hn, hr⟩ => ?_⟩
  · rw [ho, hLineEventCount_aligned hn, if_neg (by omega), if_pos hr, Nat.add_zero]
  · rw [ho, hLineEventCount_aligned hn, if_pos (by omega), if_neg (by omega)]
  · rw [ho, hLineEventCount_aligned (by omega), if_neg (by omega), if_neg hr]
    omega
  · rw [hLineEventCount_one_byte ho hn hr]
  · rw [hLineEventCount_unaligned ho hoff hn, if_pos (by omega), Nat.add_zero]
  · rw [hLineEventCount_unaligned ho hoff hn, if_neg (by omega)]
    omega

/-! ## The vertical line -/

/-- `VLine` from any byte coordinates, for up to 256 pixels. -/
theorem vLine_drawsBy (h : s.ready) {x y len : Nat} (hx : x < 256) (hy : y < 256) (hlen : len ≤ 256) (c : Colour) :
    ∃ t, DrawsBy (vLine x y len c) s (vlineTrace s.par x y len c) (len * 6) (fun q => ∃ k < len, q = pixelIndex x (y + k))
      (fun _ => c.bit) t :=
  (issues_vLine _ _ _ _).drawsBy h (vLine_draws h.noWait h.distinct _ _ _ _ (by omega))

/-- Settles O33: VLINE is `VLine` of its operands. -/
theorem vlineCompletes : Obligations.VlineCompletes := by
  unfold Obligations.VlineCompletes
  intro c x y len s h hfits
  obtain ⟨u, hd⟩ := vLine_drawsBy h x.isLt y.isLt len.isLt.le c
  have hcompletes := hd.completes (i := .vline c x y len) h nofun (strictCheck_passes (vlineFits_iff _ _ _) hfits)
  have hzero : len.toNat * 6 = 0 ↔ len.toNat = 0 := by omega
  simp only [hzero] at hcompletes
  cases c <;> exact hcompletes

/-! ## The generic line -/

theorem verticalLine_apply (x y0 y1 : Nat) (c : Colour) (s : State) :
    verticalLine x y0 y1 c s =
      vLine x (min y0 y1) (max y0 y1 - min y0 y1 + 1) (verticalColour s.par.lineDx0Invert c) s := by
  rw [verticalLine, show y1 - y0 + (y0 - y1) = max y0 y1 - min y0 y1 by omega]

theorem canonicalLine_swap_of_column (x y0 y1 : Nat) (c : Colour) : canonicalLine x y0 x y1 c = canonicalLine x y1 x y0 c := by
  unfold canonicalLine
  by_cases hy : y0 = y1
  · rw [hy]
  · rw [if_neg hy, if_neg (Ne.symm hy), if_pos rfl, if_pos rfl]
    funext s
    rw [verticalLine_apply, verticalLine_apply, min_comm, max_comm]

/-- `lineEvents` does not depend on the order of the end points (R165 (b)). -/
theorem lineEvents_swap (x0 y0 x1 y1 : Nat) (c : Colour) : lineEvents x0 y0 x1 y1 c = lineEvents x1 y1 x0 y0 c := by
  unfold lineEvents
  rcases lt_trichotomy x0 x1 with hlt | rfl | hgt
  · rw [if_neg hlt.not_gt, if_pos hlt]
  · rw [if_neg (lt_irrefl x0), if_neg (lt_irrefl x0), canonicalLine_swap_of_column]
  · rw [if_pos hgt, if_neg hgt.not_gt]

theorem lineFits_swap (x0 y0 x1 y1 : Nat) : lineFits x0 y0 x1 y1 = lineFits x1 y1 x0 y0 := by
  unfold lineFits
  exact Bool.and_comm _ _

/-- Settles O37: the check and the events are the same. -/
theorem lineIsSymmetric : Obligations.LineIsSymmetric := by
  unfold Obligations.LineIsSymmetric
  intro c x0 y0 x1 y1 s
  rw [exec_eq_runCommand, exec_eq_runCommand]
  simp only [commandChecks, commandEvents, lineFits_swap x0.toNat, lineEvents_swap x0.toNat]
  cases c <;> rfl

/-- The horizontal delegation of LINE (R158, R161), from the left end point. -/
theorem lineEvents_row (x0 y x1 : Nat) (c : Colour) :
    lineEvents x0 y x1 y c = hLine (min x0 x1) y (max x0 x1 - min x0 x1 + 1) (solid c) := by
  unfold lineEvents canonicalLine
  split
  · rw [if_pos rfl, min_eq_right (by omega), max_eq_left (by omega)]
  · rw [if_pos rfl, min_eq_left (by omega), max_eq_right (by omega)]

/-- The vertical delegation of LINE (R158, R161). -/
theorem lineEvents_column {y0 y1 : Nat} (x : Nat) (hy : y0 ≠ y1) (c : Colour) : lineEvents x y0 x y1 c = verticalLine x y0 y1 c := by
  rw [lineEvents, if_neg (lt_irrefl x), canonicalLine, if_neg hy, if_pos rfl]

/-- The points of a LINE on two rows and columns, from its left end point (R160, R162). -/
def diagonalPoints (x0 y0 x1 y1 : Nat) : List (Nat × Nat) :=
  if x1 < x0 then linePoints x1 y1 x0 y0 else linePoints x0 y0 x1 y1

theorem lineEvents_diagonal {x0 y0 x1 y1 : Nat} (hx : x0 ≠ x1) (hy : y0 ≠ y1) (c : Colour) :
    lineEvents x0 y0 x1 y1 c = drawPoints c (diagonalPoints x0 y0 x1 y1) := by
  unfold lineEvents diagonalPoints
  split
  · rw [canonicalLine, if_neg hy.symm, if_neg hx.symm]
  · rw [canonicalLine, if_neg hy, if_neg hx]

theorem line_checks {c : Colour} {x0 y0 x1 y1 : Byte}
    (hfits : s.whenStrict (x0.toNat < 240 ∧ x1.toNat < 240 ∧ y0.toNat < 128 ∧ y1.toNat < 128)) :
    firstError (commandChecks s (.line c x0 y0 x1 y1)) = none :=
  strictCheck_passes (lineFits_iff _ _ _ _) hfits

/-- A LINE whose events draw something. -/
theorem exec_line {c : Colour} {x0 y0 x1 y1 : Byte} (h : s.ready)
    (hfits : s.whenStrict (x0.toNat < 240 ∧ x1.toNat < 240 ∧ y0.toNat < 128 ∧ y1.toNat < 128)) {es : List Event} {n : Nat}
    {P Q : Nat → Prop} {v w : Nat → Bool} (hd : DrawsBy (lineEvents x0.toNat y0.toNat x1.toNat y1.toNat c) s es n P v t) (hn : n ≠ 0)
    (hPQ : ∀ q, P q ↔ Q q) (hvw : ∀ q, Q q → v q = w q) :
    ∃ u, exec (.line c x0 y0 x1 y1) s = .next u ∧ Completed 5 s u ∧ u.ndr = true ∧ u.trace = s.trace ++ es ∧ Paints s u Q w := by
  obtain ⟨u, hu, hcompleted, hndr, -, htrace, hpaints⟩ := hd.completes (i := .line c x0 y0 x1 y1) h nofun (line_checks hfits)
  rw [if_neg hn] at hndr
  exact ⟨u, hu, by cases c <;> exact hcompleted, hndr, htrace, hpaints.congr hPQ hvw⟩

/-- Settles O34: the run of the horizontal line is the row segment, and the bits of a solid byte are the colour. -/
theorem lineHorizontal : Obligations.LineHorizontal := by
  unfold Obligations.LineHorizontal
  intro c x0 y x1 s h hfits
  have hx0 := x0.isLt
  have hx1 := x1.isLt
  obtain ⟨u, hd⟩ := hLine_drawsBy h (x := min x0.toNat x1.toNat) (len := max x0.toNat x1.toNat - min x0.toNat x1.toNat + 1)
    (by omega) y.isLt (by omega) (solid c)
  rw [← lineEvents_row] at hd
  refine exec_line h (fun hstrict => ?_) hd (hLineEventCount_pos (Nat.succ_pos _)).ne' (fun q => ?_)
    (fun q _ => solid_getLsbD c (Nat.mod_lt q (by omega)))
  · obtain ⟨hc0, hc1, hr⟩ := hfits hstrict
    exact ⟨hc0, hc1, hr, hr⟩
  · simp only [pixelIndex_eq]
    omega

theorem verticalColour_bit (invert : Bool) (c : Colour) :
    (verticalColour invert c).bit = if invert then !c.bit else c.bit := by
  cases invert <;> cases c <;> rfl

/-- Settles O35: the rows of the vertical line are those between the end points. -/
theorem lineVertical : Obligations.LineVertical := by
  unfold Obligations.LineVertical
  intro c x y0 y1 s hne h hfits
  have hy0 := y0.isLt
  have hy1 := y1.isLt
  have hrows : y0.toNat ≠ y1.toNat := fun heq => hne (BitVec.eq_of_toNat_eq heq)
  obtain ⟨u, hd⟩ := vLine_drawsBy h (y := min y0.toNat y1.toNat) (len := max y0.toNat y1.toNat - min y0.toNat y1.toNat + 1)
    x.isLt (by omega) (by omega) (verticalColour s.par.lineDx0Invert c)
  have hruns : lineEvents x.toNat y0.toNat x.toNat y1.toNat c s = .done () u := by
    rw [lineEvents_column x.toNat hrows c, verticalLine_apply, hd.runs]
  refine exec_line h (fun hstrict => ?_) { hd with runs := hruns } (by omega) (fun q => ?_) (fun _ _ => verticalColour_bit _ _)
  · obtain ⟨hc, hr0, hr1⟩ := hfits hstrict
    exact ⟨hc, hc, hr0, hr1⟩
  · constructor
    · rintro ⟨k, hk, hq⟩
      exact ⟨_, Nat.le_add_right _ k, by omega, hq⟩
    · rintro ⟨Y, hlow, hhigh, hq⟩
      exact ⟨Y - min y0.toNat y1.toNat, by omega, by rw [Nat.add_sub_cancel' hlow, hq]⟩

/-- A diagonal LINE has points, and none lies past its end points (R163 (c)). -/
theorem diagonalPoints_box {x0 y0 x1 y1 : Nat} (hx : x0 ≠ x1) (hy : y0 ≠ y1) :
    diagonalPoints x0 y0 x1 y1 ≠ [] ∧
      ∀ p ∈ diagonalPoints x0 y0 x1 y1, p.1 ≤ max x0 x1 ∧ p.2 ≤ max y0 y1 := by
  unfold diagonalPoints
  split
  next hlt =>
    refine ⟨(linePoints_walk hlt hy.symm).ne_nil, fun p hp => ?_⟩
    obtain ⟨-, hcolumn, -, hrow⟩ := linePoints_box hlt hy.symm hp
    omega
  next hlt =>
    have hlt : x0 < x1 := by omega
    refine ⟨(linePoints_walk hlt hy).ne_nil, fun p hp => ?_⟩
    obtain ⟨-, hcolumn, -, hrow⟩ := linePoints_box hlt hy hp
    omega

/-- Settles O36: one addressed pixel at each of the stepper's points. -/
theorem lineDiagonal : Obligations.LineDiagonal := by
  unfold Obligations.LineDiagonal
  intro c x0 y0 x1 y1 s hx hy h hfits
  have hcolumns : x0.toNat ≠ x1.toNat := fun heq => hx (BitVec.eq_of_toNat_eq heq)
  have hrows : y0.toNat ≠ y1.toNat := fun heq => hy (BitVec.eq_of_toNat_eq heq)
  obtain ⟨hnil, hbox⟩ := diagonalPoints_box hcolumns hrows
  obtain ⟨u, hd⟩ := (issues_drawPoints c _).drawsBy h (drawPoints_draws h.noWait h.distinct c _ (fun p hp => by
    obtain ⟨hcolumn, hrow⟩ := hbox p hp
    have := x0.isLt
    have := x1.isLt
    have := y0.isLt
    have := y1.isLt
    omega))
  rw [← lineEvents_diagonal hcolumns hrows] at hd
  exact exec_line h hfits hd (by simpa using hnil) (fun _ => Iff.rfl) (fun _ _ => rfl)

end Sys2Proof.Machine
end

section
/-! PROOFS. Drawing commands with nothing to draw (R154, R157, R182, R183, R186 (e), R208 (a)): their events are none at all, so no
busy-wait is made either. -/

namespace Sys2Proof.Machine

/-! ## Routines with nothing to draw -/

theorem hLine_zero (x y : Nat) (p : Byte) : hLine x y 0 p = skip := if_pos rfl

theorem forRows_skip (k n : Nat) : forRows (fun _ => skip) k n = skip := by
  induction n generalizing k with
  | zero => rfl
  | succ n ih =>
    rw [forRows, ih]
    rfl

/-- Horizontal lines of no pixels, or no lines at all. -/
theorem hLineRows_nothing {x y w h : Nat} (p : Nat → Byte) (hempty : w = 0 ∨ h = 0) :
    forRows (fun k => hLine x (y + k) w (p k)) 0 h = skip := by
  rcases hempty with rfl | rfl
  · simp only [hLine_zero, forRows_skip]
  · rfl

theorem rectEvents_nothing {x y w h : Nat} (c : Colour) (hempty : w = 0 ∨ h = 0) : rectEvents x y w h c = skip := if_pos hempty

theorem textEvents_nothing {rom : Memory} {fast : Bool} {x y nch : Nat} {fp sp : Word}
    (hempty : nch = 0 ∨ glyphWidth rom fp = 0 ∨ glyphHeight rom fp = 0) : textEvents rom fast x y fp sp nch = skip := if_pos hempty

/-! ## The commands -/

/-- An initialised sequencer executes a command that passes its checks and has no events. -/
theorem exec_nothing {s : State} {i : Instr} (hinited : s.inited = true) (hi : i ≠ .init) (hc : firstError (commandChecks s i) = none)
    (hskip : commandEvents s.rom s.par.fastPath8x16 i = skip) :
    exec i s = .next { s with cp := s.cp + (encode i).length, activity := .idle } := by
  rw [exec_eq_runCommand, runCommand_done (by simp [hinited, hi]) hc (by rw [hskip, skip_eq])]

theorem toNat_eq_zero_of_eq {b : Byte} (h : b = 0) : b.toNat = 0 := by rw [h]; rfl

/-- PATFILL's two checks (R231, R232). -/
theorem patfill_checks {s : State} {x y w h : Byte} {pp : Word}
    (hfits : s.whenStrict (x.toNat + w.toNat ≤ 240 ∧ y.toNat + h.toNat ≤ 128 ∧
      (romRead s.rom pp).toNat ∈ [0, 1, 3, 7, 15, 31, 63, 127, 255])) :
    firstError (commandChecks s (.patfill x y w h pp)) = none := by
  refine firstError_strictChecks_eq_none (fun hstrict => ?_)
  obtain ⟨hx, hy, hmask⟩ := hfits hstrict
  simpa using ⟨(rectFits_iff _ _ _ _).2 ⟨hx, hy⟩, (patternConforms_iff _).2 hmask⟩

/-- Settles O47: the events of each command are skipped. -/
theorem nothingToDraw : Obligations.NothingToDraw := by
  unfold Obligations.NothingToDraw
  intro s hinited
  refine ⟨fun x y pat hfits => ?_, fun c x y hfits => ?_, fun c x y w h hfits hempty => ?_, fun x y w h pp hfits hempty => ?_,
    fun x y fp sp nch hfits hempty => ?_⟩
  · exact exec_nothing (i := .hline x y 0 pat) hinited nofun (strictCheck_passes (hlineFits_iff _ _ _) hfits) (hLine_zero _ _ _)
  · have hexec := exec_nothing (i := .vline c x y 0) hinited nofun (strictCheck_passes (vlineFits_iff _ _ _) hfits) rfl
    cases c <;> exact hexec
  · have hempty : w.toNat = 0 ∨ h.toNat = 0 := hempty.imp toNat_eq_zero_of_eq toNat_eq_zero_of_eq
    have hchecks := strictCheck_passes (e := .bounds) (rectFits_iff _ _ _ _) hfits
    have hrect := exec_nothing (i := .rect c x y w h) hinited nofun hchecks (rectEvents_nothing c hempty)
    have hfill := exec_nothing (i := .fillrect c x y w h) hinited nofun hchecks (hLineRows_nothing _ hempty)
    cases c <;> exact ⟨hrect, hfill⟩
  · exact exec_nothing (i := .patfill x y w h pp) hinited nofun (patfill_checks hfits)
      (hLineRows_nothing _ (hempty.imp toNat_eq_zero_of_eq toNat_eq_zero_of_eq))
  · exact exec_nothing (i := .text x y fp sp nch) hinited nofun (strictCheck_passes (textFits_iff _ _ _ _ _) hfits)
      (textEvents_nothing (hempty.imp toNat_eq_zero_of_eq (Or.imp toNat_eq_zero_of_eq toNat_eq_zero_of_eq)))

end Sys2Proof.Machine
end

section
/-! PROOFS. The rectangle commands (R180 to R186) on a ready sequencer: the outline as four edges in one colour, the fills as loops over
rows where the row drawn last at a pixel wins, and the pattern byte of a row. -/

namespace Sys2Proof.Machine

/-! ## Pieces that draw one picture -/

open Classical in
/-- On any device, a piece of a command issues `n` events and draws `v` on exactly the pixel indexes of `P`. -/
def Draws (m : Seq Unit) (n : Nat) (P : Nat → Prop) (v : Nat → Bool) : Prop :=
  ∀ s : State, s.noWait → s.par.distinct →
    ∃ t, m s = .done () t ∧ Drawn s t n (fun q => if P q then v q else s.dev.mem.pixel q)

section draws

variable {m : Seq Unit} {ms : List (Seq Unit)} {n k : Nat} {P Q : Nat → Prop} {v w : Nat → Bool}

theorem Draws.congr (h : Draws m n P v) (hPQ : ∀ q, P q ↔ Q q) (hvw : ∀ q, Q q → v q = w q) : Draws m n Q w := by
  intro s hs hp
  obtain ⟨t, ht, hd⟩ := h s hs hp
  refine ⟨t, ht, hd.congr rfl (fun q => ?_)⟩
  by_cases hq : Q q
  · rw [if_pos ((hPQ q).2 hq), if_pos hq, hvw q hq]
  · rw [if_neg (mt (hPQ q).1 hq), if_neg hq]

theorem draws_skip (v : Nat → Bool) : Draws skip 0 (fun _ => False) v :=
  fun s _ _ => ⟨s, rfl, (Drawn.nothing s).congr rfl (fun _ => (if_neg id).symm)⟩

/-- Pieces of the same picture, one after another, draw the pixels of each. -/
theorem Draws.cons (h : Draws m n P v) (hms : Draws (inOrder ms) k Q v) : Draws (inOrder (m :: ms)) (n + k) (fun q => P q ∨ Q q) v := by
  intro s hs hp
  obtain ⟨t, ht, hd⟩ := h s hs hp
  obtain ⟨u, hu, he⟩ := hms t (hd.noWait hs) (hd.distinct hp)
  refine ⟨u, by rw [inOrder_done ht, hu], (hd.trans he).congr rfl (fun q => ?_)⟩
  rw [hd.pixel]
  by_cases hQ : Q q
  · rw [if_pos hQ, if_pos (.inr hQ)]
  · by_cases hP : P q
    · rw [if_neg hQ, if_pos hP, if_pos (.inl hP)]
    · rw [if_neg hQ, if_neg hP, if_neg (not_or_intro hP hQ)]

theorem Draws.one (h : Draws m n P v) : Draws (inOrder [m]) n P v :=
  (h.cons (ms := []) (draws_skip v)).congr (fun _ => or_iff_left id) (fun _ _ => rfl)

theorem Draws.onlyIf (h : Draws m n P v) (b : Bool) : Draws (onlyIf b m) (if b then n else 0) (fun q => b = true ∧ P q) v := by
  cases b with
  | true => exact h.congr (fun _ => (and_iff_right rfl).symm) (fun _ _ => rfl)
  | false => exact (draws_skip v).congr (fun _ => by simp) (fun _ _ => rfl)

/-- The run of a horizontal line in one colour (R152). -/
theorem draws_hLine {x y len : Nat} (hb : pixelIndex x y + len < 8 * 65535) (c : Colour) :
    Draws (hLine x y len (solid c)) (hLineEventCount (x % 8) len)
      (fun q => pixelIndex x y ≤ q ∧ q < pixelIndex x y + len) (fun _ => c.bit) := by
  intro s hs hp
  obtain ⟨t, ht, hd⟩ := hLine_draws hs hp x y len (solid c) hb
  exact ⟨t, ht, hd.congr rfl (fun q => by rw [solid_getLsbD c (Nat.mod_lt q (by omega))]; congr)⟩

theorem draws_vLine {x y len : Nat} (hb : 30 * (y + len) + x / 8 < 65536) (c : Colour) :
    Draws (vLine x y len c) (len * 6) (fun q => ∃ k < len, q = pixelIndex x (y + k)) (fun _ => c.bit) := by
  intro s hs hp
  obtain ⟨t, ht, hd⟩ := vLine_draws hs hp x y len c hb
  exact ⟨t, ht, hd.congr rfl (fun q => by congr)⟩

end draws

/-! ## The outline -/

/-- The four edges, the verticals trimmed at both ends and left out where they would be empty or the same, are the border (R182). -/
theorem onOutline_iff_edges {x y w h : Nat} (hw : 0 < w) (hh : 0 < h) (q : Nat) :
    ((pixelIndex x y ≤ q ∧ q < pixelIndex x y + w) ∨
      (2 ≤ h ∧ pixelIndex x (y + h - 1) ≤ q ∧ q < pixelIndex x (y + h - 1) + w) ∨
      (3 ≤ h ∧ ∃ k < h - 2, q = pixelIndex x (y + 1 + k)) ∨
      ((3 ≤ h ∧ 2 ≤ w) ∧ ∃ k < h - 2, q = pixelIndex (x + w - 1) (y + 1 + k))) ↔ OnOutline x y w h q := by
  constructor
  · rintro (⟨hlow, hhigh⟩ | ⟨h2, hlow, hhigh⟩ | ⟨h3, k, hk, rfl⟩ | ⟨⟨h3, h2⟩, k, hk, rfl⟩)
    · rw [pixelIndex_eq] at hlow hhigh
      exact ⟨q - 240 * y, y, by omega, by omega, by omega, by omega, by omega, by rw [pixelIndex_eq]; omega⟩
    · rw [pixelIndex_eq] at hlow hhigh
      exact ⟨q - 240 * (y + h - 1), y + h - 1, by omega, by omega, by omega, by omega, by omega, by rw [pixelIndex_eq]; omega⟩
    · exact ⟨x, y + 1 + k, by omega, by omega, by omega, by omega, by omega, rfl⟩
    · exact ⟨x + w - 1, y + 1 + k, by omega, by omega, by omega, by omega, by omega, rfl⟩
  · rintro ⟨X, Y, hX0, hX1, hY0, hY1, hborder, rfl⟩
    by_cases htop : Y = y
    · left
      subst htop
      simp only [pixelIndex_eq]
      omega
    by_cases hbottom : Y + 1 = y + h
    · right; left
      obtain rfl : Y = y + h - 1 := by omega
      simp only [pixelIndex_eq]
      omega
    have hrow : y + 1 + (Y - y - 1) = Y := by omega
    by_cases hleft : X = x
    · right; right; left
      exact ⟨by omega, Y - y - 1, by omega, by rw [hleft, hrow]⟩
    · right; right; right
      obtain rfl : X = x + w - 1 := by omega
      exact ⟨by omega, Y - y - 1, by omega, by rw [hrow]⟩

/-- The events of RECT draw the border, and there are none only for an empty rectangle. -/
theorem rectEvents_draws {x y w h : Nat} (hx : x < 256) (hy : y < 256) (hw : w < 256) (hh : h < 256) (c : Colour) :
    ∃ n, (n = 0 ↔ w = 0 ∨ h = 0) ∧ Draws (rectEvents x y w h c) n (OnOutline x y w h) (fun _ => c.bit) := by
  by_cases hempty : w = 0 ∨ h = 0
  · refine ⟨0, by simp [hempty], ?_⟩
    rw [rectEvents_nothing c hempty]
    refine (draws_skip _).congr (fun q => ?_) (fun _ _ => rfl)
    rw [false_iff]
    rintro ⟨X, Y, hX0, hX1, hY0, hY1, -⟩
    omega
  · have hw0 : 0 < w := by omega
    have htop := draws_hLine (x := x) (y := y) (len := w) (by rw [pixelIndex_eq]; omega) c
    have hbottom := draws_hLine (x := x) (y := y + h - 1) (len := w) (by rw [pixelIndex_eq]; omega) c
    have hleft := draws_vLine (x := x) (y := y + 1) (len := h - 2) (by omega) c
    have hright := draws_vLine (x := x + w - 1) (y := y + 1) (len := h - 2) (by omega) c
    have hpos := hLineEventCount_pos (off := x % 8) hw0
    have hedges := htop.cons ((hbottom.onlyIf (decide (2 ≤ h))).cons ((hleft.onlyIf (decide (3 ≤ h))).cons
      (hright.onlyIf (decide (3 ≤ h) && decide (2 ≤ w))).one))
    rw [rectEvents, if_neg hempty]
    refine ⟨_, iff_of_false (Nat.add_pos_left hpos _).ne' hempty, hedges.congr (fun q => ?_) (fun _ _ => rfl)⟩
    simp only [Bool.and_eq_true, decide_eq_true_eq]
    exact onOutline_iff_edges hw0 (by omega) q

/-! ## Loops over rows -/

theorem lastOf_eq_find? (R : Nat → Nat → Bool) (q k n : Nat) :
    lastOf R q k n = (List.range' k n).reverse.find? (fun j => R j q) := by
  induction n generalizing k with
  | zero => rfl
  | succ n ih =>
    rw [lastOf, ih, List.range'_succ, List.reverse_cons, List.find?_append, List.find?_singleton]

/-- The row drawn last at a pixel index, in the two forms. -/
theorem lastRowAt_eq_lastOf (x y w h q : Nat) :
    lastRowAt x y w h q = lastOf (fun k q => decide (pixelIndex x (y + k) ≤ q ∧ q < pixelIndex x (y + k) + w)) q 0 h := by
  rw [lastRowAt, lastOf_eq_find?, List.range_eq_range']

theorem lastRowAt_eq_some {x y w h q k : Nat} (hk : lastRowAt x y w h q = some k) :
    k < h ∧ pixelIndex x (y + k) ≤ q ∧ q < pixelIndex x (y + k) + w := by
  rw [lastRowAt_eq_lastOf] at hk
  obtain ⟨-, hlt, hrun, -⟩ := lastOf_eq_some hk
  exact ⟨by omega, by simpa using hrun⟩

/-- The rectangle is the union of its rows. -/
theorem inRect_iff_rows {x y w h q : Nat} :
    InRect x y w h q ↔ ∃ k < h, pixelIndex x (y + k) ≤ q ∧ q < pixelIndex x (y + k) + w := by
  simp only [InRect, pixelIndex_eq]
  constructor
  · rintro ⟨X, Y, hX0, hX1, hY0, hY1, hq⟩
    exact ⟨Y - y, by omega, by omega, by omega⟩
  · rintro ⟨k, hk, hlow, hhigh⟩
    exact ⟨q - 240 * (y + k), y + k, by omega, by omega, by omega, by omega, by omega⟩

/-- A pixel index lies in the rectangle exactly when some row was drawn last there. -/
theorem inRect_iff_lastRowAt {x y w h q : Nat} : InRect x y w h q ↔ ∃ k, lastRowAt x y w h q = some k := by
  rw [inRect_iff_rows]
  constructor
  · rintro ⟨k, hk, hrun⟩
    rw [← Option.isSome_iff_exists, lastRowAt, List.find?_isSome]
    exact ⟨k, by simpa using hk, by simpa using hrun⟩
  · rintro ⟨k, hk⟩
    exact ⟨k, lastRowAt_eq_some hk⟩

theorem not_inRect_of_lastRowAt {x y w h q : Nat} (hk : lastRowAt x y w h q = none) : ¬ InRect x y w h q := by
  simp [inRect_iff_lastRowAt, hk]

/-- On the surface the row drawn last at a pixel index is its own row (R184). -/
theorem lastRowAt_onSurface {x y w h q k : Nat} (hx : x + w ≤ 240) (hk : lastRowAt x y w h q = some k) : y + k = q / 240 := by
  obtain ⟨-, hlow, hhigh⟩ := lastRowAt_eq_some hk
  rw [pixelIndex_eq] at hlow hhigh
  omega

/-- The bit a fill leaves at a pixel index of its rectangle, row `Y` being drawn in the byte `p Y`: that of the row drawn last there. -/
def fillBit (x y w h : Nat) (p : Nat → Byte) (q : Nat) : Bool :=
  match lastRowAt x y w h q with
  | some k => (p (y + k)).getLsbD (q % 8)
  | none => false

theorem fillBit_of_lastRowAt {x y w h q k : Nat} (p : Nat → Byte) (hk : lastRowAt x y w h q = some k) :
    fillBit x y w h p q = (p (y + k)).getLsbD (q % 8) := by
  rw [fillBit, hk]

theorem fillBit_onSurface {x y w h q : Nat} (p : Nat → Byte) (hx : x + w ≤ 240) (hq : InRect x y w h q) :
    fillBit x y w h p q = (p (q / 240)).getLsbD (q % 8) := by
  obtain ⟨k, hk⟩ := inRect_iff_lastRowAt.1 hq
  rw [fillBit_of_lastRowAt p hk, lastRowAt_onSurface hx hk]

theorem fillBit_solid {x y w h q : Nat} (c : Colour) (hq : InRect x y w h q) : fillBit x y w h (fun _ => solid c) q = c.bit := by
  obtain ⟨k, hk⟩ := inRect_iff_lastRowAt.1 hq
  rw [fillBit_of_lastRowAt _ hk, solid_getLsbD c (Nat.mod_lt q (by omega))]

theorem draws_hLineRows {x y w h : Nat} (hb : pixelIndex x (y + h) + w < 8 * 65535) (p : Nat → Byte) :
    Draws (forRows (fun k => hLine x (y + k) w (p (y + k))) 0 h) (h * hLineEventCount (x % 8) w) (InRect x y w h)
      (fillBit x y w h p) := by
  intro s hs hp
  obtain ⟨t, ht, hd⟩ := hLineRows_draws hs hp x y w h (fun k => p (y + k)) hb
  refine ⟨t, ht, hd.congr rfl (fun q => ?_)⟩
  rw [← lastRowAt_eq_lastOf]
  cases hk : lastRowAt x y w h q with
  | some k => rw [if_pos (inRect_iff_lastRowAt.2 ⟨k, hk⟩), fillBit_of_lastRowAt p hk]
  | none => rw [if_neg (not_inRect_of_lastRowAt hk)]

theorem hLineRows_count_eq_zero_iff (off w h : Nat) : h * hLineEventCount off w = 0 ↔ w = 0 ∨ h = 0 := by
  rw [Nat.mul_eq_zero, hLineEventCount_eq_zero_iff, or_comm]

/-! ## Patterns -/

/-- A conforming row mask is one below a power of two (R73). -/
theorem rowMask_eq_two_pow_sub_one {m : Nat} (hm : m ∈ [0, 1, 3, 7, 15, 31, 63, 127, 255]) : ∃ j, m = 2 ^ j - 1 := by
  simp only [List.mem_cons, List.not_mem_nil, or_false] at hm
  rcases hm with rfl | rfl | rfl | rfl | rfl | rfl | rfl | rfl | rfl
  exacts [⟨0, rfl⟩, ⟨1, rfl⟩, ⟨2, rfl⟩, ⟨3, rfl⟩, ⟨4, rfl⟩, ⟨5, rfl⟩, ⟨6, rfl⟩, ⟨7, rfl⟩, ⟨8, rfl⟩]

/-- The tile row of the row `2 ^ j` further down is the same (R186 (a)). -/
theorem and_rowMask_add (i j : Nat) : (i + (2 ^ j - 1 + 1)) &&& (2 ^ j - 1) = i &&& (2 ^ j - 1) := by
  rw [Nat.sub_add_cancel Nat.one_le_two_pow, Nat.and_two_pow_sub_one_eq_mod, Nat.and_two_pow_sub_one_eq_mod, Nat.add_mod_right]

theorem patternByte_add_rowCount {rom : Memory} {pp : Word} (i : Nat)
    (hm : (romRead rom pp).toNat ∈ [0, 1, 3, 7, 15, 31, 63, 127, 255]) :
    patternByte rom pp (i + ((romRead rom pp).toNat + 1)) = patternByte rom pp i := by
  obtain ⟨j, hj⟩ := rowMask_eq_two_pow_sub_one hm
  rw [patternByte, patternByte, patternMask, hj, and_rowMask_add]

theorem patternByte_solid {rom : Memory} {pp : Word} {c : Colour}
    (hrows : ∀ r ≤ (romRead rom pp).toNat, romRead rom (pp + 1 + BitVec.ofNat 16 r) = solid c) (i : Nat) :
    patternByte rom pp i = solid c :=
  hrows _ Nat.and_le_right

/-- Settles O42: the row mask takes the row modulo the row count, and no tile row lies past the mask. -/
theorem patternProperties : Obligations.PatternProperties := by
  unfold Obligations.PatternProperties
  refine ⟨fun rom pp i hm => patternByte_add_rowCount i hm, fun rom pp c x y w h s hrows => ?_⟩
  simp only [patFillEvents, fillEvents, patternByte_solid hrows]

/-! ## The commands -/

section commands

variable {s : State} {i : Instr}

/-- A command that passes its check completes with the picture its events draw and the events they issue. -/
theorem Draws.completes {n : Nat} {P : Nat → Prop} {v : Nat → Bool} {g : Params → Device → List Event} {empty : Prop} [Decidable empty]
    (hd : Draws (commandEvents s.rom s.par.fastPath8x16 i) n P v) (hg : Issues (commandEvents s.rom s.par.fastPath8x16 i) g)
    (h : s.ready) (hi : i ≠ .init) (hc : firstError (commandChecks s i) = none) (hn : n = 0 ↔ empty) :
    ∃ t, exec i s = .next t ∧ Completed (encode i).length s t ∧ t.ndr = (if empty then s.ndr else true) ∧ (empty → t.cur = s.cur) ∧
      t.trace = s.trace ++ g s.par s.dev ∧ Paints s t P v := by
  classical
  obtain ⟨u, hu⟩ := hg.drawsBy h (hd s h.noWait h.distinct)
  simpa only [hn] using hu.completes h hi hc

end commands

theorem encode_rect_length (c : Colour) (x y w h : Byte) : (encode (.rect c x y w h)).length = 5 := by cases c <;> rfl

theorem encode_fillrect_length (c : Colour) (x y w h : Byte) : (encode (.fillrect c x y w h)).length = 5 := by cases c <;> rfl

/-- No row of a rectangle in byte operands reaches the address wrap (R184). -/
theorem pixelIndex_lt_of_bytes (x y w h : Byte) : pixelIndex x.toNat (y.toNat + h.toNat) + w.toNat < 8 * 65535 := by
  rw [pixelIndex_eq]
  omega

/-- Settles O39: the four edges of `rectEvents` are the border. -/
theorem rectCompletes : Obligations.RectCompletes := by
  unfold Obligations.RectCompletes
  intro c x y w h s hready hfits
  obtain ⟨n, hn, hd⟩ := rectEvents_draws x.isLt y.isLt w.isLt h.isLt c
  rw [← encode_rect_length c x y w h]
  exact hd.completes (i := .rect c x y w h) (issues_rectEvents _ _ _ _ _) hready nofun (strictCheck_passes (rectFits_iff _ _ _ _) hfits)
    hn

/-- Settles O40: whichever row was drawn last at a pixel of the rectangle, it was drawn in the one colour. -/
theorem fillrectCompletes : Obligations.FillrectCompletes := by
  unfold Obligations.FillrectCompletes
  intro c x y w h s hready hfits
  have hd := (draws_hLineRows (pixelIndex_lt_of_bytes x y w h) (fun _ => solid c)).congr (fun _ => Iff.rfl)
    (fun _ hq => fillBit_solid c hq)
  rw [← encode_fillrect_length c x y w h]
  exact hd.completes (i := .fillrect c x y w h) (issues_hLineRows _ _ _ _ (fun _ => solid c)) hready nofun
    (strictCheck_passes (rectFits_iff _ _ _ _) hfits) (hLineRows_count_eq_zero_iff _ _ _)

/-- Settles O41: each pixel of the rectangle has the bit of the row drawn last there, which on the surface is its own. -/
theorem patfillCompletes : Obligations.PatfillCompletes := by
  unfold Obligations.PatfillCompletes
  intro x y w h pp s hready hfits rowByte
  have hd := draws_hLineRows (pixelIndex_lt_of_bytes x y w h) rowByte
  obtain ⟨t, ht, hcompleted, hndr, hcur, htrace, hpaints⟩ := hd.completes (i := .patfill x y w h pp) (issues_hLineRows _ _ _ _ _)
    hready nofun (patfill_checks hfits) (hLineRows_count_eq_zero_iff _ _ _)
  refine ⟨t, ht, hcompleted, hndr, hcur, htrace, fun q => ?_,
    fun hx => hpaints.congr (fun _ => Iff.rfl) (fun _ hq => fillBit_onSurface rowByte hx hq)⟩
  obtain ⟨hin, hout, -⟩ := hpaints
  cases hk : lastRowAt x.toNat y.toNat w.toNat h.toNat q with
  | some k => exact (hin q (inRect_iff_lastRowAt.2 ⟨k, hk⟩)).trans (fillBit_of_lastRowAt rowByte hk)
  | none => exact hout q (not_inRect_of_lastRowAt hk)

end Sys2Proof.Machine
end

section
/-! PROOFS. The accumulator of the text blitter in numbers (R203), and the byte-aligned text path, whose rows are those of the general
path (R201). -/

namespace Sys2Proof.Machine

/-! ## The accumulator step (R203) -/

theorem Packer.ok_of_acc_lt {k : Packer} (hpend : k.pend ≤ 7) (hacc : k.acc.toNat < 2 ^ k.pend) : k.Ok :=
  ⟨hpend, fun _ hi => Nat.testBit_lt_two_pow (hacc.trans_le (Nat.pow_le_pow_right (by omega) hi))⟩

/-- The pending bits with the low `nb` bits of `value` above them, as a number. -/
def foldedBits (k : Packer) (value : Byte) (nb : Nat) : Nat := k.acc.toNat + 2 ^ k.pend * (value.toNat % 2 ^ nb)

theorem foldedBits_lt {k : Packer} (hacc : k.acc.toNat < 2 ^ k.pend) (value : Byte) (nb : Nat) :
    foldedBits k value nb < 2 ^ (k.pend + nb) := by
  have hvalue : value.toNat % 2 ^ nb + 1 ≤ 2 ^ nb := Nat.mod_lt _ (Nat.two_pow_pos nb)
  calc foldedBits k value nb
      < 2 ^ k.pend + 2 ^ k.pend * (value.toNat % 2 ^ nb) := Nat.add_lt_add_right hacc _
    _ = 2 ^ k.pend * (value.toNat % 2 ^ nb + 1) := by rw [Nat.mul_succ, Nat.add_comm]
    _ ≤ 2 ^ k.pend * 2 ^ nb := Nat.mul_le_mul_left _ hvalue
    _ = 2 ^ (k.pend + nb) := (Nat.pow_add 2 _ _).symm

theorem foldedAcc_toNat {k : Packer} (hpend : k.pend ≤ 7) (hacc : k.acc.toNat < 2 ^ k.pend) (value : Byte) {nb : Nat} (hnb : nb ≤ 8) :
    (foldedAcc k value nb).toNat = foldedBits k value nb := by
  apply Nat.eq_of_testBit_eq
  intro i
  have hbit : (foldedAcc k value nb).toNat.testBit i = _ := foldedAcc_getLsbD (Packer.ok_of_acc_lt hpend hacc) value hnb i
  rw [hbit, foldedBits, Nat.add_comm k.acc.toNat, Nat.testBit_two_pow_mul_add _ hacc, Nat.testBit_mod_two_pow]
  by_cases hlow : i < k.pend
  · rw [if_pos hlow, if_pos hlow]
    rfl
  · rw [if_neg hlow, if_neg hlow]
    by_cases hmid : i < k.pend + nb
    · rw [if_pos hmid, decide_eq_true (by omega), Bool.true_and]
      rfl
    · rw [if_neg hmid, decide_eq_false (by omega), Bool.false_and]

/-- With fewer than eight bits in all, they stay pending. -/
theorem fold_pending {k : Packer} {nb : Nat} (h : k.pend + nb < 8) (value : Byte) :
    fold k value nb = yield ⟨k.a, foldedAcc k value nb, k.pend + nb⟩ := if_neg (by omega)

/-- With eight bits or more, the low eight are emitted. -/
theorem fold_emits {k : Packer} {nb : Nat} (h : 8 ≤ k.pend + nb) (value : Byte) :
    fold k value nb = andThen (writeData ((foldedAcc k value nb).extractLsb' 0 8))
      (fun _ => yield ⟨k.a + 1, foldedAcc k value nb >>> 8, k.pend + nb - 8⟩) := if_pos h

theorem extractLsb'_zero_eq_ofNat (acc : BitVec 16) : acc.extractLsb' 0 8 = BitVec.ofNat 8 acc.toNat := by
  apply BitVec.eq_of_toNat_eq
  simp

/-- Settles O46, by whether the bits folded in complete a byte. -/
theorem foldInvariant : Obligations.FoldInvariant := by
  unfold Obligations.FoldInvariant
  intro k value nb s hs hp hir hpend hacc hnb bits
  have hbits : (foldedAcc k value nb).toNat = bits := foldedAcc_toNat hpend hacc value hnb
  have hlt : bits < 2 ^ (k.pend + nb) := foldedBits_lt hacc value nb
  have hlt15 : bits < 2 ^ 15 := hlt.trans_le (Nat.pow_le_pow_right (by omega) (by omega))
  rcases Nat.lt_or_ge (k.pend + nb) 8 with h8 | h8
  · refine ⟨_, s, by rw [fold_pending h8, yield_eq], hlt15, ?_⟩
    dsimp only
    rw [Nat.div_eq_of_lt h8, Nat.mod_eq_of_lt h8, hbits]
    exact ⟨by omega, hlt, rfl, by simp, fun _ => ⟨rfl, rfl⟩, fun h => by omega⟩
  · refine ⟨_, _, by rw [fold_emits h8, andThen_done (writeData_noWait hs hp hir _), yield_eq], hlt15, ?_⟩
    have hrest : bits / 256 < 2 ^ (k.pend + nb - 8) := by
      rw [Nat.div_lt_iff_lt_mul (by omega), show 256 = 2 ^ 8 from rfl, ← Nat.pow_add, Nat.sub_add_cancel h8]
      exact hlt
    dsimp only
    rw [BitVec.toNat_ushiftRight, Nat.shiftRight_eq_div_pow, extractLsb'_zero_eq_ofNat, hbits]
    refine ⟨by omega, hrest, by omega, by rw [show (k.pend + nb) / 8 = 1 by omega]; rfl, fun h => by omega,
      fun _ => ⟨rfl, rfl, Device.store_dc _ _, ?_, fun b hb => ?_⟩⟩
    · rw [Device.store_mem, Memory.read_write_same]
    · rw [Device.store_mem, Memory.readAt_write, if_neg hb.symm]

/-! ## The byte-aligned path (R201) -/

theorem yield_andThen {α β : Type} (a : α) (f : α → Seq β) : andThen (yield a) f = f a := rfl

theorem andThen_skip (m : Seq Unit) : andThen m (fun _ => skip) = m := by
  funext s
  simp only [andThen]
  cases m s <;> rfl

/-- With nothing pending a whole byte is emitted unchanged. -/
theorem fold_wholeByte (a : Word) (value : Byte) :
    fold ⟨a, 0, 0⟩ value 8 = andThen (writeData value) (fun _ => yield ⟨a + 1, 0, 0⟩) := by
  have hacc : (foldedAcc ⟨a, 0, 0⟩ value 8).toNat = value.toNat := by
    rw [foldedAcc_toNat (by simp) (by simp) _ (le_refl 8)]
    show 0 + 1 * (value.toNat % 256) = value.toNat
    omega
  have hrest : foldedAcc ⟨a, 0, 0⟩ value 8 >>> 8 = 0 := by
    apply BitVec.eq_of_toNat_eq
    rw [BitVec.toNat_ushiftRight, hacc, Nat.shiftRight_eq_div_pow, Nat.div_eq_of_lt value.isLt]
    rfl
  rw [fold_emits (by simp), extractLsb'_zero_eq_ofNat, hacc, hrest, BitVec.ofNat_toNat, BitVec.setWidth_eq]
  rfl

theorem stringRowChunks_eight_succ (rom : Memory) (fp sp : Word) (gh r j n : Nat) :
    stringRowChunks rom fp sp 8 gh r j (n + 1) =
      (romRead rom (glyphBase fp 8 gh (glyphIndex rom sp j) + BitVec.ofNat 16 r), 8) :: stringRowChunks rom fp sp 8 gh r (j + 1) n :=
  rfl

/-- Folding the chunks of an 8-wide font from a byte boundary on streams the row bytes and leaves no tail. -/
theorem foldChunks_wholeBytes (rom : Memory) (fp sp : Word) (gh r j n : Nat) (a : Word) :
    andThen (foldChunks (stringRowChunks rom fp sp 8 gh r j n) ⟨a, 0, 0⟩) textTail = writeRowBytes rom fp sp 8 gh r j n := by
  induction n generalizing j a with
  | zero => rfl
  | succ n ih =>
    rw [stringRowChunks_eight_succ, foldChunks, fold_wholeByte, andThen_assoc, andThen_assoc]
    simp only [yield_andThen, ih, writeRowBytes, inOrder, andThen_skip]

theorem fastTextRow_eq_textRow (rom : Memory) (fp sp : Word) (gh r nch : Nat) (a : Word) :
    fastTextRow rom fp sp 8 gh r nch a = textRow a 0 (stringRowChunks rom fp sp 8 gh r 0 nch) := by
  rw [textRow, textHead, if_pos rfl, yield_andThen, foldChunks_wholeBytes, fastTextRow]

theorem fastPathApplies_iff (fast : Bool) (gw gh x : Nat) :
    fastPathApplies fast gw gh x = true ↔ fast = true ∧ gw = 8 ∧ gh = 16 ∧ x % 8 = 0 := by
  simp [fastPathApplies, and_assoc]

/-- Row `r` of a string, on the general path. -/
def textRowAt (rom : Memory) (x y : Nat) (fp sp : Word) (nch r : Nat) : Seq Unit :=
  textRow (addr x (y + r)) (x % 8) (stringRowChunks rom fp sp (glyphWidth rom fp) (glyphHeight rom fp) r 0 nch)

/-- TEXT is its rows on the general path, whichever path is taken (R201, R205). -/
theorem textEvents_eq_rows (rom : Memory) (fast : Bool) (x y : Nat) (fp sp : Word) (nch : Nat) :
    textEvents rom fast x y fp sp nch =
      if nch * glyphWidth rom fp = 0 then skip else forRows (textRowAt rom x y fp sp nch) 0 (glyphHeight rom fp) := by
  by_cases hn : nch * glyphWidth rom fp = 0
  · rw [if_pos hn, textEvents_nothing ((Nat.mul_eq_zero.1 hn).imp_right .inl)]
  rw [if_neg hn]
  by_cases hh : glyphHeight rom fp = 0
  · rw [textEvents_nothing (.inr (.inr hh)), hh]
    rfl
  have hdrawn : ¬ (nch = 0 ∨ glyphWidth rom fp = 0 ∨ glyphHeight rom fp = 0) := by
    rw [Nat.mul_eq_zero] at hn
    tauto
  rw [textEvents, if_neg hdrawn]
  by_cases hfast : fastPathApplies fast (glyphWidth rom fp) (glyphHeight rom fp) x = true
  · obtain ⟨-, hgw, -, hx⟩ := (fastPathApplies_iff _ _ _ _).1 hfast
    rw [if_pos hfast]
    congr 1
    funext r
    rw [textRowAt, hgw, hx, fastTextRow_eq_textRow]
  · rw [if_neg hfast]
    rfl

/-- Settles O45: either way the rows are those of the general path. -/
theorem fastPathIsNotObservable : Obligations.FastPathIsNotObservable := by
  unfold Obligations.FastPathIsNotObservable
  intro rom x y fp sp nch s
  rw [textEvents_eq_rows, textEvents_eq_rows]

end Sys2Proof.Machine
end

section
/-! PROOFS. TEXT (R205 to R208) on a ready sequencer: each row draws and issues its glyph bits, and the rows are a loop where the row drawn
last at a pixel wins. -/

namespace Sys2Proof.Machine

/-! ## Loops over the rows of a rectangle -/

/-- The bit at a pixel index when row `k` of the rectangle has bit `v k q` there: that of the row drawn last. -/
def lastRowBit (x y w h : Nat) (v : Nat → Nat → Bool) (q : Nat) : Bool :=
  match lastRowAt x y w h q with
  | some k => v k q
  | none => false

theorem lastRowBit_of_lastRowAt {x y w h q k : Nat} (v : Nat → Nat → Bool) (hk : lastRowAt x y w h q = some k) :
    lastRowBit x y w h v q = v k q := by
  rw [lastRowBit, hk]

/-- On the surface each pixel of the rectangle has the bit of its own row. -/
theorem lastRowBit_onSurface {x y w h i R : Nat} (v : Nat → Nat → Bool) (hx : x + w ≤ 240) (hi : i < w) (hR : R < h) :
    lastRowBit x y w h v (pixelIndex x (y + R) + i) = v R (pixelIndex x (y + R) + i) := by
  have hq : InRect x y w h (pixelIndex x (y + R) + i) := inRect_iff_rows.2 ⟨R, hR, by omega, by omega⟩
  obtain ⟨k, hk⟩ := inRect_iff_lastRowAt.1 hq
  have hrow := lastRowAt_onSurface hx hk
  rw [pixelIndex_eq] at hrow
  obtain rfl : k = R := by omega
  exact lastRowBit_of_lastRowAt v hk

/-- A loop whose row `k` draws `v k` on its run of `w` pixels draws the rectangle. -/
theorem draws_rows {body : Nat → Seq Unit} {x y w h n : Nat} {v : Nat → Nat → Bool}
    (hbody : ∀ k < h, Draws (body k) n (fun q => pixelIndex x (y + k) ≤ q ∧ q < pixelIndex x (y + k) + w) (v k)) :
    Draws (forRows body 0 h) (h * n) (InRect x y w h) (lastRowBit x y w h v) := by
  intro s hs hp
  obtain ⟨t, ht, hd⟩ := forRows_draws (v := v)
    (R := fun k q => decide (pixelIndex x (y + k) ≤ q ∧ q < pixelIndex x (y + k) + w)) hs hp 0 h (fun j u _ hj hu hpar _ => by
      obtain ⟨t, ht, hd⟩ := hbody j (by omega) u hu (by rw [hpar]; exact hp)
      exact ⟨t, ht, hd.congr rfl (fun q => by simp only [decide_eq_true_eq]; congr)⟩)
  refine ⟨t, ht, hd.congr rfl (fun q => ?_)⟩
  rw [← lastRowAt_eq_lastOf]
  cases hk : lastRowAt x y w h q with
  | some k => rw [if_pos (inRect_iff_lastRowAt.2 ⟨k, hk⟩), lastRowBit_of_lastRowAt v hk]
  | none => rw [if_neg (not_inRect_of_lastRowAt hk)]

/-- A loop issues the events of its rows, where each row it runs is known to issue its own. -/
theorem issues_forRows_of_lt {body : Nat → Seq Unit} {f : Nat → Params → Device → List Event} (k n : Nat)
    (h : ∀ j, k ≤ j → j < k + n → Issues (body j) (f j)) :
    Issues (forRows body k n) (fun p d => eventsInOrder p ((List.range' k n).map (fun j => f j p)) d) := by
  induction n generalizing k with
  | zero => exact issues_skip
  | succ n ih =>
    have hrest := ih (k + 1) (fun j h1 h2 => h j (by omega) (by omega))
    exact ((h k (le_refl k) (by omega)).two hrest).congr (fun p d => by
      rw [List.range'_succ, List.map_cons, eventsInOrder_cons])

/-! ## One row of a string -/

/-- Bit `i` of row `r` of a string: column `i mod GW` of character `i div GW` (R207). -/
def textRowBit (rom : Memory) (fp sp : Word) (r i : Nat) : Bool :=
  glyphBit rom fp sp (i / glyphWidth rom fp) r (i % glyphWidth rom fp)

theorem textRowBit_of_column {rom : Memory} {fp sp : Word} {r J k : Nat} (hk : k < glyphWidth rom fp) :
    textRowBit rom fp sp r (J * glyphWidth rom fp + k) = glyphBit rom fp sp J r k := by
  rw [textRowBit, Nat.mul_comm, Nat.mul_add_div (by omega), Nat.div_eq_of_lt hk, Nat.mul_add_mod, Nat.mod_eq_of_lt hk, Nat.add_zero]

section row

variable {rom : Memory} {x y nch r : Nat} {fp sp : Word}

/-- The chunks of a whole string hold the bits of its row. -/
theorem stringRowChunks_bits :
    let cs := stringRowChunks rom fp sp (glyphWidth rom fp) (glyphHeight rom fp) r 0 nch
    chunksLen cs = nch * glyphWidth rom fp ∧ (∀ c ∈ cs, c.2 ≤ 8) ∧
      ∀ i < nch * glyphWidth rom fp, chunksBit cs i = textRowBit rom fp sp r i := by
  obtain ⟨hlen, hsize, hbits⟩ := stringRowChunks_stream rom fp sp r 0 nch
  exact ⟨hlen, hsize, fun i hi => by rw [hbits i hi, Nat.zero_add, textRowBit]⟩

/-- A row draws its glyph bits on its run of pixels (R205, R207). -/
theorem draws_textRowAt (hb : pixelIndex x (y + r) + nch * glyphWidth rom fp < 8 * 65535) :
    Draws (textRowAt rom x y fp sp nch r) (textRowEventCount (x % 8) (nch * glyphWidth rom fp))
      (fun q => pixelIndex x (y + r) ≤ q ∧ q < pixelIndex x (y + r) + nch * glyphWidth rom fp)
      (fun q => textRowBit rom fp sp r (q - pixelIndex x (y + r))) := by
  intro s hs hp
  obtain ⟨hlen, hsize, hbits⟩ := stringRowChunks_bits (rom := rom) (nch := nch) (r := r) (fp := fp) (sp := sp)
  have hindex := pixelIndex_eq x (y + r)
  have haddr := addr_toNat (x := x) (y := y + r) (by omega)
  have hstart : 8 * (addr x (y + r)).toNat + x % 8 = pixelIndex x (y + r) := by omega
  obtain ⟨t, ht, hd⟩ := textRow_draws hs hp (addr x (y + r)) (Nat.mod_lt x (by omega)) _ hsize (by rw [hlen]; omega)
  refine ⟨t, ht, hd.congr (by rw [hlen]) (fun q => ?_)⟩
  rw [hstart, hlen]
  by_cases hq : pixelIndex x (y + r) ≤ q ∧ q < pixelIndex x (y + r) + nch * glyphWidth rom fp
  · rw [if_pos hq, if_pos hq, hbits _ (by omega)]
  · rw [if_neg hq, if_neg hq]

/-- A row issues its head, body and tail (R205). -/
theorem issues_textRowAt (hb : pixelIndex x (y + r) + nch * glyphWidth rom fp < 8 * 65535) :
    Issues (textRowAt rom x y fp sp nch r)
      (fun p d => textRowTrace p d (addr x (y + r)) (x % 8) (nch * glyphWidth rom fp) (textRowBit rom fp sp r)) := by
  obtain ⟨hlen, hsize, hbits⟩ := stringRowChunks_bits (rom := rom) (nch := nch) (r := r) (fp := fp) (sp := sp)
  have hindex := pixelIndex_eq x (y + r)
  have haddr := addr_toNat (x := x) (y := y + r) (by omega)
  have hissues := issues_textRow (addr x (y + r)) (Nat.mod_lt x (by omega)) _ hsize (by rw [hlen]; omega)
    (bit := textRowBit rom fp sp r) (fun i hi => hbits i (by omega))
  rwa [hlen] at hissues

end row

/-! ## The rows of a string -/

/-- The number of transport events of TEXT: none for an empty string, else the same for each of its rows (R206). -/
def textEventTotal (off n h : Nat) : Nat := if n = 0 then 0 else h * textRowEventCount off n

theorem textEventTotal_eq_zero_iff (off n h : Nat) : textEventTotal off n h = 0 ↔ n = 0 ∨ h = 0 := by
  have hrow : textRowEventCount off n ≠ 0 := by
    unfold textRowEventCount
    omega
  by_cases hn : n = 0
  · simp [textEventTotal, hn]
  · simp [textEventTotal, hn, hrow]

/-- The bit TEXT leaves at a pixel index of its rectangle. -/
def textBit (rom : Memory) (fp sp : Word) (x y n h : Nat) : Nat → Bool :=
  lastRowBit x y n h (fun r q => textRowBit rom fp sp r (q - pixelIndex x (y + r)))

section string

variable {rom : Memory} {x y nch : Nat} {fp sp : Word}

theorem draws_textEvents (hb : pixelIndex x (y + glyphHeight rom fp) + nch * glyphWidth rom fp < 8 * 65535) (fast : Bool) :
    Draws (textEvents rom fast x y fp sp nch) (textEventTotal (x % 8) (nch * glyphWidth rom fp) (glyphHeight rom fp))
      (InRect x y (nch * glyphWidth rom fp) (glyphHeight rom fp))
      (textBit rom fp sp x y (nch * glyphWidth rom fp) (glyphHeight rom fp)) := by
  rw [textEvents_eq_rows, textEventTotal]
  by_cases hn : nch * glyphWidth rom fp = 0
  · rw [if_pos hn, if_pos hn, hn]
    refine (draws_skip _).congr (fun q => ?_) (fun _ _ => rfl)
    rw [false_iff]
    rintro ⟨X, Y, hX0, hX1, -⟩
    omega
  · rw [if_neg hn, if_neg hn]
    exact draws_rows (fun k hk => draws_textRowAt (by rw [pixelIndex_eq] at hb ⊢; omega))

theorem issues_textEvents (hb : pixelIndex x (y + glyphHeight rom fp) + nch * glyphWidth rom fp < 8 * 65535) (fast : Bool) :
    Issues (textEvents rom fast x y fp sp nch) (fun p d => textTrace p rom d x y fp sp nch) := by
  rw [textEvents_eq_rows]
  have hrows := issues_forRows_of_lt 0 (glyphHeight rom fp) (fun j _ hj =>
    issues_textRowAt (rom := rom) (x := x) (y := y) (nch := nch) (r := j) (fp := fp) (sp := sp)
      (by rw [pixelIndex_eq] at hb ⊢; omega))
  exact (issues_skip.ite hrows).congr (fun p d => by rw [← List.range_eq_range']; rfl)

/-- On the surface the pixel of column `k` of character `J` lies in the rectangle and takes that glyph bit (R207). -/
theorem textBit_onSurface {h R J k : Nat} (hx : x + nch * glyphWidth rom fp ≤ 240) (hR : R < h) (hJ : J < nch)
    (hk : k < glyphWidth rom fp) :
    InRect x y (nch * glyphWidth rom fp) h (pixelIndex (x + J * glyphWidth rom fp + k) (y + R)) ∧
      textBit rom fp sp x y (nch * glyphWidth rom fp) h (pixelIndex (x + J * glyphWidth rom fp + k) (y + R)) =
        glyphBit rom fp sp J R k := by
  have hcol : J * glyphWidth rom fp + k < nch * glyphWidth rom fp := by
    calc J * glyphWidth rom fp + k < (J + 1) * glyphWidth rom fp := by rw [Nat.succ_mul]; omega
      _ ≤ nch * glyphWidth rom fp := Nat.mul_le_mul_right _ hJ
  have hindex : pixelIndex (x + J * glyphWidth rom fp + k) (y + R) = pixelIndex x (y + R) + (J * glyphWidth rom fp + k) := by
    rw [pixelIndex_eq, pixelIndex_eq]
    omega
  rw [hindex]
  refine ⟨inRect_iff_rows.2 ⟨R, hR, by omega, by omega⟩, ?_⟩
  rw [textBit, lastRowBit_onSurface _ hx hcol hR, Nat.add_sub_cancel_left, textRowBit_of_column hk]

end string

/-! ## The command -/

section command

variable {s : State}

/-- No row of a string in byte operands reaches the address wrap, on the surface or not. -/
theorem text_below_wrap (rom : Memory) (x y nch : Byte) (fp : Word) :
    pixelIndex x.toNat (y.toNat + glyphHeight rom fp) + nch.toNat * glyphWidth rom fp < 8 * 65535 := by
  have hheight : glyphHeight rom fp < 256 := (romRead rom (fp + 1)).isLt
  have hwidth : nch.toNat * glyphWidth rom fp ≤ 255 * 255 :=
    Nat.mul_le_mul (Nat.le_of_lt_succ nch.isLt) (Nat.le_of_lt_succ (romRead rom fp).isLt)
  rw [pixelIndex_eq]
  omega

theorem textEvents_drawsBy (h : s.ready) (fast : Bool) (x y : Byte) (fp sp : Word) (nch : Byte) :
    ∃ t, DrawsBy (textEvents s.rom fast x.toNat y.toNat fp sp nch.toNat) s
      (textTrace s.par s.rom s.dev x.toNat y.toNat fp sp nch.toNat)
      (textEventTotal (x.toNat % 8) (nch.toNat * glyphWidth s.rom fp) (glyphHeight s.rom fp))
      (InRect x.toNat y.toNat (nch.toNat * glyphWidth s.rom fp) (glyphHeight s.rom fp))
      (textBit s.rom fp sp x.toNat y.toNat (nch.toNat * glyphWidth s.rom fp) (glyphHeight s.rom fp)) t := by
  classical
  have hb := text_below_wrap s.rom x y nch fp
  exact (issues_textEvents hb fast).drawsBy h (draws_textEvents hb fast s h.noWait h.distinct)

theorem text_checks {x y nch : Byte} {fp sp : Word}
    (hfits : s.whenStrict (x.toNat + nch.toNat * glyphWidth s.rom fp ≤ 240 ∧ y.toNat + glyphHeight s.rom fp ≤ 128)) :
    firstError (commandChecks s (.text x y fp sp nch)) = none :=
  strictCheck_passes (textFits_iff _ _ _ _ _) hfits

end command

/-- Settles O43: each pixel has the bit of the row drawn last there, which on the surface is its own. -/
theorem textCompletes : Obligations.TextCompletes := by
  unfold Obligations.TextCompletes
  intro x y fp sp nch s h gw gh n hfits
  obtain ⟨u, hu⟩ := textEvents_drawsBy h s.par.fastPath8x16 x y fp sp nch
  obtain ⟨t, ht, hcompleted, hndr, hcur, htrace, hin, hout, -⟩ := hu.completes (i := .text x y fp sp nch) h nofun (text_checks hfits)
  simp only [textEventTotal_eq_zero_iff] at hndr hcur
  refine ⟨t, ht, hcompleted, hndr, hcur, htrace, fun q => ?_, fun hx => ⟨fun R J k hR hJ hk => ?_, hout⟩⟩
  · cases hrow : lastRowAt x.toNat y.toNat n gh q with
    | some R => exact (hin q (inRect_iff_lastRowAt.2 ⟨R, hrow⟩)).trans (lastRowBit_of_lastRowAt _ hrow)
    | none => exact hout q (not_inRect_of_lastRowAt hrow)
  · obtain ⟨hrect, hbit⟩ := textBit_onSurface hx hR hJ hk
    exact (hin _ hrect).trans hbit

/-- Settles O44: the events of TEXT are counted with what they draw. -/
theorem textEventCount : Obligations.TextEventCount := by
  unfold Obligations.TextEventCount
  intro x y fp sp nch s t h gw gh n off hfits hn ht
  obtain ⟨u, hu⟩ := textEvents_drawsBy h s.par.fastPath8x16 x y fp sp nch
  obtain ⟨t', ht', -, -, -, htrace, -⟩ := hu.completes (i := .text x y fp sp nch) h nofun (text_checks hfits)
  cases ht'.symm.trans ht
  rw [State.eventsSince_of_append htrace, hu.count]
  exact if_neg hn.ne'

end Sys2Proof.Machine
end

section
/-! PROOFS. The steps that execute no command (R94, R233 (a), R248, R249): the end of the stream, a byte outside the opcode map, a stream
that ends inside a command, and the wait that never ends. -/

namespace Sys2Proof.Machine

variable {s : State} {op : Byte}

/-- What is fetched starts with the byte at CP. -/
theorem State.fetch_of_byte (hop : s.prog[s.cp]? = some op) : s.fetch = decodeOp op (s.prog.drop (s.cp + 1)) := by
  obtain ⟨hcp, rfl⟩ := List.getElem?_eq_some_iff.1 hop
  rw [State.fetch, List.drop_eq_getElem_cons hcp]
  rfl

theorem State.not_streamEnded_of_byte (hop : s.prog[s.cp]? = some op) : ¬ s.streamEnded = true := by
  obtain ⟨hcp, -⟩ := List.getElem?_eq_some_iff.1 hop
  simpa [State.streamEnded] using hcp

/-- A step at the end of the stream (R248). -/
theorem step_streamEnded (ha : s.activity = .idle) (hend : s.prog.length ≤ s.cp) : step s = .next s := by
  have hended : s.streamEnded = true := decide_eq_true hend
  simp only [step, ha, if_pos hended]

/-- A step on a byte outside the opcode map, outside the fault state (R94, R233 (a)). -/
theorem step_unknownOpcode (ha : s.activity = .idle) (herr : s.err = 0) (hop : s.prog[s.cp]? = some op) (hlen : opLength op = none) :
    step s = .next s.unknownOpcode := by
  have hfetch : s.fetch = .error (.unknownOpcode op) := (State.fetch_of_byte hop).trans (decodeOp_of_opLength_none hlen)
  simp only [step, ha, if_neg (State.not_streamEnded_of_byte hop), if_neg (not_not.2 herr), hfetch]

/-- A step on a stream that ends inside a command, outside the fault state (R94). -/
theorem step_truncated (ha : s.activity = .idle) (herr : s.err = 0) (hop : s.prog[s.cp]? = some op) {len : Nat}
    (hlen : opLength op = some len) (hshort : s.prog.length < s.cp + len) : step s = .refused .truncatedCommand := by
  have hleft : (s.prog.drop (s.cp + 1)).length < len - 1 := by
    obtain ⟨hcp, -⟩ := List.getElem?_eq_some_iff.1 hop
    rw [List.length_drop]
    omega
  have hfetch : s.fetch = .error (.truncated op) :=
    (State.fetch_of_byte hop).trans ((decodeOp_takesBytes hlen).truncated hleft)
  simp only [step, ha, if_neg (State.not_streamEnded_of_byte hop), if_neg (not_not.2 herr), hfetch]

/-- A step inside the wait that never ends (R249). -/
theorem step_busyWait (ha : s.activity = .busyWait) : step s = .next s.pollAgain := by
  simp only [step, ha]

/-- An idle sequencer without an error takes code 4 at an unknown opcode byte and stays idle. -/
theorem State.unknownOpcode_eq (ha : s.activity = .idle) (herr : s.err = 0) :
    s.unknownOpcode = { s with err := 4, cp := s.cp + 1 } := by
  rw [State.unknownOpcode, State.raise, herr, errAfter_zero, ← ha]
  rfl

/-- Settles O7: the three ways a step finds no command to execute. -/
theorem stepWithoutACommand : Obligations.StepWithoutACommand := by
  unfold Obligations.StepWithoutACommand
  refine ⟨fun s ha hend => step_streamEnded ha hend, fun s op ha herr hop hlen => ?_,
    fun s op len ha herr hop hlen hshort => step_truncated ha herr hop hlen hshort⟩
  rw [step_unknownOpcode ha herr hop hlen, State.unknownOpcode_eq ha herr]

/-- Settles O9, by induction on the number of steps. -/
theorem hangGoesOnForEver : Obligations.HangGoesOnForEver := by
  unfold Obligations.HangGoesOnForEver
  intro s k ha
  induction k generalizing s with
  | zero => simp [runSteps]
  | succ k ih =>
    rw [runSteps, step_busyWait ha]
    refine (ih s.pollAgain ha).trans ?_
    rw [State.pollAgain_trace, List.append_assoc, List.replicate_succ]
    rfl

end Sys2Proof.Machine
end

section
/-! PROOFS. The errors raised before the first event of a command (R231 to R234, R236, R237): which check of a command fails, that such a
raise leaves everything but ERR and CP, and that a new error with another code than a time-out is such a raise. -/

namespace Sys2Proof.Machine

variable {s t : State} {i : Instr} {e : Err}

/-! ## Which check fails -/

/-- The check of a command that fails first, in the terms of the spec: a reserved bit index (R233 (d)), operands off the surface (R231), a
row mask that does not conform (R232). -/
def FailedCheck (s : State) (i : Instr) : Err → Prop
  | .illegalCommand => ∃ n : Byte, 8 ≤ n.toNat ∧ (i = .bitclr n ∨ i = .bitset n)
  | .bounds => s.par.strict = true ∧ ¬ inBounds s.rom i
  | .invalidPattern =>
    s.par.strict = true ∧ ∃ x y w h pp, i = .patfill x y w h pp ∧ inBounds s.rom i ∧
      ((romRead s.rom pp).toNat + 1) &&& (romRead s.rom pp).toNat ≠ 0
  | .timeout => False

theorem firstError_cons_eq_some_iff (holds : Bool) (e' : Err) (checks : List (Bool × Err)) :
    firstError ((holds, e') :: checks) = some e ↔ (holds = false ∧ e = e') ∨ (holds = true ∧ firstError checks = some e) := by
  cases holds <;> simp [firstError, eq_comm]

theorem firstError_strictChecks_eq_some_iff (checks : List (Bool × Err)) :
    firstError (strictChecks s checks) = some e ↔ s.par.strict = true ∧ firstError checks = some e := by
  cases hstrict : s.par.strict <;> simp [strictChecks, hstrict, firstError]

/-- The bounds check alone, for the condition it stands for. -/
theorem firstError_boundsCheck {fits : Bool} {condition : Prop} (hfits : fits = true ↔ condition) :
    firstError (strictChecks s [(fits, .bounds)]) = some e ↔ e = .bounds ∧ s.par.strict = true ∧ ¬ condition := by
  rw [firstError_strictChecks_eq_some_iff, firstError_cons_eq_some_iff, ← hfits, Bool.not_eq_true]
  simp only [firstError, reduceCtorEq, and_false, or_false]
  tauto

theorem firstError_bitIndexChecks (n : Byte) : firstError (bitIndexChecks n) = some e ↔ e = .illegalCommand ∧ 8 ≤ n.toNat := by
  rw [bitIndexChecks, firstError_cons_eq_some_iff, decide_eq_false_iff_not, not_lt]
  simp only [firstError, reduceCtorEq, and_false, or_false]
  exact and_comm

theorem patternConforms_eq_false_iff (m : Nat) : patternConforms m = false ↔ (m + 1) &&& m ≠ 0 := by
  rw [patternConforms, beq_eq_false_iff_ne]

/-- A command without a bit index and without a pattern can only fail its bounds check. -/
theorem failedCheck_iff_bounds (hbit : ∀ n, i ≠ .bitclr n ∧ i ≠ .bitset n) (hpat : ∀ x y w h pp, i ≠ .patfill x y w h pp) :
    FailedCheck s i e ↔ e = .bounds ∧ s.par.strict = true ∧ ¬ inBounds s.rom i := by
  cases e with
  | bounds => simp [FailedCheck]
  | invalidPattern => simp [FailedCheck, hpat]
  | timeout => simp [FailedCheck]
  | illegalCommand => simp [FailedCheck, hbit]

/-- A command with a bit index can only fail its check. -/
theorem failedCheck_iff_bitIndex {n : Byte} (hi : i = .bitclr n ∨ i = .bitset n) :
    FailedCheck s i e ↔ e = .illegalCommand ∧ 8 ≤ n.toNat := by
  rcases hi with rfl | rfl <;> cases e <;> simp [FailedCheck, inBounds]

/-- PATFILL checks the bounds and then the pattern (R232, R234). -/
theorem firstError_patfillChecks {x y w h : Byte} {pp : Word} :
    firstError (commandChecks s (.patfill x y w h pp)) = some e ↔ FailedCheck s (.patfill x y w h pp) e := by
  have hfits : rectFits x.toNat y.toNat w.toNat h.toNat = true ↔ inBounds s.rom (.patfill x y w h pp) := rectFits_iff _ _ _ _
  rw [commandChecks, firstError_strictChecks_eq_some_iff, firstError_cons_eq_some_iff, firstError_cons_eq_some_iff,
    patternConforms_eq_false_iff, ← Bool.not_eq_true, hfits, firstError_nil]
  cases e with
  | bounds => simp [FailedCheck]
  | invalidPattern => simp [FailedCheck, patternMask]
  | timeout => simp [FailedCheck]
  | illegalCommand => simp [FailedCheck]

/-- The checks of a command find the error that the spec says. -/
theorem firstError_commandChecks_iff : firstError (commandChecks s i) = some e ↔ FailedCheck s i e := by
  have hbounds {fits : Bool} (hfits : fits = true ↔ inBounds s.rom i) (hbit : ∀ n, i ≠ .bitclr n ∧ i ≠ .bitset n)
      (hpat : ∀ x y w h pp, i ≠ .patfill x y w h pp) : firstError (strictChecks s [(fits, .bounds)]) = some e ↔ FailedCheck s i e :=
    (firstError_boundsCheck hfits).trans (failedCheck_iff_bounds hbit hpat).symm
  cases i with
  | init | setcur | wrbegin | wrbyte | rdbegin | rdbyte =>
    rw [failedCheck_iff_bounds (by simp) (by simp)]
    simp [commandChecks, firstError, inBounds]
  | bitclr n => exact (firstError_bitIndexChecks n).trans (failedCheck_iff_bitIndex (.inl rfl)).symm
  | bitset n => exact (firstError_bitIndexChecks n).trans (failedCheck_iff_bitIndex (.inr rfl)).symm
  | pixclr | pixset => exact hbounds (pixelFits_iff _ _) (by simp) (by simp)
  | hline => exact hbounds (hlineFits_iff _ _ _) (by simp) (by simp)
  | vline => exact hbounds (vlineFits_iff _ _ _) (by simp) (by simp)
  | line => exact hbounds (lineFits_iff _ _ _ _) (by simp) (by simp)
  | rect | fillrect => exact hbounds (rectFits_iff _ _ _ _) (by simp) (by simp)
  | text => exact hbounds (textFits_iff _ _ _ _ _) (by simp) (by simp)
  | patfill => exact firstError_patfillChecks

/-! ## Raising before the first event -/

/-- The command raises the error before its first event: in the wrong initialisation state (R233 (b), (c)), or by the check that fails. -/
inductive RaisesAtOnce (s : State) (i : Instr) : Err → Prop
  | initState (h : decide (i = .init) = s.inited) : RaisesAtOnce s i .illegalCommand
  | check {e : Err} (h : decide (i = .init) ≠ s.inited) (hc : FailedCheck s i e) : RaisesAtOnce s i e

/-- What the error leaves, as the statements write it (R236, R237). -/
theorem State.raise_eq_raised (s : State) (e : Err) (len : Nat) : s.raise e len = s.raised e.code len := rfl

theorem RaisesAtOnce.exec (h : RaisesAtOnce s i e) : exec i s = .next (s.raised e.code (encode i).length) := by
  rw [exec_eq_runCommand, ← State.raise_eq_raised]
  cases h with
  | initState h => exact runCommand_illegal h
  | check h hc => exact runCommand_raises h (firstError_commandChecks_iff.2 hc)

/-- A command raises an error before its first event, or comes to what its events come to. -/
theorem raisesAtOnce_or_runs (s : State) (i : Instr) :
    (∃ e, RaisesAtOnce s i e) ∨ (decide (i = .init) ≠ s.inited ∧ firstError (commandChecks s i) = none) := by
  by_cases hi : decide (i = .init) = s.inited
  · exact .inl ⟨_, .initState hi⟩
  · cases hc : firstError (commandChecks s i) with
    | some e => exact .inl ⟨e, .check hi (firstError_commandChecks_iff.1 hc)⟩
    | none => exact .inr ⟨hi, rfl⟩

/-- The events of a command change ERR only by a time-out (R235). -/
theorem endCommand_err (hx : endCommand (encode i).length (commandEvents s.rom s.par.fastPath8x16 i s) = .next t) :
    t.err = s.err ∨ t.err = errAfter s.err .timeout := by
  have hruns := runs_commandEvents s.rom s.par.fastPath8x16 i
  revert hx
  cases hev : commandEvents s.rom s.par.fastPath8x16 i s with
  | done _ u => rintro ⟨⟩; exact .inl (hruns.done hev).err
  | stopped h u =>
    obtain ⟨hran, hcause⟩ := hruns.stopped hev
    cases h with
    | raise e =>
      obtain ⟨rfl, -⟩ := hcause
      rintro ⟨⟩
      exact .inr (by rw [State.raise_err, hran.err])
    | hang => rintro ⟨⟩; exact .inl hran.err
    | fault f => rintro ⟨⟩

/-- A command that changes ERR has met no error before; it has timed out, or raised before its first event. -/
theorem exec_newError (hx : exec i s = .next t) (hnew : t.err ≠ s.err) :
    s.err = 0 ∧ (t.err = Err.timeout.code ∨ ∃ e, RaisesAtOnce s i e ∧ t = s.raised e.code (encode i).length) := by
  have hzero : s.err = 0 := by
    by_contra hs
    exact hnew (exec_err_of_ne_zero hs hx)
  refine ⟨hzero, ?_⟩
  rcases raisesAtOnce_or_runs s i with ⟨e, he⟩ | ⟨hi, hc⟩
  · cases he.exec.symm.trans hx
    exact .inr ⟨e, he, rfl⟩
  · rw [exec_eq_runCommand, runCommand_runs hi hc] at hx
    have htimeout := (endCommand_err hx).resolve_left hnew
    rw [hzero, errAfter_zero] at htimeout
    exact .inl htimeout

theorem Err.code_injective : Function.Injective Err.code := by
  intro e e'
  cases e <;> cases e' <;> decide

/-- A new error other than a time-out was raised before the first event. -/
theorem exec_raisedCode (hx : exec i s = .next t) (hs : s.err ≠ e.code) (ht : t.err = e.code) (he : e ≠ .timeout) :
    RaisesAtOnce s i e ∧ t = s.raised e.code (encode i).length := by
  obtain ⟨hzero, htimeout | ⟨e', hraises, rfl⟩⟩ := exec_newError hx (ht ▸ hs.symm)
  · exact absurd (Err.code_injective (ht.symm.trans htimeout)) he
  · have hcode : (s.raised e'.code (encode i).length).err = e'.code := if_pos hzero
    obtain rfl := Err.code_injective (hcode.symm.trans ht)
    exact ⟨hraises, rfl⟩

/-! ## The statements -/

/-- Where INIT does not raise, another command is executed after INIT. -/
theorem initState_iff_of_ne_init (hi : i ≠ .init) : decide (i = .init) ≠ s.inited ↔ s.inited = true := by
  simp [hi]

theorem ne_init_of_not_inBounds {rom : Memory} (h : ¬ inBounds rom i) : i ≠ .init := by
  rintro rfl
  exact h trivial

/-- Settles O11: an unknown opcode byte raises in the step, the other three causes before the first event. -/
theorem illegalCommandErrors : Obligations.IllegalCommandErrors := by
  unfold Obligations.IllegalCommandErrors
  refine ⟨fun s op ha herr hop hlen => step_unknownOpcode ha herr hop hlen, fun i s hi => (RaisesAtOnce.initState hi).exec,
    fun n s hinited hn => ?_, fun i s t hx hs ht => ?_⟩
  · have hraises {i : Instr} (hi : i = .bitclr n ∨ i = .bitset n) : RaisesAtOnce s i .illegalCommand :=
      .check (by rcases hi with rfl | rfl <;> simp [hinited]) ⟨n, hn, hi⟩
    exact ⟨(hraises (.inl rfl)).exec, (hraises (.inr rfl)).exec⟩
  · obtain ⟨hraises, -⟩ := exec_raisedCode (e := .illegalCommand) hx hs ht nofun
    cases hraises with
    | initState h => exact .inl h
    | check _ hc => exact .inr hc

/-- Settles O12: a command that has a bounds check is not INIT, so INIT comes before it. -/
theorem boundsErrors : Obligations.BoundsErrors := by
  unfold Obligations.BoundsErrors
  refine ⟨fun i s hinited hstrict hout => ?_, fun i s t hx hs ht => ?_⟩
  · have hi : decide (i = .init) ≠ s.inited := (initState_iff_of_ne_init (ne_init_of_not_inBounds hout)).2 hinited
    exact (RaisesAtOnce.check (e := .bounds) hi ⟨hstrict, hout⟩).exec
  · obtain ⟨hraises, -⟩ := exec_raisedCode (e := .bounds) hx hs ht nofun
    obtain _ | ⟨hi, hstrict, hout⟩ := hraises
    exact ⟨(initState_iff_of_ne_init (ne_init_of_not_inBounds hout)).1 hi, hstrict, hout⟩

/-- Settles O13: the pattern check is the second of PATFILL's checks, and no other command has it. -/
theorem invalidPatternErrors : Obligations.InvalidPatternErrors := by
  unfold Obligations.InvalidPatternErrors
  refine ⟨fun PM => ?_, fun x y w h pp s hinited hstrict hin hmask => ?_, fun i s t hx hs ht => ?_⟩
  · rw [← patternConforms_iff, patternConforms, beq_iff_eq]
  · have hi : decide (Instr.patfill x y w h pp = .init) ≠ s.inited := (initState_iff_of_ne_init (by simp)).2 hinited
    exact (RaisesAtOnce.check (e := .invalidPattern) hi ⟨hstrict, x, y, w, h, pp, rfl, hin, hmask⟩).exec
  · obtain ⟨hraises, -⟩ := exec_raisedCode (e := .invalidPattern) hx hs ht nofun
    obtain _ | ⟨-, hfailed⟩ := hraises
    exact hfailed

/-- Settles O14: of the errors raised before the first event, the two range errors need STRICT. -/
theorem nonStrictRaisesNoRangeError : Obligations.NonStrictRaisesNoRangeError := by
  unfold Obligations.NonStrictRaisesNoRangeError
  intro i s t hloose hx hnew
  obtain ⟨hzero, htimeout | ⟨e, hraises, rfl⟩⟩ := exec_newError hx hnew
  · exact .inl htimeout
  · have hcode : (s.raised e.code (encode i).length).err = e.code := if_pos hzero
    rw [hcode]
    obtain _ | ⟨-, hfailed⟩ := hraises
    · exact .inr rfl
    · cases e with
      | bounds | invalidPattern =>
        obtain ⟨hstrict, -⟩ := hfailed
        cases hloose.symm.trans hstrict
      | timeout => exact hfailed.elim
      | illegalCommand => exact .inr rfl

/-- Settles O16: codes 1, 2 and 4 are raised before the first event. -/
theorem rangeErrorsArePrecise : Obligations.RangeErrorsArePrecise := by
  unfold Obligations.RangeErrorsArePrecise
  intro i s t hs hx hcode
  have hraised {e : Err} (he : e ≠ .timeout) (ht : t.err = e.code) :
      t = { s with err := t.err, cp := s.cp + (encode i).length, activity := .idle } := by
    obtain ⟨-, rfl⟩ := exec_raisedCode hx (by rw [hs]; cases e <;> decide) ht he
    rfl
  rcases hcode with h | h | h
  · exact hraised (e := .bounds) nofun h
  · exact hraised (e := .invalidPattern) nofun h
  · exact hraised (e := .illegalCommand) nofun h

end Sys2Proof.Machine
end

section
/-! PROOFS. The busy-waits of any device (R235, R237, R249): a command run with its busy-waits, whatever they are answered, beside the same
command run without. A time-out or a hang stops the first run; the second goes on, and its trace only grows. -/

namespace Sys2Proof.Machine

variable {tr : List Event} {s s' t u u' : State} {α β : Type}

/-! ## The two runs -/

/-- Behind the trace `tr`, the events of `u` but for polls are the first events of `u'`. -/
def Behind (tr : List Event) (u u' : State) : Prop :=
  ∃ fs es, u.trace = tr ++ fs ∧ u'.trace = tr ++ es ∧ withoutPolls fs <+: es

/-- `s'` is `s` without WAIT_BUSY, with the same events behind the trace `tr` but for the polls. -/
structure Beside (tr : List Event) (s s' : State) : Prop where
  same : s' = { s with par := setWait s.par false, trace := s'.trace, busyAnswers := s'.busyAnswers }
  log : ∃ fs, s.trace = tr ++ fs ∧ s'.trace = tr ++ withoutPolls fs

theorem Beside.par (h : Beside tr s s') : s'.par = setWait s.par false := by rw [h.same]

theorem Beside.dev (h : Beside tr s s') : s'.dev = s.dev := by rw [h.same]

theorem Beside.ndr (h : Beside tr s s') : s'.ndr = s.ndr := by rw [h.same]

theorem Beside.noWait (h : Beside tr s s') : s'.noWait := by
  rw [State.noWait, h.par]
  rfl

theorem Beside.behind (h : Beside tr s s') : Behind tr s s' := by
  obtain ⟨fs, hfs, hes⟩ := h.log
  exact ⟨fs, _, hfs, hes, List.prefix_rfl⟩

theorem Behind.grows (h : Behind tr u s') {es : List Event} (hes : u'.trace = s'.trace ++ es) : Behind tr u u' := by
  obtain ⟨fs, gs, hfs, hgs, hfirst⟩ := h
  exact ⟨fs, gs ++ es, hfs, by rw [hes, hgs, List.append_assoc], hfirst.trans (List.prefix_append _ _)⟩

theorem beside_withoutWait (s : State) : Beside s.trace s s.withoutWait where
  same := rfl
  log := ⟨[], by simp, by simp [State.withoutWait, withoutPolls]⟩

/-- The polls of a busy-wait do not count. -/
theorem Beside.polled (h : Beside tr s s') (hu : Polled s u) : Beside tr u s' := by
  obtain ⟨bs, rfl⟩ := hu
  obtain ⟨fs, hfs, hes⟩ := h.log
  refine ⟨h.same, fs ++ bs.map Event.busy, by simp only [hfs, List.append_assoc], ?_⟩
  rw [withoutPolls_append, withoutPolls_polls, List.append_nil, hes]

/-- One event on both sides. -/
theorem Beside.emit (h : Beside tr s s') {e : Event} (he : e.isPoll = false) : Beside tr (s.emit e) (s'.emit e) where
  same := congrArg (fun v : State => { v with trace := s'.trace ++ [e] }) h.same
  log := by
    obtain ⟨fs, hfs, hes⟩ := h.log
    refine ⟨fs ++ [e], by rw [State.emit_trace, hfs, List.append_assoc], ?_⟩
    rw [State.emit_trace, withoutPolls_append, hes, List.append_assoc]
    simp [withoutPolls, he]

/-- The device changes alike. -/
theorem Beside.withDev (h : Beside tr s s') (d : Device) : Beside tr { s with dev := d } { s' with dev := d } :=
  { h with same := congrArg (fun v : State => { v with dev := d }) h.same }

/-- The registers change alike. -/
theorem beside_registerUpdate {f : State → State} (hf : RegisterUpdate f) (h : Beside tr s s') : Beside tr (f s) (f s') := by
  cases hf with
  | cur v => exact { h with same := congrArg (fun v' : State => { v' with cur := v }) h.same }
  | setNdr => exact { h with same := congrArg State.setDummyReadNeeded h.same }
  | clearNdr => exact { h with same := congrArg State.clearDummyReadNeeded h.same }

/-! ## Pieces that waiting only cuts short -/

/-- The state in which a run ends or stops. -/
def Run.state : Run α → State
  | .done _ t => t
  | .stopped _ t => t

/-- The run with busy-waits, and the run without: both end, with the same value; or the first stops, behind the second. -/
inductive CutRel (tr : List Event) : Run α → Run α → Prop
  | both {a : α} {t t' : State} : Beside tr t t' → CutRel tr (.done a t) (.done a t')
  | cut {e : Halt} {u : State} {r' : Run α} : Behind tr u r'.state → CutRel tr (.stopped e u) r'

theorem CutRel.behind {r r' : Run α} (h : CutRel tr r r') : Behind tr r.state r'.state := by
  cases h with
  | both h => exact h.behind
  | cut h => exact h

/-- A piece that busy-waits only cut short. -/
structure CutShort (tr : List Event) (m : Seq α) : Prop where
  runs : Runs m
  cuts : ∀ s s', Beside tr s s' → CutRel tr (m s) (m s')

theorem CutShort.grows {m : Seq α} (h : CutShort tr m) (s : State) : ∃ es, (m s).state.trace = s.trace ++ es := by
  cases hm : m s with
  | done a t =>
    obtain ⟨es, hes, -⟩ := (h.runs.done hm).log
    exact ⟨es, hes⟩
  | stopped e t =>
    obtain ⟨es, hes, -⟩ := (h.runs.stopped hm).1.log
    exact ⟨es, hes⟩

theorem cutShort_yield (a : α) : CutShort tr (yield a) := ⟨composes_ran.yield a, fun _ _ h => .both h⟩

/-- Where the first piece is cut short, the second only adds to the run without busy-waits. -/
theorem CutShort.andThen {m : Seq α} {f : α → Seq β} (hm : CutShort tr m) (hf : ∀ a, CutShort tr (f a)) :
    CutShort tr (andThen m f) where
  runs := composes_ran.andThen hm.runs (fun a => (hf a).runs)
  cuts := by
    intro s s' h
    have hrun := hm.cuts s s' h
    revert hrun
    simp only [Machine.andThen]
    generalize m s = r, m s' = r'
    rintro (h | h)
    · exact (hf _).cuts _ _ h
    · cases r' with
      | done a t' =>
        obtain ⟨es, hes⟩ := (hf a).grows t'
        exact .cut (h.grows hes)
      | stopped e t' => exact .cut h

theorem cutShort_inOrder {ms : List (Seq Unit)} (h : ∀ m ∈ ms, CutShort tr m) : CutShort tr (inOrder ms) := by
  induction ms with
  | nil => exact cutShort_yield ()
  | cons m ms ih => exact (h m (by simp)).andThen (fun _ => ih (fun n hn => h n (by simp [hn])))

/-- A piece that is chosen by looking at the state, where both states choose the same. -/
theorem cutShort_of_state {m : Seq α} (g : State → Seq α) (hm : ∀ s, m s = g s s) (hg : ∀ s s', Beside tr s s' → g s' = g s)
    (h : ∀ s, CutShort tr (g s)) : CutShort tr m where
  runs := obeys_of_state g hm (fun s => (h s).runs)
  cuts := by
    intro s s' hs
    rw [hm s, hm s', hg s s' hs]
    exact (h s).cuts s s' hs

theorem cutShort_ofPar {g : Params → Seq α} (hw : ∀ p b, g (setWait p b) = g p) (h : ∀ p, CutShort tr (g p)) :
    CutShort tr (fun s => g s.par s) :=
  cutShort_of_state (fun s => g s.par) (fun _ => rfl) (fun s s' hs => by rw [hs.par, hw]) (fun s => h s.par)

/-! ## The transport operations -/

/-- Without WAIT_BUSY nothing is polled, so the wait that stops is where the run with busy-waits falls behind. -/
theorem cutShort_waitBusy : CutShort tr waitBusy where
  runs := runs_waitBusy
  cuts := by
    intro s s' h
    rw [waitBusy_noWait h.noWait]
    cases hw : waitBusy s with
    | done a u => exact .both (h.polled (obeys_waitBusy.done hw))
    | stopped e u => exact .cut (h.polled (obeys_waitBusy.stopped hw)).behind

theorem cutShort_writeTransaction (r : Reg) (b : Byte) : CutShort tr (writeTransaction r b) where
  runs := runs_writeTransaction r b
  cuts := by
    intro s s' h
    simp only [writeTransaction, h.dev, h.par, Device.write_setWait]
    cases s.dev.write s.par r b with
    | some d => exact .both ((h.emit rfl).withDev d)
    | none => exact .cut (h.emit rfl).behind

theorem cutShort_readTransaction (r : Reg) : CutShort tr (readTransaction r) where
  runs := runs_readTransaction r
  cuts := by
    intro s s' h
    simp only [readTransaction, h.dev, h.par, Device.read_setWait]
    cases s.dev.read s.par r with
    | some vd => exact .both ((h.emit rfl).withDev vd.2)
    | none => exact .cut h.behind

theorem cutShort_tw (r : Reg) (b : Byte) : CutShort tr (tw r b) := cutShort_waitBusy.andThen (fun _ => cutShort_writeTransaction r b)

theorem cutShort_tr (r : Reg) : CutShort tr (Machine.tr r) := cutShort_waitBusy.andThen (fun _ => cutShort_readTransaction r)

theorem cutShort_tInit : CutShort tr tInit where
  runs := runs_tInit
  cuts := by
    intro s s' h
    rw [tInit, andThen_done (waitBusy_noWait h.noWait)]
    cases hw : waitBusy s with
    | done a u =>
      rw [andThen_done hw]
      exact .both ((h.polled (obeys_waitBusy.done hw)).emit rfl)
    | stopped e u =>
      rw [andThen_stopped hw]
      exact .cut ((h.polled (obeys_waitBusy.stopped hw)).behind.grows rfl)

/-! ## The commands -/

theorem Assembled.cutShort {m : Seq α} (h : Assembled m) : CutShort tr m := by
  induction h with
  | yield a => exact cutShort_yield a
  | andThen _ _ ihm ihf => exact ihm.andThen ihf
  | select k _ hw => exact cutShort_ofPar (g := fun p => tw .command (k p)) (fun p b => by rw [hw]) (fun _ => cutShort_tw _ _)
  | data b => exact cutShort_tw .data b
  | read => exact cutShort_tr .data
  | update hf => exact ⟨runs_registerUpdate hf, fun _ _ h => .both (beside_registerUpdate hf h)⟩
  | @ifNdr m _ ih =>
    refine cutShort_of_state (fun s => if s.ndr then m else skip) (fun s => by split <;> rfl) (fun s s' hs => by rw [hs.ndr])
      (fun s => ?_)
    split
    · exact ih
    · exact cutShort_yield ()
  | ofPar g hw _ ih => exact cutShort_ofPar hw ih

theorem cutShort_sendModeSetup (l : List (Byte × Byte)) : CutShort tr (sendModeSetup l) := by
  induction l with
  | nil => exact cutShort_yield ()
  | cons kd l ih => exact cutShort_inOrder (by simpa using ⟨cutShort_tw _ _, cutShort_tw _ _, ih⟩)

theorem cutShort_initEvents : CutShort tr initEvents := by
  have hmode : CutShort tr modeSetup :=
    cutShort_ofPar (g := fun p => sendModeSetup p.modeSetup) (fun _ _ => rfl) (fun _ => cutShort_sendModeSetup _)
  have hndr : CutShort tr (update State.setDummyReadNeeded) := (Assembled.update .setNdr).cutShort
  have hinited : CutShort tr (update (fun s => { s with inited := true })) :=
    ⟨obeys_update (fun s => { Ran.refl s with }),
      fun _ _ h => .both { h with same := congrArg (fun v : State => { v with inited := true }) h.same }⟩
  exact cutShort_inOrder (by simpa using ⟨cutShort_tInit, hmode, hndr, hinited⟩)

theorem cutShort_respond (b : Byte) : CutShort tr (respond b) :=
  ⟨obeys_update (fun s => { Ran.refl s with resp := List.prefix_append _ _ }),
    fun _ _ h => .both { h with same := congrArg (fun v : State => { v with resp := v.resp ++ [b] }) h.same }⟩

theorem cutShort_commandEvents (rom : Memory) (fast : Bool) (i : Instr) : CutShort tr (commandEvents rom fast i) := by
  by_cases hi : i = .init
  · subst hi
    exact cutShort_initEvents
  by_cases hr : i = .rdbyte
  · subst hr
    exact (cutShort_tr .data).andThen cutShort_respond
  · exact (assembled_commandEvents rom fast i hi hr).cutShort

/-! ## The statement -/

/-- The end of a command issues no event. -/
theorem endCommand_trace {len : Nat} {r : Run Unit} (h : endCommand len r = .next t) : t.trace = r.state.trace := by
  cases r with
  | done _ u => cases h; rfl
  | stopped e u =>
    cases e with
    | raise e => cases h; rfl
    | hang => cases h; rfl
    | fault f => cases h

theorem RaisesAtOnce.withoutWait {i : Instr} {e : Err} (h : RaisesAtOnce s i e) : RaisesAtOnce s.withoutWait i e := by
  cases h with
  | initState h => exact .initState h
  | check h hc =>
    rw [← firstError_commandChecks_iff, ← commandChecks_withoutWait, firstError_commandChecks_iff] at hc
    exact .check h hc

/-- A command with its busy-waits, beside the same command without. -/
theorem exec_behind {i : Instr} (ht : exec i s.withoutWait = .next t) (hu : exec i s = .next u) : Behind s.trace u t := by
  rcases raisesAtOnce_or_runs s i with ⟨e, he⟩ | ⟨hi, hc⟩
  · cases he.exec.symm.trans hu
    cases he.withoutWait.exec.symm.trans ht
    exact (beside_withoutWait s).behind
  · rw [exec_eq_runCommand, runCommand_runs hi hc] at hu
    rw [exec_eq_runCommand, runCommand_runs (s := s.withoutWait) hi ((congrArg firstError (commandChecks_withoutWait s i)).trans hc)] at ht
    obtain ⟨fs, es, hfs, hes, hfirst⟩ :=
      ((cutShort_commandEvents s.rom s.par.fastPath8x16 i).cuts _ _ (beside_withoutWait s)).behind
    exact ⟨fs, es, (endCommand_trace hu).trans hfs, (endCommand_trace ht).trans hes, hfirst⟩

/-- Settles O58: the run with busy-waits stops behind the run without, or ends beside it. -/
theorem waitingOnlyCutsShort : Obligations.WaitingOnlyCutsShort := by
  unfold Obligations.WaitingOnlyCutsShort
  intro i s t u ht hu
  obtain ⟨fs, es, hfs, hes, hfirst⟩ := exec_behind ht hu
  rwa [State.eventsSince_of_append hfs, State.eventsSince_of_append (s := s.withoutWait) hes]

end Sys2Proof.Machine
end

section
/-! PROOFS. Turning round between writing and reading without a new SETCUR (R268, R269): what RDBEGIN and RDBYTE answer with NDR 1 and
with NDR 0. -/

namespace Sys2Proof.Machine

variable {s t : State}

/-! ## Turning to reading -/

/-- RDBEGIN and RDBYTE answer the byte at the device cursor when the dummy read is needed, and otherwise whatever the latch holds
(R65, R123). -/
theorem execAll_rdbegin_rdbyte (h : s.ready) :
    ∃ t, execAll [.rdbegin, .rdbyte] s = .next t ∧ t.dev.mem = s.dev.mem ∧
      t.resp = s.resp ++ [if s.ndr then s.dev.mem.read s.dev.dc else s.dev.latch] := by
  rw [execAll_cons_of_next (exec_rdbegin h), execAll_cons_of_next (exec_rdbyte (by exact h) rfl)]
  exact ⟨_, rfl, rfl, rfl⟩

/-! ## Turning to writing -/

/-- WRBEGIN opens a write stream at the device cursor, wherever the commands before have left it (R129, R269). -/
theorem exec_wrbegin_opens (h : s.ready) :
    ∃ t, exec .wrbegin s = .next t ∧ WriteStream t ∧ t.dev.mem = s.dev.mem ∧ t.dev.dc = s.dev.dc ∧ t.dev.latch = s.dev.latch ∧
      t.ndr = s.ndr ∧ t.resp = s.resp :=
  ⟨_, exec_wrbegin h, ⟨h, rfl⟩, rfl, rfl, rfl, rfl, rfl⟩

/-- SETCUR `p` and WRBEGIN open a write stream at `p` with NDR 1 (R122, R128). -/
theorem execAll_opens_writeStream (h : s.ready) (p : Word) :
    ∃ t, execAll [.setcur p, .wrbegin] s = .next t ∧ WriteStream t ∧ t.dev.mem = s.dev.mem ∧ t.dev.dc = p ∧ t.ndr = true ∧
      t.resp = s.resp := by
  rw [execAll_cons_of_next (exec_setcur h p), execAll_cons_of_next (exec_wrbegin (by exact h))]
  exact ⟨_, rfl, ⟨h, rfl⟩, rfl, rfl, rfl, rfl⟩

/-- WRBYTE stores at the device cursor, leaves the write stream open, and keeps the latch and NDR (R24, R63, R130). -/
theorem WriteStream.wrbyte (h : WriteStream s) (b : Byte) :
    ∃ t, exec (.wrbyte b) s = .next t ∧ WriteStream t ∧ t.dev.mem = s.dev.mem.write s.dev.dc b ∧ t.dev.latch = s.dev.latch ∧
      t.ndr = s.ndr ∧ t.resp = s.resp :=
  ⟨_, exec_wrbyte h.ready h.ir (Device.writeData_write h.ready.distinct s.dev b), ⟨h.ready, h.ir⟩, rfl, rfl, rfl, rfl⟩

theorem WriteStream.stays_open (h : WriteStream s) {bs : List Byte} (ht : execAll (bs.map .wrbyte) s = .next t) : WriteStream t := by
  induction bs generalizing s with
  | nil => cases ht; exact h
  | cons b bs ih =>
    obtain ⟨u, hu, hopen, -⟩ := h.wrbyte b
    exact ih hopen ((execAll_cons_of_next hu).symm.trans ht)

/-! ## The statement -/

/-- Case (a) of R268: NDR is still 1, so the dummy read loads the latch at the cursor the WRBYTEs have left. -/
theorem first_read_after_writing (h : s.ready) (p : Word) (bs : List Byte) (hlen : bs.length < 65536) :
    ∃ t, execAll ([.setcur p, .wrbegin] ++ bs.map .wrbyte ++ [.rdbegin, .rdbyte]) s = .next t ∧
      t.resp = s.resp ++ [s.dev.mem.read (p + BitVec.ofNat 16 bs.length)] := by
  obtain ⟨t₀, h₀, hopen, hmem, rfl, hndr₀, hresp₀⟩ := execAll_opens_writeStream h p
  obtain ⟨u, hu, -, hframe, hdc, hndr, -, hresp⟩ := hopen.wrbytes bs hlen.le
  obtain ⟨t, ht, -, htresp⟩ := execAll_rdbegin_rdbyte (hopen.stays_open hu).ready
  have hrun : execAll ([.setcur t₀.dev.dc, .wrbegin] ++ bs.map .wrbyte ++ [.rdbegin, .rdbyte]) s = .next t := by
    rw [List.append_assoc, execAll_append_of_next h₀, execAll_append_of_next hu, ht]
  have hnext : u.dev.mem.read u.dev.dc = s.dev.mem.read u.dev.dc := by
    rw [hdc, ← hmem]
    exact hframe _ (fun j hj => Word.toNat_ne_of_lt _ hlen (by omega) (by omega))
  exact ⟨t, hrun, by rw [htresp, hresp, hresp₀, if_pos (hndr.trans hndr₀), hnext, hdc]⟩

/-- R269 with one byte read, and case (b) of R268: the cursor is two past `p` when the byte is written, and NDR is already 0, so the read
after it answers the latch of the read before. -/
theorem stale_read_after_reading_and_writing (h : s.ready) (p : Word) (v : Byte) :
    ∃ t, execAll [.setcur p, .rdbegin, .rdbyte, .wrbegin, .wrbyte v, .rdbegin, .rdbyte] s = .next t ∧
      t.resp = s.resp ++ [s.dev.mem.read p, s.dev.mem.read (p + 1)] ∧ StoresOnly s t (p + 2) v := by
  obtain ⟨t₀, h₀, r₀⟩ := execAll_opens_readStream h p
  obtain ⟨t₁, h₁, r₁⟩ := r₀.rdbyte
  obtain ⟨t₂, h₂, hopen, hmem₂, hdc₂, hlatch₂, hndr₂, hresp₂⟩ := exec_wrbegin_opens r₁.ready
  obtain ⟨t₃, h₃, hopen₃, hmem₃, hlatch₃, hndr₃, hresp₃⟩ := hopen.wrbyte v
  obtain ⟨t, ht, hmem, hresp⟩ := execAll_rdbegin_rdbyte hopen₃.ready
  have hrun : execAll ([.setcur p, .rdbegin] ++ [.rdbyte, .wrbegin, .wrbyte v, .rdbegin, .rdbyte]) s = .next t := by
    rw [execAll_append_of_next h₀, execAll_cons_of_next h₁, execAll_cons_of_next h₂, execAll_cons_of_next h₃, ht]
  have hcursor : t₁.dev.dc = p + 2 := by rw [r₁.dc, ← Word.add_ofNat_succ]; rfl
  have hanswer₁ : t₁.resp = s.resp ++ [s.dev.mem.read p] := by simp [r₁.resp]
  have hndr : ¬ t₃.ndr = true := by simp [hndr₃, hndr₂, r₁.ndr]
  have hanswers : t.resp = s.resp ++ [s.dev.mem.read p, s.dev.mem.read (p + 1)] := by
    rw [hresp, if_neg hndr, hlatch₃, hlatch₂, r₁.latch, hresp₃, hresp₂, hanswer₁, List.append_assoc]
    rfl
  exact ⟨t, hrun, hanswers, storesOnly_of_write (by rw [hmem, hmem₃, hmem₂, r₁.mem, hdc₂, hcursor])⟩

/-- Settles O28: the first read after writing makes the dummy read, a later one does not. -/
theorem turningRoundWithoutSetcur : Obligations.TurningRoundWithoutSetcur :=
  ⟨fun p bs _ h hlen => first_read_after_writing h p bs hlen, fun p v _ h => stale_read_after_reading_and_writing h p v⟩

end Sys2Proof.Machine
end
